-- ==== Sys2Proof/Word.lean ====
section
/-! DEFINITION. The word types of the block (spec 00_scope.md R11 to R13) and the text type of the host. -/

namespace Sys2Proof

/-- A byte, 8 bits; bit 0 is the least significant (R11, R12). -/
abbrev Byte := BitVec 8

/-- A 16-bit word: an `i16` telemetry field (R84). -/
abbrev Half := BitVec 16

/-- A 32-bit word: an `f32` telemetry field, carried as raw bits (R83). -/
abbrev Word := BitVec 32

/-- A string of the host (R100, R101), as its list of characters. -/
abbrev Text := List Char

/-- Four like things, one for each phase-shifter channel 1 to 4 (R49). -/
structure Quad (α : Type) where
  c1 : α
  c2 : α
  c3 : α
  c4 : α
  deriving DecidableEq, Repr

/-- The four phase-shifter channels (R49). -/
inductive Channel where
  | c1 | c2 | c3 | c4
  deriving DecidableEq, Repr

/-- The entry of channel `ch`. -/
def Quad.get {α : Type} (q : Quad α) : Channel → α
  | .c1 => q.c1
  | .c2 => q.c2
  | .c3 => q.c3
  | .c4 => q.c4

/-- `q` with the entry of one channel replaced. -/
def Quad.set {α : Type} (q : Quad α) (ch : Channel) (x : α) : Quad α :=
  match ch with
  | .c1 => { q with c1 := x }
  | .c2 => { q with c2 := x }
  | .c3 => { q with c3 := x }
  | .c4 => { q with c4 := x }

/-- The channel after this one, none after channel 4. -/
def Channel.next : Channel → Option Channel
  | .c1 => some .c2
  | .c2 => some .c3
  | .c3 => some .c4
  | .c4 => none

end Sys2Proof
end

