-- ==== Sys2Proof/Config.lean ====
section
/-! DEFINITION. What is fixed for the life of the block: the constants of 00_scope.md R9, the parameters R10
leaves open, and the free values. A claim names the constant and not its value (R9, R20). -/

namespace Sys2Proof

/-- The value classes a word of the open degree format `DEG_FMT` can have (R10, R60; log 2). Every encoding of any
concrete format denotes one of these: a finite rational, a negative zero, or no finite number. -/
inductive DegWord where
  /-- An encoding that denotes the rational `q`. -/
  | finite (q : Rat)
  /-- A negative zero: denotes 0 (R60). -/
  | negZero
  /-- Positive infinity: denotes no number (R60). -/
  | posInf
  /-- Negative infinity: denotes no number (R60). -/
  | negInf
  /-- Not a number (R60). -/
  | nan
  deriving DecidableEq, Repr, Inhabited

/-- The error kinds of 60_exceptions.md R117 and R118. -/
inductive ErrorKind where
  /-- Raised by `DECODE` when the frame length is not 16 (R119). -/
  | malformedFrame
  /-- Raised by the Command Assembler, step 1 (R93, R121). -/
  | invalidOpcode
  /-- Raised by the Command Assembler, step 2 (R97, R121). -/
  | invalidPhaseShifterRange
  /-- The Command Assembler's silent third outcome (R96, R122). -/
  | unsupportedMode
  /-- Raised by the reserved request code (R120). -/
  | illegalRequest
  deriving DecidableEq, Repr

/-- The two tie rules the source allows (R62). -/
inductive RoundMode where
  | halfEven
  | halfUp
  deriving DecidableEq, Repr

/-- A range of degrees `[low, high)`: the form of the default `[0, 360)` of `WRAP_RANGE` (R10). DESIGN CHOICE: a range the
calculator documents instead has this form too, half-open with rational ends; D26 and U4 give it none (log 13). -/
structure DegRange where
  low : Rat
  high : Rat
  deriving DecidableEq, Repr, Inhabited

namespace Config

/-- `MAX_PS_DEG_VAL` (R9): largest legal degree operand. -/
def maxPsDegVal : Nat := 353

/-- `MAX_PS_BIT_VAL` (R9): largest quantized code. -/
def maxPsBitVal : Nat := 63

/-- `PS_BIT_MAP` (R9, R53): code bit i goes to output bit `psBitMap[i]`. -/
def psBitMap : List Nat := [2, 6, 3, 4, 0, 1]

/-- `PS_REF_BIT` (R9): the output bit that is always 1. -/
def psRefBit : Nat := 5

/-- `TLM_FRAME_LEN` (R9): bytes in a telemetry frame (90_conflicts.md C1). -/
def tlmFrameLen : Nat := 16

/-- `TLM_FIELD_BYTES` (R9): bytes the five declared fields occupy; the pad is the rest of the frame. -/
def tlmFieldBytes : Nat := 14

/-- `TLM_PAD` (R10, D12): the frame offset of the first of the two adjacent bytes that no field occupies (log 18). -/
def tlmPad : Nat := 14

/-- How many bytes of a telemetry frame no field occupies (R9). -/
def tlmPadBytes : Nat := tlmFrameLen - tlmFieldBytes

/-- The frame offset of the field that starts at byte `n` of the five packed fields: a field behind the pad stands that
much further on (R10, D12). -/
def tlmOffset (n : Nat) : Nat := if n < tlmPad then n else n + tlmPadBytes

/-- `CMD_FRAME_LEN` (R9): bytes in a command frame. -/
def cmdFrameLen : Nat := 5

/-- `OP_NOP` (R9, R51). -/
def opNop : Byte := 0

/-- `OP_BLINK` (R9, R51). -/
def opBlink : Byte := 1

/-- `OP_SETPS` (R9, R51). -/
def opSetps : Byte := 2

/-- `GROUND_ID` (R9): radio node id of the ground station; no rule reads it. -/
def groundId : Nat := 1

/-- `REMOTE_ID` (R9): every outbound frame goes to this node. -/
def remoteId : Nat := 2

/-- `ROUND_MODE` (R10, R62): round-half-to-even, as the spec documents. -/
def roundMode : RoundMode := .halfEven

/-- By how much the capacity of RXBUF exceeds the least one, 17. Free: `RX_MAX` is open, at least 17 (R10, R32), and at
most 255, what `RX_LEN` can count (R21; log 3). -/
opaque rxMaxAboveLeast : Fin 239

/-- `RX_MAX` (R10, R32): the capacity of RXBUF, a free value from 17 to 255 (log 3). -/
def rxMax : Nat := rxMaxAboveLeast.val + 17

/-- `POLL_TIMEOUT` (R10): how long the host's radio poll may wait. Free; no rule reads it. -/
opaque pollTimeout : Nat

/-- `GEOMETRY_RATIO` (R10, R114): a host argument the spec gives no value. Free. -/
opaque geometryRatio : Rat

/-- The calculator `phase_shift_for_angle(geometry_ratio, angle)` (R114). Free (log 13). -/
opaque phaseShiftForAngle : Rat → Int → DegWord

/-- The output range the calculator documents, if it documents one (R10, R114, U4). Free; its
form is DESIGN CHOICE (log 13). -/
opaque documentedWrapRange : Option DegRange

/-- `WRAP_RANGE` (R10, D26): `[0, 360)`, unless the calculator documents another range. -/
def wrapRange : DegRange := documentedWrapRange.getD { low := 0, high := 360 }

/-- What the calculator's `wrap_phase` gives, before the limit of its range (R114). Free (log 13). -/
opaque wrapFree : DegWord → DegWord

/-- What `parse_int` gives on a string that R101 does not pin. Free (log 12). -/
opaque otherInt : Text → Option Int

/-- What `parse_number` gives on a string that R101 does not pin. Free (log 12). -/
opaque otherNumber : Text → Option Rat

/-- First character of the n-th error text; the text is free but not empty (R100, U17; log 8). -/
opaque messageHead : ErrorKind → Nat → Char

/-- Rest of the n-th error text. Free (R100, U17; log 8). -/
opaque messageTail : ErrorKind → Nat → Text

end Config
end Sys2Proof
end

