-- ==== Sys2Proof/Syntax.lean ====
section
/-! DEFINITION. The encoded items of the block: one constructor for each row of spec/opcode_table.json. -/

namespace Sys2Proof

/-- The rows of the opcode table (30_encoding.md). The four `REQ` rows are the request codes of R50; the `CMD` rows,
`TLM` and `PSW` are the wire formats of R48, R49 and R52. -/
inductive Instr where
  /-- `QMAP`, request code 0b00 (R50, R67). -/
  | qmap
  /-- `ENCODE`, request code 0b01 (R50, R77). -/
  | encode
  /-- `DECODE`, request code 0b10 (R50, R86). -/
  | decode
  /-- `REQ.RESERVED`, request code 0b11 (R50, R55, R120). -/
  | reqReserved
  /-- `CMD.NOP`: a command frame with opcode 0 and four control words (R49, R51). -/
  | cmdNop (ps1 ps2 ps3 ps4 : Byte)
  /-- `CMD.BLINK`: a command frame with opcode 1 (R49, R51). -/
  | cmdBlink (ps1 ps2 ps3 ps4 : Byte)
  /-- `CMD.SETPS`: a command frame with opcode 2 (R49, R51). -/
  | cmdSetps (ps1 ps2 ps3 ps4 : Byte)
  /-- `TLM`: a telemetry frame, five fields and the pad (R48). -/
  | tlm (lat lon : Word) (mx my mz pad : Half)
  /-- `PSW`: a phase-shifter control word, by the 6-bit code it holds (R52). -/
  | psw (code : BitVec 6)
  deriving DecidableEq, Repr

end Sys2Proof
end

