-- ==== Sys2Proof/WellFormed.lean ====
section
/-! DEFINITION. Well-formedness of an encoded item: the legal values 30_encoding.md R49 gives the control-word fields
of a command frame. The block itself checks nothing (41_cenc.md R78), so no meaning asks for it. -/

namespace Sys2Proof

/-- A legal control word: bit 5 is 1 and bit 7 is 0 (R52, R55). -/
def legalControlWord (w : Byte) : Bool := w.getLsbD 5 && !w.getLsbD 7

/-- Four legal control words (R49, R75). -/
def legalControlWords (ps1 ps2 ps3 ps4 : Byte) : Bool :=
  legalControlWord ps1 && legalControlWord ps2 && legalControlWord ps3 && legalControlWord ps4

/-- `ValidCommandPacket` (R75): opcode 0, 1 or 2 and four legal control words. -/
def validCommandPacket (op ps1 ps2 ps3 ps4 : Byte) : Bool :=
  decide (op.toNat ≤ 2) && legalControlWords ps1 ps2 ps3 ps4

/-- An encoded item whose fields hold legal values (R49, R52, R55): every request code, every telemetry frame and every
code is legal; a command frame needs four legal control words. -/
def Instr.wellFormed : Instr → Bool
  | .qmap => true
  | .encode => true
  | .decode => true
  | .reqReserved => true
  | .cmdNop ps1 ps2 ps3 ps4 => legalControlWords ps1 ps2 ps3 ps4
  | .cmdBlink ps1 ps2 ps3 ps4 => legalControlWords ps1 ps2 ps3 ps4
  | .cmdSetps ps1 ps2 ps3 ps4 => legalControlWords ps1 ps2 ps3 ps4
  | .tlm _ _ _ _ _ _ => true
  | .psw _ => true

end Sys2Proof
end

