-- ==== Sys2Proof/Decode.lean ====
section
/-! DEFINITION. Decoding an encoded item from its bytes, and the encoder (30_encoding.md R47 to R55). All formats have
one fixed length each (R56): one byte is a request code or a control word, five a command frame, sixteen a telemetry
frame. -/

namespace Sys2Proof

/-- Why bytes are no encoded item. -/
inductive DecodeError where
  /-- No format has this many bytes (R47, R55). -/
  | badLength (n : Nat)
  /-- One byte that is neither a request code (R50) nor a legal control word (R52, R55). -/
  | illegalControlWord (b : Byte)
  /-- Five bytes whose opcode is 3 to 255: reserved (R51, R55). -/
  | reservedOpcode (op : Byte)
  deriving DecidableEq, Repr

/-- The little-endian word of two bytes, `b0` at the lower offset (R35). -/
def half (b0 b1 : Byte) : Half := b1 ++ b0

/-- The little-endian word of four bytes, `b0` at the lowest offset (R35). -/
def word (b0 b1 b2 b3 : Byte) : Word := b3 ++ b2 ++ b1 ++ b0

/-- Byte `k` of a word, byte 0 the least significant (R34). -/
def byteOf {w : Nat} (x : BitVec w) (k : Nat) : Byte := x.extractLsb' (8 * k) 8

/-- The bytes of a 16-bit word, least significant first (R35). -/
def halfBytes (x : Half) : List Byte := [byteOf x 0, byteOf x 1]

/-- The bytes of a 32-bit word, least significant first (R35). -/
def wordBytes (x : Word) : List Byte := [byteOf x 0, byteOf x 1, byteOf x 2, byteOf x 3]

/-- One bit as a one-bit word. -/
def bitWord (b : Bool) : BitVec 1 := BitVec.ofBool b

/-- The code a control word holds: `{w[1], w[0], w[4], w[3], w[6], w[2]}`, code bit 5 first (40_psq.md R72). -/
def codeOfWord (w : Byte) : BitVec 6 :=
  bitWord (w.getLsbD 1) ++ bitWord (w.getLsbD 0) ++ bitWord (w.getLsbD 4) ++ bitWord (w.getLsbD 3)
    ++ bitWord (w.getLsbD 6) ++ bitWord (w.getLsbD 2)

/-- The control word of a code, bit 7 first: `0 c[1] 1 c[3] c[2] c[0] c[5] c[4]` (R52). -/
def wordOfCode (c : BitVec 6) : Byte :=
  bitWord false ++ bitWord (c.getLsbD 1) ++ bitWord true ++ bitWord (c.getLsbD 3) ++ bitWord (c.getLsbD 2)
    ++ bitWord (c.getLsbD 0) ++ bitWord (c.getLsbD 5) ++ bitWord (c.getLsbD 4)

/-- A single byte: 0 to 3 is a request code on `req_op` (R50; log 7), a byte with bit 5 = 1 and bit 7 = 0 a control
word (R52). -/
def decodeByte (b : Byte) : Except DecodeError Instr :=
  if b = 0 then .ok .qmap
  else if b = 1 then .ok .encode
  else if b = 2 then .ok .decode
  else if b = 3 then .ok .reqReserved
  else if legalControlWord b then .ok (.psw (codeOfWord b))
  else .error (.illegalControlWord b)

/-- A command frame (R49, R51). The control-word fields may hold any byte: `ENCODE` copies them unchecked (R78). -/
def decodeCommand (op ps1 ps2 ps3 ps4 : Byte) : Except DecodeError Instr :=
  if op = Config.opNop then .ok (.cmdNop ps1 ps2 ps3 ps4)
  else if op = Config.opBlink then .ok (.cmdBlink ps1 ps2 ps3 ps4)
  else if op = Config.opSetps then .ok (.cmdSetps ps1 ps2 ps3 ps4)
  else .error (.reservedOpcode op)

/-- The byte of a frame at an offset. -/
def byteAt (f : List Byte) (k : Nat) : Byte := f.getD k 0

/-- The 16-bit field of a frame at an offset, little-endian (R35). -/
def halfAt (f : List Byte) (k : Nat) : Half := half (byteAt f k) (byteAt f (k + 1))

/-- The 32-bit field of a frame at an offset, little-endian (R35). -/
def wordAt (f : List Byte) (k : Nat) : Word := word (byteAt f k) (byteAt f (k + 1)) (byteAt f (k + 2)) (byteAt f (k + 3))

/-- A telemetry frame (R48): the five fields in declared order, and the pad where `TLM_PAD` puts it. -/
def decodeTlm (f : List Byte) : Instr :=
  .tlm (wordAt f (Config.tlmOffset 0)) (wordAt f (Config.tlmOffset 4)) (halfAt f (Config.tlmOffset 8))
    (halfAt f (Config.tlmOffset 10)) (halfAt f (Config.tlmOffset 12)) (halfAt f Config.tlmPad)

/-- Decode an encoded item from its bytes, the byte of bits 7:0 first. -/
def decodeItem : List Byte → Except DecodeError Instr
  | [b] => decodeByte b
  | [op, ps1, ps2, ps3, ps4] => decodeCommand op ps1 ps2 ps3 ps4
  | bs => if bs.length = Config.tlmFrameLen then .ok (decodeTlm bs) else .error (.badLength bs.length)

/-- The five fields of a telemetry frame in declared order, without the pad (R48). -/
def tlmFields (lat lon : Word) (mx my mz : Half) : List Byte :=
  wordBytes lat ++ wordBytes lon ++ halfBytes mx ++ halfBytes my ++ halfBytes mz

/-- The fields with the pad at `TLM_PAD` (R10, R48). -/
def insertPad (pad : Half) (fields : List Byte) : List Byte :=
  fields.take Config.tlmPad ++ halfBytes pad ++ fields.drop Config.tlmPad

/-- The bytes of an encoded item (R48, R49, R50, R52). -/
def encodeItem : Instr → List Byte
  | .qmap => [0]
  | .encode => [1]
  | .decode => [2]
  | .reqReserved => [3]
  | .cmdNop ps1 ps2 ps3 ps4 => [Config.opNop, ps1, ps2, ps3, ps4]
  | .cmdBlink ps1 ps2 ps3 ps4 => [Config.opBlink, ps1, ps2, ps3, ps4]
  | .cmdSetps ps1 ps2 ps3 ps4 => [Config.opSetps, ps1, ps2, ps3, ps4]
  | .tlm lat lon mx my mz pad => insertPad pad (tlmFields lat lon mx my mz)
  | .psw code => [wordOfCode code]

/-- The `n` bytes of the number `w`, least significant first: how the opcode table numbers an item's bits (R48, R49). -/
def bytesOfNat : Nat → Nat → List Byte
  | 0, _ => []
  | n + 1, w => BitVec.ofNat 8 w :: bytesOfNat n (w / 256)

/-- The bytes of a table word of `nbits` bits, rounded up to whole bytes. -/
def tableBytes (nbits w : Nat) : List Byte := bytesOfNat ((nbits + 7) / 8) w

/-- The item this decoder reads from a word numbered as spec/opcode_table.json numbers it. -/
def decodeTableWord (nbits w : Nat) : Option Instr := (decodeItem (tableBytes nbits w)).toOption

end Sys2Proof
end

