-- ==== Sys2Proof/Machine/State.lean ====
section
/-! DEFINITION. The state of the machine as plain data: the block (10_state.md R19, R21), the host around it
(44_host_link_worker.md R108), the radio at its interface (R113), and what is still to happen. -/

namespace Sys2Proof.Machine

/-- The fourteen registers of R21, in their numbering. -/
inductive Reg where
  | psqDeg | psqOut | cmdOpcode | cmdPs1 | cmdPs2 | cmdPs3 | cmdPs4 | rxLen
  | tlmLat | tlmLon | tlmMx | tlmMy | tlmMz | status
  deriving DecidableEq, Repr

/-- A value on the register access ports, at its register's width (R18, R21). -/
inductive RegValue where
  | degree (d : DegWord)
  | byte (b : Byte)
  | half (h : Half)
  | word (w : Word)
  deriving DecidableEq, Repr

/-- The block (R19): fourteen registers and two frame buffers. `none` is the spec's own `None`, "the register holds no
value" (R21, R30; log 1). A buffer lists the bytes that hold a value, by rising offset. -/
structure Block where
  psqDeg : Option DegWord
  psqOut : Option Byte
  cmdOpcode : Option Byte
  cmdPs1 : Option Byte
  cmdPs2 : Option Byte
  cmdPs3 : Option Byte
  cmdPs4 : Option Byte
  rxLen : Option Byte
  tlmLat : Option Word
  tlmLon : Option Word
  tlmMx : Option Half
  tlmMy : Option Half
  tlmMz : Option Half
  status : Byte
  rxbuf : List Host.Cell
  txbuf : List Host.Cell
  deriving DecidableEq, Repr

/-- The block after reset: the last column of R21's table, row by row, which gives `None` for registers 0 to 12 and 0x00
for `STATUS`; R30, R135 and R136 say the same, and `None` for every buffer byte (log 1). -/
def Block.reset : Block where
  psqDeg := none
  psqOut := none
  cmdOpcode := none
  cmdPs1 := none
  cmdPs2 := none
  cmdPs3 := none
  cmdPs4 := none
  rxLen := none
  tlmLat := none
  tlmLon := none
  tlmMx := none
  tlmMy := none
  tlmMz := none
  status := 0
  rxbuf := []
  txbuf := []

/-- The mode selector: two recognised values and everything else (R91, R96; D25). -/
inductive Mode where
  | direct
  | beam
  | other
  deriving DecidableEq, Repr

/-- The radio's `signal_strength`: an opaque token, its format is not in the source (R113, N24). -/
structure Signal where
  token : Nat
  deriving DecidableEq, Repr

/-- What the worker publishes after a good frame (R106, R108), one display scalar each. -/
inductive TlmShown where
  | lat | lon | mx | my | mz | signal | count
  deriving DecidableEq, Repr

/-- The scalars the Link Worker writes and the UI reads (R42, R108): the published display values and the shared error
message. -/
inductive Shown where
  | tlm (f : TlmShown)
  | calculated (ch : Channel)
  | errorMessage
  deriving DecidableEq, Repr

/-- One write of the Link Worker to one of these scalars, whole (R42). -/
inductive ShownWrite where
  | lat (w : Word)
  | lon (w : Word)
  | mx (h : Half)
  | my (h : Half)
  | mz (h : Half)
  | signal (v : Signal)
  | count (n : Nat)
  | calculated (ch : Channel) (d : DegWord)
  | errorMessage (t : Text)
  deriving DecidableEq, Repr

/-- Values of the scalars the Link Worker writes and the UI reads (R108); `none` is nothing published yet (R136). -/
structure Display where
  lat : Option Word
  lon : Option Word
  mx : Option Half
  my : Option Half
  mz : Option Half
  signal : Option Signal
  count : Option Nat
  /-- The four calculated degree values (R95). -/
  calculated : Quad (Option DegWord)
  /-- The shared error message, empty meaning no error (R100). -/
  errorMessage : Text
  deriving DecidableEq, Repr

/-- Nothing published and no error (R136). -/
def Display.reset : Display where
  lat := none
  lon := none
  mx := none
  my := none
  mz := none
  signal := none
  count := none
  calculated := ⟨none, none, none, none⟩
  errorMessage := []

/-- Where the Link Worker stands: the states of R104, each refined to moves of at most one write,
request or transmit with the reads it uses, and at most one access to a scalar shared with the UI (log 5). -/
inductive Worker where
  /-- `Idle` (R104). -/
  | idle
  /-- `Polling`: about to call `poll_receive` (R105). -/
  | polling
  /-- `TelemetryReceived`: a frame was polled; about to copy it (R106). -/
  | telemetryReceived (frame : List Byte)
  /-- The frame is copied; about to issue `DECODE` (R106). -/
  | decoding
  /-- `DECODE` is done; about to read `STATUS` (R106). -/
  | checkingDecode
  /-- The frame was good; about to raise the receive counter (R106). -/
  | countingFrame
  /-- About to publish one display scalar (R106). -/
  | publishing (f : TlmShown)
  /-- `NoData`: nothing was polled (R105). -/
  | noData
  /-- `CheckSendRequest`: about to read the flag (R107). -/
  | checkSendRequest
  /-- The flag was read as set; about to write it clear (R107, R141). -/
  | clearingFlag
  /-- The assembler is about to read the opcode string (R93). -/
  | readingOpcode
  /-- The assembler is about to read the mode selector (R96). -/
  | readingMode (op : Byte)
  /-- Mode `DIRECT`: about to read the degree string of a channel (R94). -/
  | readingPs (op : Byte) (ch : Channel) (got : Quad (Option Rat))
  /-- Mode `BEAM`: about to read the angle string (R95). -/
  | readingAngle (op : Byte)
  /-- The angle was read; about to publish the calculated value of a channel (R95). -/
  | publishingDegree (op : Byte) (ch : Channel) (degs : Quad DegWord)
  /-- Step 2: about to check the range of the four effective values (R97). -/
  | checkingRange (op : Byte) (degs : Quad (Option Rat))
  /-- The assembly failed; about to write the error message (R100). -/
  | reporting (e : ErrorKind)
  /-- About to write `PSQ_DEG` for a channel (R98). -/
  | writingDegree (op : Byte) (ch : Channel) (degs : Quad Rat)
  /-- About to issue `QMAP` for a channel (R98). -/
  | quantizing (op : Byte) (ch : Channel) (degs : Quad Rat)
  /-- About to move `PSQ_OUT` to the channel's operand register (R98). -/
  | movingWord (op : Byte) (ch : Channel) (degs : Quad Rat)
  /-- About to write `CMD_OPCODE` (R98). -/
  | writingOpcode (op : Byte)
  /-- About to clear the shared error message (R98). -/
  | clearingMessage
  /-- About to issue `ENCODE` (R107). -/
  | encoding
  /-- About to read TXBUF and transmit (R107). -/
  | transmitting
  deriving DecidableEq, Repr

/-- The host: Link Worker and UI, and the scalars they share (R108). -/
structure Console where
  worker : Worker
  pendingSend : Bool
  rxCount : Nat
  opcodeStr : Text
  mode : Mode
  psStr : Quad Text
  angleStr : Text
  /-- What the Link Worker last wrote to each scalar the UI reads (R108). -/
  display : Display
  /-- What the UI sees of them (R42). -/
  screen : Display
  /-- The writes the UI does not see yet, oldest first (R42; log 28). -/
  unseen : List ShownWrite
  /-- How many malformed frames were logged (R106, R133; log 10). -/
  malformedLog : Nat
  /-- What the last `RD` line returned (R18, R57; log 9). -/
  readData : Option RegValue
  /-- MODEL'S OWN: how many free error texts were drawn (log 8). No statement rests on its value. -/
  freeCount : Nat
  deriving DecidableEq, Repr

/-- The host at the start of the Link Worker (R136). The input strings are "whatever the UI holds": empty and neither
mode here, DESIGN CHOICE (log 11). -/
def Console.reset : Console where
  worker := .idle
  pendingSend := false
  rxCount := 0
  opcodeStr := []
  mode := .other
  psStr := ⟨[], [], [], []⟩
  angleStr := []
  display := Display.reset
  screen := Display.reset
  unseen := []
  malformedLog := 0
  readData := none
  freeCount := 0

/-- One call of `transmit(bytes, destination_id)` (R113). -/
structure Transmission where
  bytes : List Byte
  destination : Nat
  deriving DecidableEq, Repr

/-- The radio at its interface (R113): the signal strength it reads and the transmit calls so far, oldest first. -/
structure Radio where
  signal : Signal
  sent : List Transmission
  deriving DecidableEq, Repr

/-- One string of the UI rewritten (R91, R115, R142). -/
inductive UiEdit where
  | opcode (t : Text)
  | mode (m : Mode)
  | ps (ch : Channel) (t : Text)
  | angle (t : Text)
  deriving DecidableEq, Repr

/-- Something that happens next: a line of R57 at the block's ports, a UI event, a radio reading, or the Link Worker's
next move (log 4). -/
inductive Input where
  /-- An encoded item of the opcode table is presented: a request code at `req_op`, or a frame or control word (R50, R58). -/
  | item (bytes : List Byte)
  /-- `WR <reg>, <value>` (R28, R57). -/
  | hostWrite (r : Reg) (v : RegValue)
  /-- The host writes one byte of RXBUF (R18, R28). -/
  | hostWriteRx (offset : Nat) (b : Byte)
  /-- `RXFRAME <hex bytes>` (R57). -/
  | rxFrame (bytes : List Byte)
  /-- `RD <reg>` (R29, R57). -/
  | hostRead (r : Reg)
  /-- The host reads one byte of TXBUF (R18, R29). -/
  | hostReadTx (offset : Nat)
  /-- `RESET` (R57, R135). -/
  | reset
  /-- The UI's send trigger (R109, R115). -/
  | uiSend
  /-- The UI rewrites one input string (R115). -/
  | uiEdit (e : UiEdit)
  /-- The oldest write to a scalar that the UI does not see yet becomes visible to it (R42). -/
  | uiSees (k : Shown)
  /-- The radio's `signal_strength` reads a new value (R113). -/
  | radioSignal (v : Signal)
  /-- The Link Worker makes its next move; `polled` is what `poll_receive` returns if that move polls (R105). -/
  | worker (polled : Option (List Byte))
  deriving DecidableEq, Repr

structure State where
  /-- The block, 10_state.md R19. -/
  block : Block
  /-- The host around it, R108. -/
  console : Console
  /-- The radio at its interface, R113. -/
  radio : Radio
  /-- MODEL'S OWN: what is still to happen, soonest first (log 4). -/
  inputs : List Input
  deriving DecidableEq, Repr

/-- The machine right after reset (R30, R135, R136), with nothing to happen yet. The signal token is DESIGN CHOICE
(log 10). -/
def State.reset : State where
  block := Block.reset
  console := Console.reset
  radio := { signal := ⟨0⟩, sent := [] }
  inputs := []

/-- Stops at an access to an offset that does not exist (R26, R32). Safe: the machine stops. -/
inductive Fault where
  /-- Raised by a host write to RXBUF at or above `RX_MAX` (R32). Safe. -/
  | rxOffsetOutside (offset : Nat)
  /-- Raised by a host read of TXBUF above offset 4 (R32). Safe. -/
  | txOffsetOutside (offset : Nat)
  deriving DecidableEq, Repr

/-- The spec's third outcome `refused` (R15), by name: "the spec gives it no meaning and a model must give it no next
state". Every one is safe: the machine stops. -/
inductive Refusal where
  /-- Raised by an arm of `exec` that has no meaning yet. Safe. -/
  | notModelled (mnemonic : String)
  /-- Raised by a request or host read whose register holds no value: R21, "reading it, or issuing a request that reads
  it, before something has written it is `refused`" (R15, R29, R68, R77, R86, R137; D7, U15). Safe. -/
  | holdsNoValue (r : Reg)
  /-- Raised by `QMAP` when `deg_value(PSQ_DEG)` is no value (R60, R68). Safe. -/
  | degreeNotANumber
  /-- Raised by `QMAP` when the degree is below 0 or above 353 (R68, R139). Safe. -/
  | degreeOutOfDomain
  /-- Raised by `DECODE` or `RXFRAME` when the length is above `RX_MAX` (R32, R86). Safe. -/
  | rxLenAboveMax
  /-- Raised by `DECODE` when a byte of the frame holds no value (R33, R86). Safe. -/
  | rxByteHoldsNoValue (offset : Nat)
  /-- Raised by a host write to a register not marked "host W" (R28). Safe. -/
  | notHostWritable (r : Reg)
  /-- Raised by a host write of a value that is not the register's width (R18, "Widths are exact"). Safe. -/
  | widthMismatch (r : Reg)
  /-- Raised by a host read of a result register whose VALID bit is 0 (R29). Safe. -/
  | resultNotValid (r : Reg)
  /-- Raised by a host read of TXBUF while `TX_VALID` is 0 (R29). Safe. -/
  | txNotValid
  /-- Raised by a host read of a TXBUF byte that holds no value; no run reaches it with `TX_VALID` set. Safe. -/
  | txByteHoldsNoValue (offset : Nat)
  /-- Raised by `step` on bytes that are no encoded item (R51, R55). Safe. -/
  | notAnItem (e : DecodeError)
  /-- Raised by the Command Assembler on a beam angle that does not parse (R95, D28). Safe. -/
  | beamAngleNotAnInteger
  deriving DecidableEq, Repr

/-- What a line, a request or a move answers. -/
abbrev Result := Host.Outcome State Fault Refusal

end Sys2Proof.Machine
end

