-- ==== Sys2Proof/Machine/Flags.lean ====
section
/-! DEFINITION. The fields of `STATUS`, the block's only flags (10_state.md R22, R23), and the cause codes (R118). -/

namespace Sys2Proof.Machine

/-- Bit number of `PSQ_VALID` (R22). -/
def psqValidBit : Nat := 0

/-- Bit number of `TX_VALID` (R22). -/
def txValidBit : Nat := 1

/-- Bit number of `TLM_VALID` (R22). -/
def tlmValidBit : Nat := 2

/-- Bit number of `ILL_REQ` (R22). -/
def illReqBit : Nat := 3

/-- `STATUS.PSQ_VALID`. -/
def psqValid (st : Byte) : Bool := st.getLsbD psqValidBit

/-- `STATUS.TX_VALID`. -/
def txValid (st : Byte) : Bool := st.getLsbD txValidBit

/-- `STATUS.TLM_VALID`. -/
def tlmValid (st : Byte) : Bool := st.getLsbD tlmValidBit

/-- `STATUS.ILL_REQ`. -/
def illReq (st : Byte) : Bool := st.getLsbD illReqBit

/-- `STATUS.LAST_ERR`, bits 6:4. -/
def lastErr (st : Byte) : BitVec 3 := st.extractLsb' 4 3

/-- `STATUS` with one flag bit set; every other bit as before. -/
def setFlag (n : Nat) (st : Byte) : Byte := st ||| (1#8 <<< n)

/-- `STATUS` with `LAST_ERR` overwritten; every other bit as before. -/
def setLastErr (code : BitVec 3) (st : Byte) : Byte :=
  st.extractLsb' 7 1 ++ code ++ st.extractLsb' 0 4

/-- The cause codes of R118. -/
def causeCode : ErrorKind → BitVec 3
  | .malformedFrame => 1
  | .invalidOpcode => 2
  | .invalidPhaseShifterRange => 3
  | .unsupportedMode => 4
  | .illegalRequest => 5

/-- `LAST_ERR` of a request that ends `done` (R118). -/
def noError : BitVec 3 := 0

/-- `STATUS` after a request that ends `done` and validates one result: its VALID bit is 1 and `LAST_ERR` is 0 (R22). -/
def statusDone (validBit : Nat) (st : Byte) : Byte := setLastErr noError (setFlag validBit st)

/-- `STATUS` after a block error: `LAST_ERR` is the cause code, and `ILL_REQ` is 1 when the error is `IllegalRequest`
(R118 to R120). -/
def statusError (e : ErrorKind) (st : Byte) : Byte :=
  match e with
  | .malformedFrame => setLastErr (causeCode .malformedFrame) st
  | .illegalRequest => setLastErr (causeCode .illegalRequest) (setFlag illReqBit st)
  | .invalidOpcode => st
  | .invalidPhaseShifterRange => st
  | .unsupportedMode => st

end Sys2Proof.Machine
end

