-- ==== Sys2Proof/Machine/Ops.lean ====
section
/-! DEFINITION. The named operations: the frame buffers (20_memory.md), sequencing of lines, state updates, and
raising an error (60_exceptions.md R117 to R126). -/

namespace Sys2Proof.Machine

/-! ### The frame buffers -/

/-- The byte a buffer holds at an offset; `none` is "holds no value" (R33). -/
def memRead : List Host.Cell → Nat → Option Byte
  | [], _ => none
  | (x, b) :: rest, a => if x = a then some b else memRead rest a

/-- Write one byte, keeping the cells by rising offset (R34). -/
def memWrite : List Host.Cell → Nat → Byte → List Host.Cell
  | [], a, v => [(a, v)]
  | (x, b) :: rest, a, v =>
    if a < x then (a, v) :: (x, b) :: rest
    else if a = x then (a, v) :: rest
    else (x, b) :: memWrite rest a v

/-- The canonical form of a buffer: offsets strictly rising. Unlisted bytes hold no value, so every listed byte differs
from what an unlisted one reads as. -/
abbrev MemWf (m : List Host.Cell) : Prop := m.Pairwise (fun x y => x.1 < y.1)

/-- Write bytes at consecutive offsets from `a`, the first byte at `a`. -/
def memWriteBytes (m : List Host.Cell) (a : Nat) : List Byte → List Host.Cell
  | [] => m
  | b :: bs => memWriteBytes (memWrite m a b) (a + 1) bs

/-- `MemRead(a, n)` as a number: little-endian, no value if any byte holds none (R33, R35). -/
def memReadLE (m : List Host.Cell) (a : Nat) : Nat → Option Nat
  | 0 => some 0
  | n + 1 =>
    match memRead m a, memReadLE m (a + 1) n with
    | some b, some r => some (b.toNat + 256 * r)
    | _, _ => none

/-- `MemRead(a, 4)` (R33). -/
def memReadWord (m : List Host.Cell) (a : Nat) : Option Word := (memReadLE m a 4).map (BitVec.ofNat 32)

/-- `MemRead(a, 2)` (R33). -/
def memReadHalf (m : List Host.Cell) (a : Nat) : Option Half := (memReadLE m a 2).map (BitVec.ofNat 16)

/-- `MemWrite(a, n, v)`, least significant byte at the lowest offset (R34). -/
def memWriteLE (m : List Host.Cell) (a : Nat) : Nat → Nat → List Host.Cell
  | 0, _ => m
  | n + 1, v => memWriteLE (memWrite m a (BitVec.ofNat 8 v)) (a + 1) n (v / 256)

/-- The first of the `n` offsets from `a` whose byte holds no value. -/
def firstMissing (m : List Host.Cell) (a : Nat) : Nat → Option Nat
  | 0 => none
  | n + 1 =>
    match memRead m a with
    | none => some a
    | some _ => firstMissing m (a + 1) n

/-- The `n` bytes from `a`, if all hold a value. -/
def memReadBytes (m : List Host.Cell) (a : Nat) : Nat → Option (List Byte)
  | 0 => some []
  | n + 1 =>
    match memRead m a, memReadBytes m (a + 1) n with
    | some b, some bs => some (b :: bs)
    | _, _ => none

/-! ### Sequencing -/

/-- Do one line, then the next from the state it leaves. -/
def andThen (r : Result) (k : State → Result) : Result :=
  match r with
  | .next s => k s
  | .fault f => .fault f
  | .refused e => .refused e

/-- Use the value of a register, refused if it holds none: the spec's third outcome (R15, R21; D7). -/
def needs {α : Type} (r : Reg) (v : Option α) (k : α → Result) : Result :=
  match v with
  | some x => k x
  | none => .refused (.holdsNoValue r)

/-! ### State updates -/

/-- `s` with another block. -/
def setBlock (b : Block) (s : State) : State := { s with block := b }

/-- `s` with another host. -/
def setConsole (c : Console) (s : State) : State := { s with console := c }

/-- `s` with the Link Worker at another place. -/
def goto (w : Worker) (s : State) : State := { s with console := { s.console with worker := w } }

/-- `s` with the value an `RD` line returned (log 9). -/
def setReadData (v : RegValue) (s : State) : State := { s with console := { s.console with readData := some v } }

/-- Reset of the block (R135): one atomic step; the host's state is untouched. -/
def resetBlock (s : State) : State := setBlock Block.reset s

/-! ### The scalars the Link Worker writes and the UI reads -/

/-- The scalar a write goes to. -/
def ShownWrite.scalar : ShownWrite → Shown
  | .lat _ => .tlm .lat
  | .lon _ => .tlm .lon
  | .mx _ => .tlm .mx
  | .my _ => .tlm .my
  | .mz _ => .tlm .mz
  | .signal _ => .tlm .signal
  | .count _ => .tlm .count
  | .calculated ch _ => .calculated ch
  | .errorMessage _ => .errorMessage

/-- The values after one write, whole (R42). -/
def putShown (d : Display) : ShownWrite → Display
  | .lat w => { d with lat := some w }
  | .lon w => { d with lon := some w }
  | .mx h => { d with mx := some h }
  | .my h => { d with my := some h }
  | .mz h => { d with mz := some h }
  | .signal v => { d with signal := some v }
  | .count n => { d with count := some n }
  | .calculated ch x => { d with calculated := d.calculated.set ch (some x) }
  | .errorMessage t => { d with errorMessage := t }

/-- The Link Worker writes one scalar: the UI does not see it yet (R42). -/
def showWrite (w : ShownWrite) (c : Console) : Console :=
  { c with display := putShown c.display w, unseen := c.unseen ++ [w] }

/-- The oldest of the writes to one scalar, and the writes without it. -/
def takeWrite (k : Shown) : List ShownWrite → Option (ShownWrite × List ShownWrite)
  | [] => none
  | w :: ws => if w.scalar = k then some (w, ws) else (takeWrite k ws).map fun r => (r.1, w :: r.2)

/-- The oldest write to one scalar becomes visible to the UI, whatever is pending for other scalars (R42). -/
def deliver (k : Shown) (c : Console) : Console :=
  match takeWrite k c.unseen with
  | some (w, ws) => { c with screen := putShown c.screen w, unseen := ws }
  | none => c

/-! ### Raising an error -/

/-- Raising a block error (R119, R120, R125): it writes `STATUS` and nothing else. There is no return operation: the
next request proceeds normally and overwrites `LAST_ERR` (R126). -/
def raiseError (e : ErrorKind) (s : State) : State :=
  setBlock { s.block with status := statusError e s.block.status } s

/-- The free text of an error message, never empty (R100, U17; log 8). -/
def errorText (e : ErrorKind) (n : Nat) : Text := Config.messageHead e n :: Config.messageTail e n

/-- Raising a validation error of the Command Assembler (R100, R121): the assembly ends, and the shared message is
written next; `UnsupportedMode` writes nothing (R122) and the worker is `Idle` again (R107). -/
def raiseValidation (e : ErrorKind) (s : State) : State :=
  match e with
  | .unsupportedMode => goto .idle s
  | .malformedFrame | .invalidOpcode | .invalidPhaseShifterRange | .illegalRequest => goto (.reporting e) s

/-- The shared message is overwritten with a non-empty text (R100, R121), nothing is sent, and the worker is `Idle` again
(R107). -/
def reportError (e : ErrorKind) (s : State) : State :=
  setConsole { showWrite (.errorMessage (errorText e s.console.freeCount)) s.console with
    worker := .idle
    freeCount := s.console.freeCount + 1 } s

end Sys2Proof.Machine
end

