-- ==== Sys2Proof/Machine/Operands.lean ====
section
/-! DEFINITION. Operand forms: the degree operand of PSQ (40_psq.md R60), the host's strings (43 R93, R101), and the
value of each register as the ports show it (10_state.md R21). -/

namespace Sys2Proof.Machine

/-- `deg_value` (R60): the exact rational a degree word denotes, no value for an encoding of no finite number; a
negative zero denotes 0. -/
def degValue : DegWord → Option Rat
  | .finite q => some q
  | .negZero => some 0
  | .posInf => none
  | .negInf => none
  | .nan => none

/-- `0 <= d and d <= MAX_PS_DEG_VAL` (R60, R97), on the numerator and the positive denominator of `d`. -/
def inDegDomain (d : Rat) : Bool := decide (0 ≤ d.num) && decide (d.num ≤ Config.maxPsDegVal * d.den)

/-- Whether a degree word denotes a number in a range `[low, high)`. -/
def inRange (r : DegRange) (w : DegWord) : Bool :=
  match degValue w with
  | some q => decide (r.low ≤ q) && decide (q < r.high)
  | none => false

/-- `wrap_phase` (R114): for a number, any word that denotes a number in `WRAP_RANGE`; free on a word that denotes none
(log 13). -/
def wrapPhase (w : DegWord) : DegWord :=
  match degValue w with
  | some _ => if inRange Config.wrapRange (Config.wrapFree w) then Config.wrapFree w else .finite Config.wrapRange.low
  | none => Config.wrapFree w

/-- The register as a number of R21. -/
def regNumber : Reg → Nat
  | .psqDeg => 0
  | .psqOut => 1
  | .cmdOpcode => 2
  | .cmdPs1 => 3
  | .cmdPs2 => 4
  | .cmdPs3 => 5
  | .cmdPs4 => 6
  | .rxLen => 7
  | .tlmLat => 8
  | .tlmLon => 9
  | .tlmMx => 10
  | .tlmMy => 11
  | .tlmMz => 12
  | .status => 13

/-- What a register holds, at its width (R21). -/
def regValue (b : Block) : Reg → Option RegValue
  | .psqDeg => b.psqDeg.map .degree
  | .psqOut => b.psqOut.map .byte
  | .cmdOpcode => b.cmdOpcode.map .byte
  | .cmdPs1 => b.cmdPs1.map .byte
  | .cmdPs2 => b.cmdPs2.map .byte
  | .cmdPs3 => b.cmdPs3.map .byte
  | .cmdPs4 => b.cmdPs4.map .byte
  | .rxLen => b.rxLen.map .byte
  | .tlmLat => b.tlmLat.map .word
  | .tlmLon => b.tlmLon.map .word
  | .tlmMx => b.tlmMx.map .half
  | .tlmMy => b.tlmMy.map .half
  | .tlmMz => b.tlmMz.map .half
  | .status => some (.byte b.status)

/-- Whether the host may read a register's result: a result register needs its VALID bit (R29); the others have none. -/
def readable (st : Byte) : Reg → Bool
  | .psqOut => psqValid st
  | .tlmLat | .tlmLon | .tlmMx | .tlmMy | .tlmMz => tlmValid st
  | .psqDeg | .cmdOpcode | .cmdPs1 | .cmdPs2 | .cmdPs3 | .cmdPs4 | .rxLen | .status => true

/-- The operand register of a channel's control word (R49, R98). -/
def psReg : Channel → Reg
  | .c1 => .cmdPs1
  | .c2 => .cmdPs2
  | .c3 => .cmdPs3
  | .c4 => .cmdPs4

/-! ### The host's parsers -/

/-- A decimal digit. -/
def isDecimalDigit (c : Char) : Bool := decide (48 ≤ c.toNat) && decide (c.toNat ≤ 57)

/-- A string of decimal digits, not empty (R101; the empty string is left open). -/
def isDigits (t : Text) : Bool := !t.isEmpty && t.all isDecimalDigit

/-- The number a string of decimal digits spells. -/
def digitsValue (t : Text) : Nat := t.foldl (fun n c => 10 * n + (c.toNat - 48)) 0

/-- The string R101 pins as not parsing. -/
def abcText : Text := ['a', 'b', 'c']

/-- `parse_int` (R101): pinned on strings of decimal digits and on "abc", free elsewhere (log 12). -/
def parseInt (t : Text) : Option Int :=
  if isDigits t then some (digitsValue t)
  else if t = abcText then none
  else Config.otherInt t

/-- `parse_number` (R101): pinned on strings of decimal digits and on "abc", free elsewhere (log 12). -/
def parseNumber (t : Text) : Option Rat :=
  if isDigits t then some ((digitsValue t : Int) : Rat)
  else if t = abcText then none
  else Config.otherNumber t

/-- The opcode byte of a parsed opcode, none unless it is 0, 1 or 2 (R93). -/
def opcodeOf : Option Int → Option Byte
  | some n => if 0 ≤ n ∧ n ≤ 2 then some (BitVec.ofInt 8 n) else none
  | none => none

/-- The four values, if every one is present and in [0, 353] (R97). -/
def allInRange (d : Quad (Option Rat)) : Option (Quad Rat) :=
  match d.c1, d.c2, d.c3, d.c4 with
  | some d1, some d2, some d3, some d4 =>
    if inDegDomain d1 && inDegDomain d2 && inDegDomain d3 && inDegDomain d4 then some ⟨d1, d2, d3, d4⟩ else none
  | _, _, _, _ => none

end Sys2Proof.Machine
end

