-- ==== Sys2Proof/Machine/Cenc.lean ====
section
/-! DEFINITION. Unit CENC: the command encoder (41_cenc.md). -/

namespace Sys2Proof.Machine

/-- `encode_command` (R76): five bytes, each field copied unchanged. -/
def encodeCommand (op ps1 ps2 ps3 ps4 : Byte) : List Byte := [op, ps1, ps2, ps3, ps4]

/-- The writes of an `ENCODE` (R77): five one-byte `MemWrite`s from offset 0, one atomic step (R38). -/
def cencDone (op ps1 ps2 ps3 ps4 : Byte) (s : State) : State :=
  setBlock { s.block with
    txbuf := memWriteBytes s.block.txbuf 0 (encodeCommand op ps1 ps2 ps3 ps4)
    status := statusDone txValidBit s.block.status } s

/-- `ENCODE` (R77); the operands are copied without a check (R78). -/
def execEncode (s : State) : Result :=
  needs .cmdOpcode s.block.cmdOpcode fun op =>
  needs .cmdPs1 s.block.cmdPs1 fun ps1 =>
  needs .cmdPs2 s.block.cmdPs2 fun ps2 =>
  needs .cmdPs3 s.block.cmdPs3 fun ps3 =>
  needs .cmdPs4 s.block.cmdPs4 fun ps4 =>
    .next (cencDone op ps1 ps2 ps3 ps4 s)

end Sys2Proof.Machine
end

