-- ==== Sys2Proof/Machine/HostPort.lean ====
section
/-! DEFINITION. The block's register and buffer ports: the lines `WR`, `RXFRAME`, `RD` of 30_encoding.md R57 under the
access rules of 10_state.md R28 and R29. -/

namespace Sys2Proof.Machine

/-- `WR <reg>, <value>` (R28): registers 0 and 2 to 7 at their exact width; any other register is refused. -/
def hostWrite (r : Reg) (v : RegValue) (s : State) : Result :=
  match r, v with
  | .psqDeg, .degree d => .next (setBlock { s.block with psqDeg := some d } s)
  | .cmdOpcode, .byte b => .next (setBlock { s.block with cmdOpcode := some b } s)
  | .cmdPs1, .byte b => .next (setBlock { s.block with cmdPs1 := some b } s)
  | .cmdPs2, .byte b => .next (setBlock { s.block with cmdPs2 := some b } s)
  | .cmdPs3, .byte b => .next (setBlock { s.block with cmdPs3 := some b } s)
  | .cmdPs4, .byte b => .next (setBlock { s.block with cmdPs4 := some b } s)
  | .rxLen, .byte b => .next (setBlock { s.block with rxLen := some b } s)
  | .psqDeg, _ => .refused (.widthMismatch .psqDeg)
  | .cmdOpcode, _ => .refused (.widthMismatch .cmdOpcode)
  | .cmdPs1, _ => .refused (.widthMismatch .cmdPs1)
  | .cmdPs2, _ => .refused (.widthMismatch .cmdPs2)
  | .cmdPs3, _ => .refused (.widthMismatch .cmdPs3)
  | .cmdPs4, _ => .refused (.widthMismatch .cmdPs4)
  | .rxLen, _ => .refused (.widthMismatch .rxLen)
  | .psqOut, _ => .refused (.notHostWritable .psqOut)
  | .tlmLat, _ => .refused (.notHostWritable .tlmLat)
  | .tlmLon, _ => .refused (.notHostWritable .tlmLon)
  | .tlmMx, _ => .refused (.notHostWritable .tlmMx)
  | .tlmMy, _ => .refused (.notHostWritable .tlmMy)
  | .tlmMz, _ => .refused (.notHostWritable .tlmMz)
  | .status, _ => .refused (.notHostWritable .status)

/-- The host writes one byte of RXBUF (R18, R28); there is no byte at or above `RX_MAX` (R32). -/
def hostWriteRx (offset : Nat) (b : Byte) (s : State) : Result :=
  if offset < Config.rxMax then .next (setBlock { s.block with rxbuf := memWrite s.block.rxbuf offset b } s)
  else .fault (.rxOffsetOutside offset)

/-- `RXFRAME` (R57): the bytes from offset 0 and their count to `RX_LEN`; a frame longer than `RX_MAX` cannot be
presented (R32). Bytes above the frame keep what they held. -/
def hostRxFrame (bytes : List Byte) (s : State) : Result :=
  if bytes.length ≤ Config.rxMax then
    .next (setBlock { s.block with
      rxbuf := memWriteBytes s.block.rxbuf 0 bytes
      rxLen := some (BitVec.ofNat 8 bytes.length) } s)
  else .refused .rxLenAboveMax

/-- `RD <reg>` (R29, R57): refused for a result register whose VALID bit is 0 and for a register that holds no value
(R21); otherwise the value is returned and the block is as before (R38). -/
def hostRead (r : Reg) (s : State) : Result :=
  if readable s.block.status r then needs r (regValue s.block r) fun v => .next (setReadData v s)
  else .refused (.resultNotValid r)

/-- The host reads one byte of TXBUF (R29); there is no byte above offset 4 (R32). -/
def hostReadTx (offset : Nat) (s : State) : Result :=
  if offset < Config.cmdFrameLen then
    if txValid s.block.status then
      match memRead s.block.txbuf offset with
      | some b => .next (setReadData (.byte b) s)
      | none => .refused (.txByteHoldsNoValue offset)
    else .refused .txNotValid
  else .fault (.txOffsetOutside offset)

/-- The radio takes one `transmit(bytes, REMOTE_ID)` call (R107, R113); whether it succeeds cannot be told (R111). -/
def recordTransmit (bytes : List Byte) (s : State) : State :=
  { s with radio := { s.radio with sent := s.radio.sent ++ [⟨bytes, Config.remoteId⟩] } }

/-- The host reads TXBUF[0..4] and hands the five bytes to the radio with destination `REMOTE_ID` (R58, R107, R113). -/
def transmitFrame (s : State) : Result :=
  if txValid s.block.status then
    match memReadBytes s.block.txbuf 0 Config.cmdFrameLen with
    | some bytes => .next (recordTransmit bytes s)
    | none => .refused (.txByteHoldsNoValue ((firstMissing s.block.txbuf 0 Config.cmdFrameLen).getD 0))
  else .refused .txNotValid

end Sys2Proof.Machine
end

