-- ==== Sys2Proof/Machine/Psq.lean ====
section
/-! DEFINITION. Unit PSQ: the phase-shifter quantizer and remapper (40_psq.md). -/

namespace Sys2Proof.Machine

/-- Which of the integer below and the integer above an exact tie takes (R62). -/
def roundTie (mode : RoundMode) (f : Int) : Int :=
  match mode with
  | .halfEven => if f % 2 = 0 then f else f + 1
  | .halfUp => f + 1

/-- The integer nearest to the exact fraction `n / m`, `m` positive: `f` is its floor and `r / m` the rest (R62). -/
def roundFraction (n : Int) (m : Nat) : Int :=
  let f := n / m
  let r := n % m
  if 2 * r < m then f else if (m : Int) < 2 * r then f + 1 else roundTie Config.roundMode f

/-- The quantized code of a degree: `round_half_even(d * 63 / 353)`, exact (R61, R62). The scaled value is the fraction
`(d.num * 63) / (d.den * 353)`. -/
def quantize (d : Rat) : Int := roundFraction (d.num * Config.maxPsBitVal) (d.den * Config.maxPsDegVal)

/-- The code as six bits (R63). -/
def codeBits (d : Rat) : BitVec 6 := BitVec.ofInt 6 (quantize d)

/-- The bit remap (R64): for each code bit i that is 1, output bit `map[i]` is set; `i` counts from the head of `map`. -/
def remapFrom (code : BitVec 6) : Nat → List Nat → Byte → Byte
  | _, [], m => m
  | i, j :: rest, m => remapFrom code (i + 1) rest (if code.getLsbD i then setFlag j m else m)

/-- The remapped code with the reference bit set (R64, R65). -/
def controlWord (code : BitVec 6) : Byte := setFlag Config.psRefBit (remapFrom code 0 Config.psBitMap 0)

/-- `quantize_and_map` (R59 to R66). -/
def quantizeAndMap (d : Rat) : Byte := controlWord (codeBits d)

/-- The writes of a `QMAP` that ends `done` (R67). -/
def psqDone (d : Rat) (s : State) : State :=
  setBlock { s.block with
    psqOut := some (quantizeAndMap d)
    status := statusDone psqValidBit s.block.status } s

/-- `QMAP` (R67); an operand that holds no value, denotes no number or lies outside [0, 353] is refused (R68). -/
def execQmap (s : State) : Result :=
  needs .psqDeg s.block.psqDeg fun w =>
    match degValue w with
    | none => .refused .degreeNotANumber
    | some d => if inDegDomain d then .next (psqDone d s) else .refused .degreeOutOfDomain

end Sys2Proof.Machine
end

