-- ==== Sys2Proof/Machine/Tdec.lean ====
section
/-! DEFINITION. Unit TDEC: the telemetry decoder (42_tdec.md). -/

namespace Sys2Proof.Machine

/-- The writes of a `DECODE` that ends `done` (R82, R86): the five fields by little-endian `MemRead`, no conversion
(R83, R84), the pad ignored wherever `TLM_PAD` puts it (R10, R85). Asked only when every byte of the frame holds a
value. -/
def tdecDone (s : State) : State :=
  setBlock { s.block with
    tlmLat := memReadWord s.block.rxbuf (Config.tlmOffset 0)
    tlmLon := memReadWord s.block.rxbuf (Config.tlmOffset 4)
    tlmMx := memReadHalf s.block.rxbuf (Config.tlmOffset 8)
    tlmMy := memReadHalf s.block.rxbuf (Config.tlmOffset 10)
    tlmMz := memReadHalf s.block.rxbuf (Config.tlmOffset 12)
    status := statusDone tlmValidBit s.block.status } s

/-- `DECODE` (R86), its tests in the order of R124: operand present, length, bytes present. A wrong length raises
`MalformedFrame` (R87, R119). -/
def execDecode (s : State) : Result :=
  needs .rxLen s.block.rxLen fun len =>
    if Config.rxMax < len.toNat then .refused .rxLenAboveMax
    else if len.toNat ≠ Config.tlmFrameLen then .next (raiseError .malformedFrame s)
    else
      match firstMissing s.block.rxbuf 0 Config.tlmFrameLen with
      | some a => .refused (.rxByteHoldsNoValue a)
      | none => .next (tdecDone s)

end Sys2Proof.Machine
end

