-- ==== Sys2Proof/Machine/Frames.lean ====
section
/-! DEFINITION. The format rows of the opcode table. A frame or control word is no request; its meaning is the part of
a pseudo-operation of 30_encoding.md R58 that moves exactly that item through the block (log 6). -/

namespace Sys2Proof.Machine

/-- The part of `SEND` (R58) after its control words are known: the host writes registers 2 to 6, issues `ENCODE`, and
hands TXBUF[0..4] to the radio with destination `REMOTE_ID`. -/
def sendPacket (op ps1 ps2 ps3 ps4 : Byte) (s : State) : Result :=
  andThen (hostWrite .cmdPs1 (.byte ps1) s) fun s1 =>
  andThen (hostWrite .cmdPs2 (.byte ps2) s1) fun s2 =>
  andThen (hostWrite .cmdPs3 (.byte ps3) s2) fun s3 =>
  andThen (hostWrite .cmdPs4 (.byte ps4) s3) fun s4 =>
  andThen (hostWrite .cmdOpcode (.byte op) s4) fun s5 =>
  andThen (execEncode s5) transmitFrame

/-- `CMD.NOP`: the command frame with opcode 0 is sent (R49, R51, R58; log 6). -/
def execCmdNop (ps1 ps2 ps3 ps4 : Byte) (s : State) : Result := sendPacket Config.opNop ps1 ps2 ps3 ps4 s

/-- `CMD.BLINK`: the command frame with opcode 1 is sent (R49, R51, R58; log 6). -/
def execCmdBlink (ps1 ps2 ps3 ps4 : Byte) (s : State) : Result := sendPacket Config.opBlink ps1 ps2 ps3 ps4 s

/-- `CMD.SETPS`: the command frame with opcode 2 is sent (R49, R51, R58; log 6). -/
def execCmdSetps (ps1 ps2 ps3 ps4 : Byte) (s : State) : Result := sendPacket Config.opSetps ps1 ps2 ps3 ps4 s

/-- `TLM`: `RECV` of the frame (R58): `RXFRAME`, `DECODE`, `RD STATUS` (log 6). -/
def execTlm (lat lon : Word) (mx my mz pad : Half) (s : State) : Result :=
  andThen (hostRxFrame (encodeItem (.tlm lat lon mx my mz pad)) s) fun s1 =>
  andThen (execDecode s1) (hostRead .status)

/-- The degree that scales to the code exactly: `d * 63 / 353 = code` (R61; log 6). -/
def degreeOfCode (code : BitVec 6) : Rat := mkRat (Config.maxPsDegVal * code.toNat) Config.maxPsBitVal

/-- `PSW`: the head of `QMAP.n` (R58) for the degree of that code: `WR PSQ_DEG`, `QMAP`, `RD PSQ_OUT` (log 6). -/
def execPsw (code : BitVec 6) (s : State) : Result :=
  andThen (hostWrite .psqDeg (.degree (.finite (degreeOfCode code))) s) fun s1 =>
  andThen (execQmap s1) (hostRead .psqOut)

end Sys2Proof.Machine
end

