-- ==== Sys2Proof/Machine/Reserved.lean ====
section
/-! DEFINITION. The reserved request code 0b11 (30_encoding.md R55, 60_exceptions.md R120). -/

namespace Sys2Proof.Machine

/-- `REQ.RESERVED`: `IllegalRequest`, which sets `ILL_REQ` and `LAST_ERR` = 5 and writes nothing else (R120). -/
def execReqReserved (s : State) : Result := .next (raiseError .illegalRequest s)

end Sys2Proof.Machine
end

