-- ==== Sys2Proof/Machine/Dispatch.lean ====
section
/-! DEFINITION. Dispatch: one arm for each constructor of `Instr`. -/

namespace Sys2Proof.Machine

def exec (i : Instr) (s : State) : Host.Outcome State Fault Refusal :=
  match i with
  | .qmap => Sys2Proof.Machine.execQmap s
  | .encode => Sys2Proof.Machine.execEncode s
  | .decode => Sys2Proof.Machine.execDecode s
  | .reqReserved => Sys2Proof.Machine.execReqReserved s
  | .cmdNop ps1 ps2 ps3 ps4 => Sys2Proof.Machine.execCmdNop ps1 ps2 ps3 ps4 s
  | .cmdBlink ps1 ps2 ps3 ps4 => Sys2Proof.Machine.execCmdBlink ps1 ps2 ps3 ps4 s
  | .cmdSetps ps1 ps2 ps3 ps4 => Sys2Proof.Machine.execCmdSetps ps1 ps2 ps3 ps4 s
  | .tlm lat lon mx my mz pad => Sys2Proof.Machine.execTlm lat lon mx my mz pad s
  | .psw code => Sys2Proof.Machine.execPsw code s

end Sys2Proof.Machine
end

