-- ==== Sys2Proof/Machine/Assembler.lean ====
section
/-! DEFINITION. The Command Assembler (43_host_command_assembler.md), at most one write or request at the block, with
the reads it uses, and one access to a scalar shared with the UI per move (log 5). The order of its tests is R92 and R124: opcode, mode, range. -/

namespace Sys2Proof.Machine

/-- Step 1 (R93): the opcode string must parse to 0, 1 or 2, else `InvalidOpcode`. The message of the error is the next
move's (log 5). -/
def readOpcodeMove (s : State) : Result :=
  match opcodeOf (parseInt s.console.opcodeStr) with
  | some op => .next (goto (.readingMode op) s)
  | none => .next (raiseValidation .invalidOpcode s)

/-- The mode (R94 to R96): an unrecognised one aborts silently (R122). -/
def readModeMove (op : Byte) (s : State) : Result :=
  match s.console.mode with
  | .direct => .next (goto (.readingPs op .c1 ⟨none, none, none, none⟩) s)
  | .beam => .next (goto (.readingAngle op) s)
  | .other => .next (raiseValidation .unsupportedMode s)

/-- Mode `DIRECT` (R94): `d_n = parse_number(ps_str_n)`; a string that does not parse gives no value. -/
def readPsMove (op : Byte) (ch : Channel) (got : Quad (Option Rat)) (s : State) : Result :=
  let got' := got.set ch (parseNumber (s.console.psStr.get ch))
  match ch.next with
  | some ch' => .next (goto (.readingPs op ch' got') s)
  | none => .next (goto (.checkingRange op got') s)

/-- The wrapped phase of a beam angle (R95, R114). -/
def beamPhase (angle : Int) : DegWord := wrapPhase (Config.phaseShiftForAngle Config.geometryRatio angle)

/-- The four calculated values of mode `BEAM` (R95; 90_conflicts.md C4): channels 1 and 3 get the phase, 2 and 4
zero. -/
def beamDegrees (angle : Int) : Quad DegWord := ⟨beamPhase angle, .finite 0, beamPhase angle, .finite 0⟩

/-- The rationals four degree words denote (R60). -/
def degValues (d : Quad DegWord) : Quad (Option Rat) := ⟨degValue d.c1, degValue d.c2, degValue d.c3, degValue d.c4⟩

/-- Mode `BEAM` (R95): the angle is read and the four values are computed; an angle that does not parse is refused
(D28). -/
def readAngleMove (op : Byte) (s : State) : Result :=
  match parseInt s.console.angleStr with
  | some a => .next (goto (.publishingDegree op .c1 (beamDegrees a)) s)
  | none => .refused .beamAngleNotAnInteger

/-- The next thing after the calculated value of a channel is published. -/
def afterDegree (op : Byte) (ch : Channel) (degs : Quad DegWord) : Worker :=
  match ch.next with
  | some ch' => .publishingDegree op ch' degs
  | none => .checkingRange op (degValues degs)

/-- Mode `BEAM` (R95): the calculated value of one channel is published to the UI, before the range is tested: DESIGN
CHOICE (log 26). -/
def publishDegreeMove (op : Byte) (ch : Channel) (degs : Quad DegWord) (s : State) : Result :=
  .next (setConsole { showWrite (.calculated ch (degs.get ch)) s.console with worker := afterDegree op ch degs } s)

/-- Step 2 (R97): all four values together, in both modes; else `InvalidPhaseShifterRange`. -/
def checkRangeMove (op : Byte) (degs : Quad (Option Rat)) (s : State) : Result :=
  match allInRange degs with
  | some q => .next (goto (.writingDegree op .c1 q) s)
  | none => .next (raiseValidation .invalidPhaseShifterRange s)

/-- Success (R98): `WR PSQ_DEG, d_n`. DESIGN CHOICE: of the words that denote `d_n` it is the finite one, also where the
calculator's word was a negative zero (log 27). -/
def writeDegreeMove (op : Byte) (ch : Channel) (degs : Quad Rat) (s : State) : Result :=
  andThen (hostWrite .psqDeg (.degree (.finite (degs.get ch))) s) fun s1 => .next (goto (.quantizing op ch degs) s1)

/-- Success (R98): `QMAP`. -/
def quantizeMove (op : Byte) (ch : Channel) (degs : Quad Rat) (s : State) : Result :=
  andThen (execQmap s) fun s1 => .next (goto (.movingWord op ch degs) s1)

/-- The next thing after channel `ch` is filled: the next channel, or the opcode (R98). -/
def afterChannel (op : Byte) (ch : Channel) (degs : Quad Rat) : Worker :=
  match ch.next with
  | some ch' => .writingDegree op ch' degs
  | none => .writingOpcode op

/-- Success (R98): `CMD_PSn <- PSQ_OUT`; the host may read `PSQ_OUT` only when it is valid (R29). -/
def moveWordMove (op : Byte) (ch : Channel) (degs : Quad Rat) (s : State) : Result :=
  if psqValid s.block.status then
    needs .psqOut s.block.psqOut fun w =>
      andThen (hostWrite (psReg ch) (.byte w) s) fun s1 => .next (goto (afterChannel op ch degs) s1)
  else .refused (.resultNotValid .psqOut)

/-- Success (R98): `CMD_OPCODE <- parse_int(opcode_str)`, the value step 1 accepted. -/
def writeOpcodeMove (op : Byte) (s : State) : Result :=
  andThen (hostWrite .cmdOpcode (.byte op) s) fun s1 => .next (goto .clearingMessage s1)

/-- Success (R98, R100): the shared error message becomes empty. -/
def clearMessageMove (s : State) : Result :=
  .next (setConsole { showWrite (.errorMessage []) s.console with worker := .encoding } s)

end Sys2Proof.Machine
end

