-- ==== Sys2Proof/Machine/LinkWorker.lean ====
section
/-! DEFINITION. The Link Worker (44_host_link_worker.md), at most one write, request or transmit, with the reads
it uses, and one access to a scalar shared with the UI per move (log 5), and the UI's events (R42, R109, R115). -/

namespace Sys2Proof.Machine

/-- One call of `poll_receive` (R105): no frame or one frame. -/
def pollMove (polled : Option (List Byte)) (s : State) : Result :=
  match polled with
  | none => .next (goto .noData s)
  | some frame => .next (goto (.telemetryReceived frame) s)

/-- A malformed frame is logged and nothing is published (R87, R106, R119); the loop goes on. -/
def logMalformed (s : State) : State :=
  setConsole { s.console with worker := .checkSendRequest, malformedLog := s.console.malformedLog + 1 } s

/-- `RXFRAME` of the polled frame (R106); one longer than `RX_MAX` is malformed without a request (D16). -/
def copyFrameMove (frame : List Byte) (s : State) : Result :=
  if Config.rxMax < frame.length then .next (logMalformed s)
  else andThen (hostRxFrame frame s) fun s1 => .next (goto .decoding s1)

/-- `DECODE` (R106). -/
def decodeMove (s : State) : Result := andThen (execDecode s) fun s1 => .next (goto .checkingDecode s1)

/-- The display scalar published after this one, none after the counter. -/
def TlmShown.next : TlmShown → Option TlmShown
  | .lat => some .lon
  | .lon => some .mx
  | .mx => some .my
  | .my => some .mz
  | .mz => some .signal
  | .signal => some .count
  | .count => none

/-- The next thing after one display scalar is published. -/
def afterShown (f : TlmShown) : Worker :=
  match f.next with
  | some g => .publishing g
  | none => .checkSendRequest

/-- The receive counter goes up (R106, R108). -/
def countFrameMove (s : State) : Result :=
  .next (setConsole { s.console with worker := .publishing .lat, rxCount := s.console.rxCount + 1 } s)

/-- The host reads a telemetry register: a valid result only (R29). -/
def readTlm {α : Type} (r : Reg) (v : Option α) (s : State) (k : α → Result) : Result :=
  if tlmValid s.block.status then needs r v k else .refused (.resultNotValid r)

/-- One display scalar is written, and the worker goes on to the next (R106). -/
def publish (f : TlmShown) (w : ShownWrite) (s : State) : Result :=
  .next (setConsole { showWrite w s.console with worker := afterShown f } s)

/-- One display scalar is published (R106): a field from its register, the signal strength from the radio, the receive
counter. DESIGN CHOICE: the order, and that reading the source and writing the scalar are one move (log 5). -/
def publishMove (f : TlmShown) (s : State) : Result :=
  match f with
  | .lat => readTlm .tlmLat s.block.tlmLat s fun x => publish f (.lat x) s
  | .lon => readTlm .tlmLon s.block.tlmLon s fun x => publish f (.lon x) s
  | .mx => readTlm .tlmMx s.block.tlmMx s fun x => publish f (.mx x) s
  | .my => readTlm .tlmMy s.block.tlmMy s fun x => publish f (.my x) s
  | .mz => readTlm .tlmMz s.block.tlmMz s fun x => publish f (.mz x) s
  | .signal => publish f (.signal s.radio.signal) s
  | .count => publish f (.count s.console.rxCount) s

/-- After `DECODE` (R106): `LAST_ERR` = 0 publishes, an error code logs (log 14). -/
def checkDecodeMove (s : State) : Result :=
  if lastErr s.block.status = noError then .next (goto .countingFrame s) else .next (logMalformed s)

/-- The send check (R107): read the flag. -/
def checkSendMove (s : State) : Result :=
  if s.console.pendingSend then .next (goto .clearingFlag s) else .next (goto .idle s)

/-- The flag is written clear before the assembler runs (R107; 90_conflicts.md C9). A set by the UI since the flag was
read is lost here (R110, R141). -/
def clearFlagMove (s : State) : Result :=
  .next (setConsole { s.console with worker := .readingOpcode, pendingSend := false } s)

/-- `ENCODE` (R107). -/
def encodeMove (s : State) : Result := andThen (execEncode s) fun s1 => .next (goto .transmitting s1)

/-- TXBUF[0..4] is handed to the radio, and the iteration ends (R104, R107). -/
def transmitMove (s : State) : Result := andThen (transmitFrame s) fun s1 => .next (goto .idle s1)

/-- The Link Worker's next move (R104 to R107). -/
def workerMove (polled : Option (List Byte)) (s : State) : Result :=
  match s.console.worker with
  | .idle => .next (goto .polling s)
  | .polling => pollMove polled s
  | .telemetryReceived frame => copyFrameMove frame s
  | .decoding => decodeMove s
  | .checkingDecode => checkDecodeMove s
  | .countingFrame => countFrameMove s
  | .publishing f => publishMove f s
  | .noData => .next (goto .checkSendRequest s)
  | .checkSendRequest => checkSendMove s
  | .clearingFlag => clearFlagMove s
  | .readingOpcode => readOpcodeMove s
  | .readingMode op => readModeMove op s
  | .readingPs op ch got => readPsMove op ch got s
  | .readingAngle op => readAngleMove op s
  | .publishingDegree op ch degs => publishDegreeMove op ch degs s
  | .checkingRange op degs => checkRangeMove op degs s
  | .reporting e => .next (reportError e s)
  | .writingDegree op ch degs => writeDegreeMove op ch degs s
  | .quantizing op ch degs => quantizeMove op ch degs s
  | .movingWord op ch degs => moveWordMove op ch degs s
  | .writingOpcode op => writeOpcodeMove op s
  | .clearingMessage => clearMessageMove s
  | .encoding => encodeMove s
  | .transmitting => transmitMove s

/-- The UI's send trigger sets the flag; a second set before the flag is drained changes nothing (R109). -/
def uiSend (s : State) : State := setConsole { s.console with pendingSend := true } s

/-- The UI rewrites one input string, whole (R42, R115, R142). -/
def uiEdit (e : UiEdit) (s : State) : State :=
  match e with
  | .opcode t => setConsole { s.console with opcodeStr := t } s
  | .mode m => setConsole { s.console with mode := m } s
  | .ps ch t => setConsole { s.console with psStr := s.console.psStr.set ch t } s
  | .angle t => setConsole { s.console with angleStr := t } s

/-- The UI comes to see the oldest write to one scalar that it does not see yet (R42). -/
def uiSees (k : Shown) (s : State) : State := setConsole (deliver k s.console) s

/-- The radio's `signal_strength` reads a new value (R113). -/
def radioSignal (v : Signal) (s : State) : State := { s with radio := { s.radio with signal := v } }

end Sys2Proof.Machine
end

