-- ==== Sys2Proof/Machine/Inputs.lean ====
section
/-! DEFINITION. What one input does: the block's ports, the UI, the radio and the Link Worker (10_state.md R17, R18). -/

namespace Sys2Proof.Machine

/-- Present an encoded item: it is decoded and done; bytes that are no item are refused by name (R51, R55). -/
def presentItem (bytes : List Byte) (s : State) : Result :=
  match decodeItem bytes with
  | .ok i => exec i s
  | .error e => .refused (.notAnItem e)

/-- What one input does to a state it has been taken from. -/
def perform (x : Input) (s : State) : Result :=
  match x with
  | .item bytes => presentItem bytes s
  | .hostWrite r v => hostWrite r v s
  | .hostWriteRx offset b => hostWriteRx offset b s
  | .rxFrame bytes => hostRxFrame bytes s
  | .hostRead r => hostRead r s
  | .hostReadTx offset => hostReadTx offset s
  | .reset => .next (resetBlock s)
  | .uiSend => .next (uiSend s)
  | .uiEdit e => .next (uiEdit e s)
  | .uiSees k => .next (uiSees k s)
  | .radioSignal v => .next (radioSignal v s)
  | .worker polled => workerMove polled s

/-- `s` with other inputs still to happen. -/
def setInputs (xs : List Input) (s : State) : State := { s with inputs := xs }

/-- One step: the soonest input is taken and done; with none, the machine waits (R16, R135). -/
def stepInput (s : State) : Result :=
  match s.inputs with
  | [] => .next s
  | x :: rest => perform x (setInputs rest s)

/-- `s` with an encoded item of the opcode table as the soonest input. -/
def presentNext (bytes : List Byte) (s : State) : State := setInputs (.item bytes :: s.inputs) s

end Sys2Proof.Machine
end

