-- ==== Sys2Proof/Machine/Step.lean ====
section
/-! DEFINITION. The step, and the state in which a given word of the opcode table is what the next step does (log 4). -/

namespace Sys2Proof.Machine

/-- One step of the machine. -/
def step (s : State) : Host.Outcome State Fault Refusal := stepInput s

/-- `s` with the item of a table word presented next: the machine fetches from no memory (R24, R45), its next
instruction is the soonest input. -/
def State.withFetchWord (s : State) (nbits w : Nat) : State := presentNext (tableBytes nbits w) s

end Sys2Proof.Machine
end

