-- ==== Sys2Proof/Safety.lean ====
section
/-! DEFINITION. The terms claims are stated in: the spec's functions as mathematics, the invariants of the block and of
the whole system, and the states of the Link Worker's loop. Nothing here is read by the machine. -/

namespace Sys2Proof.Machine

/-! ### PSQ as mathematics (40_psq.md) -/

/-- The scaled value `d * 63 / 353`, an exact rational (R61). -/
def scaled (d : Rat) : Rat := d * (Config.maxPsBitVal : Rat) / (Config.maxPsDegVal : Rat)

/-- `round_half_even(x)` (R62). -/
def roundHalfEven (x : Rat) : Int :=
  if x - x.floor < 1 / 2 then x.floor
  else if 1 / 2 < x - x.floor then x.floor + 1
  else if x.floor % 2 = 0 then x.floor else x.floor + 1

/-- The domain of the degree operand (R60). -/
def InDomain (d : Rat) : Prop := 0 ≤ d ∧ d ≤ (Config.maxPsDegVal : Rat)

/-- The tie points `t_k = 353 * (2k + 1) / 126` (R69). -/
def tiePoint (k : Int) : Rat := 353 * (2 * (k : Rat) + 1) / 126

/-- Bit `i` of a code as a number. -/
def codeBit (c : BitVec 6) (i : Nat) : Nat := (c.getLsbD i).toNat

/-- The control word read as arithmetic (R73). -/
def wordSum (c : BitVec 6) : Nat :=
  0x20 + 4 * codeBit c 0 + 64 * codeBit c 1 + 8 * codeBit c 2 + 16 * codeBit c 3 + 1 * codeBit c 4 + 2 * codeBit c 5

/-! ### TDEC as mathematics (42_tdec.md) -/

/-- The TelemetryPacket of R82. -/
structure Telemetry where
  lat : Word
  lon : Word
  mx : Half
  my : Half
  mz : Half
  deriving DecidableEq, Repr

/-- The unsigned little-endian value of bytes, the first the least significant (R33). -/
def littleEndian : List Byte → Nat
  | [] => 0
  | b :: bs => b.toNat + 256 * littleEndian bs

/-- `decode_telemetry` (R80 to R85), on a frame of any length. -/
def decodeTelemetry (f : List Byte) : Except ErrorKind Telemetry :=
  if f.length = Config.tlmFrameLen then
    .ok { lat := BitVec.ofNat 32 (littleEndian (f.take 4))
          lon := BitVec.ofNat 32 (littleEndian ((f.drop 4).take 4))
          mx := BitVec.ofNat 16 (littleEndian ((f.drop 8).take 2))
          my := BitVec.ofNat 16 (littleEndian ((f.drop 10).take 2))
          mz := BitVec.ofNat 16 (littleEndian ((f.drop 12).take 2)) }
  else .error .malformedFrame

/-! ### The Command Assembler as one function (43_host_command_assembler.md R90) -/

/-- The outcomes of `assemble` (R90): a packet, a validation error, nothing at all, or (R95) no meaning. -/
inductive Assembled where
  | packet (op : Byte) (ps : Quad Byte)
  | error (e : ErrorKind)
  | nothing
  | noMeaning
  deriving DecidableEq, Repr

/-- Step 2 and success (R97, R98) on four effective values. -/
def assembleDegrees (op : Byte) (degs : Quad (Option Rat)) : Assembled :=
  match allInRange degs with
  | some q =>
    .packet op ⟨quantizeAndMap q.c1, quantizeAndMap q.c2, quantizeAndMap q.c3, quantizeAndMap q.c4⟩
  | none => .error .invalidPhaseShifterRange

/-- `assemble` on the strings the UI holds (R90 to R98). -/
def assemble (c : Console) : Assembled :=
  match opcodeOf (parseInt c.opcodeStr) with
  | none => .error .invalidOpcode
  | some op =>
    match c.mode with
    | .direct =>
      assembleDegrees op
        ⟨parseNumber c.psStr.c1, parseNumber c.psStr.c2, parseNumber c.psStr.c3, parseNumber c.psStr.c4⟩
    | .beam =>
      match parseInt c.angleStr with
      | some a => assembleDegrees op (degValues (beamDegrees a))
      | none => .noMeaning
    | .other => .nothing

/-! ### The loop's states (44_host_link_worker.md R104) -/

/-- The states of R104. -/
inductive LoopState where
  | idle | polling | telemetryReceived | noData | checkSendRequest | transmitting
  deriving DecidableEq, Repr

/-- The state of R104 a place of the worker belongs to: the assembly belongs to `CheckSendRequest` (log 5). -/
def loopState : Worker → LoopState
  | .idle => .idle
  | .polling => .polling
  | .telemetryReceived _ => .telemetryReceived
  | .decoding => .telemetryReceived
  | .checkingDecode => .telemetryReceived
  | .countingFrame => .telemetryReceived
  | .publishing _ => .telemetryReceived
  | .noData => .noData
  | .checkSendRequest => .checkSendRequest
  | .clearingFlag => .checkSendRequest
  | .readingOpcode => .checkSendRequest
  | .readingMode _ => .checkSendRequest
  | .readingPs _ _ _ => .checkSendRequest
  | .readingAngle _ => .checkSendRequest
  | .publishingDegree _ _ _ => .checkSendRequest
  | .checkingRange _ _ => .checkSendRequest
  | .reporting _ => .checkSendRequest
  | .writingDegree _ _ _ => .checkSendRequest
  | .quantizing _ _ _ => .checkSendRequest
  | .movingWord _ _ _ => .checkSendRequest
  | .writingOpcode _ => .checkSendRequest
  | .clearingMessage => .checkSendRequest
  | .encoding => .transmitting
  | .transmitting => .transmitting

/-- The arrows of R104: `Idle → Polling → (TelemetryReceived | NoData) → CheckSendRequest → (Transmitting | Idle)`, and
`Transmitting → Idle`. -/
def loopArrow : LoopState → LoopState → Bool
  | .idle, .polling => true
  | .polling, .telemetryReceived => true
  | .polling, .noData => true
  | .telemetryReceived, .checkSendRequest => true
  | .noData, .checkSendRequest => true
  | .checkSendRequest, .transmitting => true
  | .checkSendRequest, .idle => true
  | .transmitting, .idle => true
  | _, _ => false

/-! ### The invariant of the block -/

/-- A register that, if it holds a value, holds a legal control word (R66). -/
def LegalOrNone (r : Option Byte) : Prop := ∀ w, r = some w → legalControlWord w = true

/-- The five telemetry registers hold values (R22). -/
def TlmHeld (b : Block) : Prop :=
  b.tlmLat.isSome ∧ b.tlmLon.isSome ∧ b.tlmMx.isSome ∧ b.tlmMy.isSome ∧ b.tlmMz.isSome

/-- The block's invariant: the buffers are in canonical form and hold no offset that does not exist (R32); the reserved
bit of `STATUS` reads 0 and `LAST_ERR` is a code the block raises (R22, R118); `PSQ_OUT` is a legal control word (R66);
a VALID bit says that its result holds a value (R22, R29). -/
structure BlockInv (b : Block) : Prop where
  rxWf : MemWf b.rxbuf
  txWf : MemWf b.txbuf
  rxInside : ∀ a, (memRead b.rxbuf a).isSome → a < Config.rxMax
  txInside : ∀ a, (memRead b.txbuf a).isSome → a < Config.cmdFrameLen
  reservedZero : b.status.getLsbD 7 = false
  lastErrKnown : lastErr b.status = noError ∨ lastErr b.status = causeCode .malformedFrame
    ∨ lastErr b.status = causeCode .illegalRequest
  psqLegal : LegalOrNone b.psqOut
  psqHeld : psqValid b.status = b.psqOut.isSome
  txHeld : txValid b.status = true → ∀ a, a < Config.cmdFrameLen → (memRead b.txbuf a).isSome
  txEmpty : txValid b.status = false → b.txbuf = []
  tlmHeld : tlmValid b.status = true → TlmHeld b
  tlmEmpty : tlmValid b.status = false →
    b.tlmLat = none ∧ b.tlmLon = none ∧ b.tlmMx = none ∧ b.tlmMy = none ∧ b.tlmMz = none

/-! ### The invariant of the whole system -/

/-- An input of the system the source describes: the Link Worker, the UI and the radio, with the worker the only
requester (R17, R103). A raw line at the block's ports and a reset are not (log 15). -/
def Input.ofSystem : Input → Bool
  | .worker _ => true
  | .uiSend => true
  | .uiEdit _ => true
  | .uiSees _ => true
  | .radioSignal _ => true
  | .item _ => false
  | .hostWrite _ _ => false
  | .hostWriteRx _ _ => false
  | .rxFrame _ => false
  | .hostRead _ => false
  | .hostReadTx _ => false
  | .reset => false

/-- A register that holds a legal control word. -/
def HoldsLegal (r : Option Byte) : Prop := ∃ w, r = some w ∧ legalControlWord w = true

/-- An opcode step 1 accepts (R93). -/
def OpcodeOk (op : Byte) : Prop := op.toNat ≤ 2

/-- The operand registers of the channels before `ch` hold legal control words. -/
def FilledBefore (b : Block) : Channel → Prop
  | .c1 => True
  | .c2 => HoldsLegal b.cmdPs1
  | .c3 => HoldsLegal b.cmdPs1 ∧ HoldsLegal b.cmdPs2
  | .c4 => HoldsLegal b.cmdPs1 ∧ HoldsLegal b.cmdPs2 ∧ HoldsLegal b.cmdPs3

/-- All four operand registers hold legal control words. -/
def FilledAll (b : Block) : Prop :=
  HoldsLegal b.cmdPs1 ∧ HoldsLegal b.cmdPs2 ∧ HoldsLegal b.cmdPs3 ∧ HoldsLegal b.cmdPs4

/-- Registers 2 to 6 hold a valid CommandPacket (R75). -/
def PacketReady (b : Block) : Prop := (∃ op, b.cmdOpcode = some op ∧ OpcodeOk op) ∧ FilledAll b

/-- Four degrees step 2 accepted (R97). -/
def DegreesOk (q : Quad Rat) : Prop :=
  inDegDomain q.c1 = true ∧ inDegDomain q.c2 = true ∧ inDegDomain q.c3 = true ∧ inDegDomain q.c4 = true

/-- A frame that carries a valid CommandPacket (R75, R76). -/
def ValidFrame (f : List Byte) : Prop :=
  ∃ op ps1 ps2 ps3 ps4, f = encodeCommand op ps1 ps2 ps3 ps4 ∧ validCommandPacket op ps1 ps2 ps3 ps4 = true

/-- What the worker's place promises of the block: the operands of its next line are there. -/
def WorkerReady (b : Block) : Worker → Prop
  | .idle => True
  | .polling => True
  | .telemetryReceived _ => True
  | .decoding => ∃ n, b.rxLen = some n ∧ n.toNat ≤ Config.rxMax ∧
      (n.toNat = Config.tlmFrameLen → ∀ a, a < Config.tlmFrameLen → (memRead b.rxbuf a).isSome)
  | .checkingDecode => lastErr b.status = noError → tlmValid b.status = true ∧ TlmHeld b
  | .countingFrame => tlmValid b.status = true ∧ TlmHeld b
  | .publishing _ => tlmValid b.status = true ∧ TlmHeld b
  | .noData => True
  | .checkSendRequest => True
  | .clearingFlag => True
  | .readingOpcode => True
  | .readingMode op => OpcodeOk op
  | .readingPs op _ _ => OpcodeOk op
  | .readingAngle op => OpcodeOk op
  | .publishingDegree op _ _ => OpcodeOk op
  | .checkingRange op _ => OpcodeOk op
  | .reporting _ => True
  | .writingDegree op ch q => OpcodeOk op ∧ DegreesOk q ∧ FilledBefore b ch
  | .quantizing op ch q => OpcodeOk op ∧ DegreesOk q ∧ FilledBefore b ch ∧ b.psqDeg = some (.finite (q.get ch))
  | .movingWord op ch q =>
    OpcodeOk op ∧ DegreesOk q ∧ FilledBefore b ch ∧ psqValid b.status = true ∧ HoldsLegal b.psqOut
  | .writingOpcode op => OpcodeOk op ∧ FilledAll b
  | .clearingMessage => PacketReady b
  | .encoding => PacketReady b
  | .transmitting => txValid b.status = true ∧
      ∃ f, memReadBytes b.txbuf 0 Config.cmdFrameLen = some f ∧ ValidFrame f

/-- Every frame handed to the radio carries a valid CommandPacket and goes to the remote node (R99, R113). -/
def SentValid (sent : List Transmission) : Prop :=
  ∀ x ∈ sent, x.destination = Config.remoteId ∧ ValidFrame x.bytes

/-- The invariant of the whole system. -/
def SystemInv (s : State) : Prop := WorkerReady s.block s.console.worker ∧ SentValid s.radio.sent

/-- What the UI sees, with the writes it does not see yet, is what the Link Worker wrote (R42). -/
def DisplayInv (c : Console) : Prop := c.unseen.foldl putShown c.screen = c.display

/-! ### Who writes what (10_state.md R21, R26) -/

/-- The four requests of R50. -/
inductive Request where
  | qmap | encode | decode | reserved
  deriving DecidableEq, Repr

/-- The request an encoded item issues: a format row issues the one of its pseudo-operation (R58; log 6). -/
def requestOfItem : Instr → Request
  | .qmap => .qmap
  | .encode => .encode
  | .decode => .decode
  | .reqReserved => .reserved
  | .cmdNop _ _ _ _ => .encode
  | .cmdBlink _ _ _ _ => .encode
  | .cmdSetps _ _ _ _ => .encode
  | .tlm _ _ _ _ _ _ => .decode
  | .psw _ => .qmap

/-- The request the worker's next move issues, if any. -/
def requestOfWorker : Worker → Option Request
  | .quantizing _ _ _ => some .qmap
  | .encoding => some .encode
  | .decoding => some .decode
  | _ => none

/-- The request an input issues, if any, with the worker at `w`. -/
def requestOf (w : Worker) : Input → Option Request
  | .item bs => (decodeItem bs).toOption.map requestOfItem
  | .worker _ => requestOfWorker w
  | _ => none

/-- The operand registers a format row's host lines write (R58; log 6). -/
def writesOfItem : Instr → List Reg
  | .cmdNop _ _ _ _ => [.cmdOpcode, .cmdPs1, .cmdPs2, .cmdPs3, .cmdPs4]
  | .cmdBlink _ _ _ _ => [.cmdOpcode, .cmdPs1, .cmdPs2, .cmdPs3, .cmdPs4]
  | .cmdSetps _ _ _ _ => [.cmdOpcode, .cmdPs1, .cmdPs2, .cmdPs3, .cmdPs4]
  | .tlm _ _ _ _ _ _ => [.rxLen]
  | .psw _ => [.psqDeg]
  | .qmap => []
  | .encode => []
  | .decode => []
  | .reqReserved => []

/-- The operand registers the worker's next move writes. -/
def writesOfWorker : Worker → List Reg
  | .telemetryReceived _ => [.rxLen]
  | .writingDegree _ _ _ => [.psqDeg]
  | .movingWord _ ch _ => [psReg ch]
  | .writingOpcode _ => [.cmdOpcode]
  | _ => []

/-- The operand registers an input's host lines write, with the worker at `w` (R28). -/
def hostWritesOf (w : Worker) : Input → List Reg
  | .item bs => ((decodeItem bs).toOption.map writesOfItem).getD []
  | .hostWrite r _ => [r]
  | .rxFrame _ => [.rxLen]
  | .worker _ => writesOfWorker w
  | _ => []

/-- Whether an input's host lines write RXBUF, with the worker at `w` (R28): a raw write, or a frame, which `RX_LEN` goes
with. -/
def writesRxBuf (w : Worker) : Input → Bool
  | .hostWriteRx _ _ => true
  | .hostWrite _ _ => false
  | x => decide (Reg.rxLen ∈ hostWritesOf w x)

/-- The next input, if there is one, is one of the system. -/
def NextOfSystem (s : State) : Prop := ∀ x rest, s.inputs = x :: rest → x.ofSystem = true

/-- `n` moves of the worker, uninterrupted, with no frame polled. -/
def workerMoves (n : Nat) : List Input := List.replicate n (.worker none)

/-! ### Outcomes -/

/-- The machine answers no next state. -/
def Stops (r : Result) : Prop := ∀ t, r ≠ .next t

end Sys2Proof.Machine
end

