-- ==== Sys2Proof/Certificates/Slice0/Obligations.lean ====
section
/-! DEFINITION. The statements for the provers. Each docstring names the rules of spec/ it formalises; a clause that
rests on the model's own choice names its log entry. -/

open Sys2Proof Sys2Proof.Machine

/-! ### Encodings -/

/-- Every encoded item, with every operand at every value, is read back from its own bytes (R48, R49, R50, R52). -/
def Obligations.DecodeInvertsEncode : Prop :=
  ∀ i : Instr, decodeItem (encodeItem i) = .ok i

/-- Bytes that decode are the bytes of what they decode to: each word has one meaning and no bit is dropped (R47, R56). -/
def Obligations.EncodeInvertsDecode : Prop :=
  ∀ (bs : List Byte) (i : Instr), decodeItem bs = .ok i → encodeItem i = bs

/-- Words written out from 30_encoding.md R48 to R52, one of each format and every request code. -/
def Obligations.SampleWordsDecode : Prop :=
  decodeTableWord 2 0b00 = some .qmap ∧ decodeTableWord 2 0b01 = some .encode ∧ decodeTableWord 2 0b10 = some .decode
    ∧ decodeTableWord 2 0b11 = some .reqReserved
    ∧ decodeTableWord 40 0x6C2C286002 = some (.cmdSetps 0x60 0x28 0x2C 0x6C)
    ∧ decodeTableWord 40 0x7F7F7F7F01 = some (.cmdBlink 0x7F 0x7F 0x7F 0x7F)
    ∧ decodeTableWord 40 0x2020202000 = some (.cmdNop 0x20 0x20 0x20 0x20)
    ∧ decodeTableWord 128 0x55AA0E0D0C0B0A090807060504030201
        = some (.tlm 0x04030201 0x08070605 0x0A09 0x0C0B 0x0E0D 0x55AA)
    ∧ decodeTableWord 8 0x72 = some (.psw 42)

/-- What is no encoded item: command opcodes 3 to 255 (R51, R55), single bytes that are neither a request code (R50)
nor a legal control word (R52, R55), and every other length (R47, R56). That items come on one channel, told apart by length, with bytes 0 to 3
read as request codes, is the model's choice (log 7). -/
def Obligations.ReservedEncodingsAreNoItem : Prop :=
  (∀ op ps1 ps2 ps3 ps4 : Byte, 3 ≤ op.toNat → decodeItem [op, ps1, ps2, ps3, ps4] = .error (.reservedOpcode op))
    ∧ (∀ b : Byte, 4 ≤ b.toNat → (b.getLsbD 5 = false ∨ b.getLsbD 7 = true) →
        decodeItem [b] = .error (.illegalControlWord b))
    ∧ (∀ bs : List Byte, bs.length ≠ 1 → bs.length ≠ Config.cmdFrameLen → bs.length ≠ Config.tlmFrameLen →
        decodeItem bs = .error (.badLength bs.length))

/-! ### The step -/

/-- When the next input presents bytes that decode to an item, the step takes that input and is `exec` of the item; bytes
that are no item stop the machine by name (log 4). -/
def Obligations.StepRunsTheDecodedItem : Prop :=
  ∀ (s : State) (bs : List Byte) (rest : List Input), s.inputs = .item bs :: rest →
    (∀ i, decodeItem bs = .ok i → step s = exec i { s with inputs := rest })
      ∧ (∀ e, decodeItem bs = .error e → step s = .refused (.notAnItem e))

/-- With nothing to happen the machine waits, unchanged (R16, R135; log 4). -/
def Obligations.StepWithoutInputWaits : Prop :=
  ∀ s : State, s.inputs = [] → step s = .next s

/-! ### QMAP -/

/-- `QMAP` on a degree in [0, 353] (R60 to R67): `PSQ_OUT` is the control word of `round_half_even(d * 63 / 353)`,
`PSQ_VALID` is 1, `LAST_ERR` is 0, and nothing else changes. -/
def Obligations.QmapWritesTheExactControlWord : Prop :=
  ∀ (s : State) (w : DegWord) (d : Rat), s.block.psqDeg = some w → degValue w = some d → InDomain d →
    ∃ st : Byte,
      exec .qmap s = .next { s with block := { s.block with
        psqOut := some (wordOfCode (BitVec.ofInt 6 (roundHalfEven (scaled d))))
        status := st } }
      ∧ psqValid st = true ∧ lastErr st = 0 ∧ txValid st = txValid s.block.status
      ∧ tlmValid st = tlmValid s.block.status ∧ illReq st = illReq s.block.status
      ∧ st.getLsbD 7 = s.block.status.getLsbD 7

/-- `QMAP` answers a next state exactly when its operand holds a value that denotes a number in [0, 353] (R67, R68). -/
def Obligations.QmapRunsExactlyOnItsDomain : Prop :=
  ∀ s : State, (∃ t, exec .qmap s = .next t) ↔ ∃ w d, s.block.psqDeg = some w ∧ degValue w = some d ∧ InDomain d

/-- The code range (R63): an integer from 0 to 63, 0 exactly up to 353/126, 63 exactly above 44125/126. -/
def Obligations.QuantizedCodeRange : Prop :=
  ∀ d : Rat, InDomain d →
    0 ≤ quantize d ∧ quantize d ≤ (Config.maxPsBitVal : Int)
      ∧ ((codeBits d).toNat : Int) = quantize d
      ∧ (quantize d = 0 ↔ d < 353 / 126 ∨ d = 353 / 126)
      ∧ (quantize d = 63 ↔ 44125 / 126 < d)

/-- The intervals (R70): the code is k exactly strictly between the tie points around k, or at one of them when k is
even. -/
def Obligations.QuantizedCodeIntervals : Prop :=
  ∀ (d : Rat) (k : Int), InDomain d → 0 ≤ k → k ≤ 63 →
    (quantize d = k ↔
      (tiePoint (k - 1) < d ∧ d < tiePoint k) ∨ (d = tiePoint (k - 1) ∧ k % 2 = 0) ∨ (d = tiePoint k ∧ k % 2 = 0))

/-- The tie points (R69): the scaled value lies half-way exactly at t_0 .. t_62, and there the code is the even
neighbour. -/
def Obligations.TiesGoToTheEvenCode : Prop :=
  (∀ d : Rat, InDomain d →
    (scaled d - (scaled d).floor = 1 / 2 ↔ ∃ k : Int, 0 ≤ k ∧ k ≤ 62 ∧ d = tiePoint k))
    ∧ (∀ k : Int, 0 ≤ k → k ≤ 62 → quantize (tiePoint k) = if k % 2 = 0 then k else k + 1)

/-- The closed form on d = p / q in lowest terms (R71): with N = 126 p + 353 q and D = 706 q, the code is the floor of
N / D, less one at a tie whose quotient is odd. -/
def Obligations.QuantizerClosedForm : Prop :=
  ∀ d : Rat, InDomain d →
    quantize d =
      (let n : Int := 126 * d.num + 353 * d.den
       let m : Int := 706 * d.den
       if n % m = 0 ∧ (n / m) % 2 ≠ 0 then n / m - 1 else n / m)

/-- A larger degree never gets a smaller code (95_test_vectors.md section 2.1, "non-decreasing"; R61, R62). -/
def Obligations.QuantizerIsMonotone : Prop :=
  ∀ d e : Rat, InDomain d → InDomain e → d ≤ e → quantize d ≤ quantize e

/-- The remap and the reference bit (R64, R65): the word m has code bit i at the place PS_BIT_MAP gives it and no other
bit, and the control word is m with bit 5 set. -/
def Obligations.RemapSetsTheMappedBits : Prop :=
  ∀ c : BitVec 6, ∃ m : Byte, m = remapFrom c 0 [2, 6, 3, 4, 0, 1] 0
    ∧ m.getLsbD 2 = c.getLsbD 0 ∧ m.getLsbD 6 = c.getLsbD 1 ∧ m.getLsbD 3 = c.getLsbD 2 ∧ m.getLsbD 4 = c.getLsbD 3
    ∧ m.getLsbD 0 = c.getLsbD 4 ∧ m.getLsbD 1 = c.getLsbD 5 ∧ m.getLsbD 5 = false ∧ m.getLsbD 7 = false
    ∧ controlWord c = m ||| (1 <<< 5)

/-- The inverse of the remap (R72): from a legal control word each code bit is read at its own place, the word is the
control word of that code, and distinct codes give distinct words. -/
def Obligations.RemapIsInvertible : Prop :=
  (∀ w : Byte, w.getLsbD 5 = true → w.getLsbD 7 = false →
    controlWord (codeOfWord w) = w
      ∧ (codeOfWord w).getLsbD 0 = w.getLsbD 2 ∧ (codeOfWord w).getLsbD 1 = w.getLsbD 6
      ∧ (codeOfWord w).getLsbD 2 = w.getLsbD 3 ∧ (codeOfWord w).getLsbD 3 = w.getLsbD 4
      ∧ (codeOfWord w).getLsbD 4 = w.getLsbD 0 ∧ (codeOfWord w).getLsbD 5 = w.getLsbD 1)
    ∧ (∀ c e : BitVec 6, controlWord c = controlWord e → c = e)

/-- The control word as arithmetic (R64, R65, R73), inside 0x20..0x7F with bit 5 = 1 and bit 7 = 0 (R66). -/
def Obligations.ControlWordArithmetic : Prop :=
  ∀ c : BitVec 6, (controlWord c).toNat = wordSum c
    ∧ (controlWord c).getLsbD 5 = true ∧ (controlWord c).getLsbD 7 = false
    ∧ 0x20 ≤ (controlWord c).toNat ∧ (controlWord c).toNat ≤ 0x7F

/-! ### ENCODE -/

/-- `ENCODE` with its five operands written (R76, R77, R78): TXBUF[0..4] are the five bytes, `TX_VALID` is 1, `LAST_ERR`
is 0, and nothing else changes, no other offset of TXBUF among it; for every value of the operands. -/
def Obligations.EncodeCopiesTheFiveOperands : Prop :=
  ∀ (s : State) (op ps1 ps2 ps3 ps4 : Byte), s.block.cmdOpcode = some op → s.block.cmdPs1 = some ps1 →
    s.block.cmdPs2 = some ps2 → s.block.cmdPs3 = some ps3 → s.block.cmdPs4 = some ps4 →
    ∃ (tx : List Host.Cell) (st : Byte),
      exec .encode s = .next { s with block := { s.block with txbuf := tx, status := st } }
      ∧ memRead tx 0 = some op ∧ memRead tx 1 = some ps1 ∧ memRead tx 2 = some ps2 ∧ memRead tx 3 = some ps3
      ∧ memRead tx 4 = some ps4 ∧ (∀ a, 5 ≤ a → memRead tx a = memRead s.block.txbuf a)
      ∧ txValid st = true ∧ lastErr st = 0 ∧ psqValid st = psqValid s.block.status
      ∧ tlmValid st = tlmValid s.block.status ∧ illReq st = illReq s.block.status
      ∧ st.getLsbD 7 = s.block.status.getLsbD 7

/-- `ENCODE` answers a next state exactly when all of registers 2 to 6 hold a value (R77). -/
def Obligations.EncodeRunsExactlyOnWrittenOperands : Prop :=
  ∀ s : State, (∃ t, exec .encode s = .next t) ↔
    s.block.cmdOpcode.isSome ∧ s.block.cmdPs1.isSome ∧ s.block.cmdPs2.isSome ∧ s.block.cmdPs3.isSome
      ∧ s.block.cmdPs4.isSome

/-- `ENCODE` is injective (R79): the frame is five bytes long and holds the five operands in order, and two requests
that leave the same five bytes had the same five operands. -/
def Obligations.EncodeIsInjective : Prop :=
  (∀ op ps1 ps2 ps3 ps4 : Byte, ∃ f, f = encodeCommand op ps1 ps2 ps3 ps4 ∧ f.length = 5 ∧ f[0]? = some op
      ∧ f[1]? = some ps1 ∧ f[2]? = some ps2 ∧ f[3]? = some ps3 ∧ f[4]? = some ps4)
    ∧ (∀ s s' t t' : State, exec .encode s = .next t → exec .encode s' = .next t' →
        (∀ a, a < 5 → memRead t.block.txbuf a = memRead t'.block.txbuf a) →
        s.block.cmdOpcode = s'.block.cmdOpcode ∧ s.block.cmdPs1 = s'.block.cmdPs1 ∧ s.block.cmdPs2 = s'.block.cmdPs2
          ∧ s.block.cmdPs3 = s'.block.cmdPs3 ∧ s.block.cmdPs4 = s'.block.cmdPs4)

/-! ### DECODE -/

/-- `MemRead` (R33): the little-endian sum of the bytes, of width 8n bits, and no value if any byte holds none. -/
def Obligations.MemReadIsLittleEndian : Prop :=
  ∀ (m : List Host.Cell) (a n : Nat),
    (∀ b : Nat → Byte, (∀ k, k < n → memRead m (a + k) = some (b k)) →
      memReadLE m a n = some (∑ k ∈ Finset.range n, 2 ^ (8 * k) * (b k).toNat))
    ∧ (∀ k, k < n → memRead m (a + k) = none → memReadLE m a n = none)
    ∧ (∀ v, memReadLE m a n = some v → v < 2 ^ (8 * n))

/-- `DECODE` of a 16-byte frame whose bytes hold values (R82 to R86): the five fields are the little-endian sums of their
bytes, `TLM_VALID` is 1, `LAST_ERR` is 0, and nothing else changes. -/
def Obligations.DecodeExtractsTheFields : Prop :=
  ∀ (s : State) (b : Nat → Byte), s.block.rxLen = some 16 → (∀ a, a < 16 → memRead s.block.rxbuf a = some (b a)) →
    ∃ st : Byte,
      exec .decode s = .next { s with block := { s.block with
        tlmLat := some (BitVec.ofNat 32
          ((b 0).toNat + 2 ^ 8 * (b 1).toNat + 2 ^ 16 * (b 2).toNat + 2 ^ 24 * (b 3).toNat))
        tlmLon := some (BitVec.ofNat 32
          ((b 4).toNat + 2 ^ 8 * (b 5).toNat + 2 ^ 16 * (b 6).toNat + 2 ^ 24 * (b 7).toNat))
        tlmMx := some (BitVec.ofNat 16 ((b 8).toNat + 2 ^ 8 * (b 9).toNat))
        tlmMy := some (BitVec.ofNat 16 ((b 10).toNat + 2 ^ 8 * (b 11).toNat))
        tlmMz := some (BitVec.ofNat 16 ((b 12).toNat + 2 ^ 8 * (b 13).toNat))
        status := st } }
      ∧ tlmValid st = true ∧ lastErr st = 0 ∧ psqValid st = psqValid s.block.status
      ∧ txValid st = txValid s.block.status ∧ illReq st = illReq s.block.status
      ∧ st.getLsbD 7 = s.block.status.getLsbD 7

/-- `MalformedFrame` (R81, R87): any other length that can be presented writes `LAST_ERR` = 1 and nothing else,
whatever RXBUF holds. -/
def Obligations.MalformedFrameWritesOnlyItsCode : Prop :=
  ∀ (s : State) (n : Byte), s.block.rxLen = some n → n.toNat ≤ Config.rxMax → n.toNat ≠ 16 →
    ∃ st : Byte,
      exec .decode s = .next { s with block := { s.block with status := st } }
      ∧ lastErr st = 1 ∧ psqValid st = psqValid s.block.status ∧ txValid st = txValid s.block.status
      ∧ tlmValid st = tlmValid s.block.status ∧ illReq st = illReq s.block.status
      ∧ st.getLsbD 7 = s.block.status.getLsbD 7

/-- `DECODE` answers a next state exactly when `RX_LEN` holds a length that can be presented and, for length 16, every
byte of the frame holds a value (R86, R124). -/
def Obligations.DecodeRunsExactlyOnAFrame : Prop :=
  ∀ s : State, (∃ t, exec .decode s = .next t) ↔
    ∃ n, s.block.rxLen = some n ∧ n.toNat ≤ Config.rxMax
      ∧ (n.toNat = 16 → ∀ a, a < 16 → (memRead s.block.rxbuf a).isSome)

/-- The round trip (R88): the 16-byte frame built from any five fields and any pad is received and decodes to exactly
those fields; and two received frames of 16 bytes decode to the same packet exactly when their first 14 bytes agree. -/
def Obligations.TelemetryRoundTrip : Prop :=
  (∀ (s s1 : State) (lat lon : Word) (mx my mz pad : Half),
    hostRxFrame (encodeItem (.tlm lat lon mx my mz pad)) s = .next s1 →
    ∃ t, exec .decode s1 = .next t ∧ t.block.tlmLat = some lat ∧ t.block.tlmLon = some lon ∧ t.block.tlmMx = some mx
      ∧ t.block.tlmMy = some my ∧ t.block.tlmMz = some mz)
    ∧ (∀ (s s1 s2 t1 t2 : State) (f g : List Byte), f.length = 16 → g.length = 16 →
        hostRxFrame f s = .next s1 → hostRxFrame g s = .next s2 → exec .decode s1 = .next t1 →
        exec .decode s2 = .next t2 →
        ((t1.block.tlmLat = t2.block.tlmLat ∧ t1.block.tlmLon = t2.block.tlmLon ∧ t1.block.tlmMx = t2.block.tlmMx
          ∧ t1.block.tlmMy = t2.block.tlmMy ∧ t1.block.tlmMz = t2.block.tlmMz) ↔ f.take 14 = g.take 14))

/-- `DECODE` of a received frame is `decode_telemetry` (R80 to R87): for every frame that can be presented it ends in
the packet, or in `MalformedFrame` with the telemetry registers and `TLM_VALID` as they were. -/
def Obligations.DecodeRefinesDecodeTelemetry : Prop :=
  ∀ (s : State) (f : List Byte), f.length ≤ Config.rxMax →
    ∃ s1 t, hostRxFrame f s = .next s1 ∧ exec .decode s1 = .next t
      ∧ (∀ p, decodeTelemetry f = .ok p →
          t.block.tlmLat = some p.lat ∧ t.block.tlmLon = some p.lon ∧ t.block.tlmMx = some p.mx
            ∧ t.block.tlmMy = some p.my ∧ t.block.tlmMz = some p.mz ∧ tlmValid t.block.status = true
            ∧ lastErr t.block.status = 0)
      ∧ (∀ e, decodeTelemetry f = .error e →
          t.block = { s1.block with status := t.block.status } ∧ lastErr t.block.status = causeCode e
            ∧ tlmValid t.block.status = tlmValid s.block.status)

/-! ### The reserved request -/

/-- `IllegalRequest` (R120): the reserved code writes `LAST_ERR` = 5 and `ILL_REQ` = 1 and nothing else, and `ILL_REQ`
stays 1 over every step that is not a reset (a reset is presented as an input, log 4). -/
def Obligations.ReservedRequestIsIllegalRequest : Prop :=
  (∀ s : State, ∃ st : Byte,
    exec .reqReserved s = .next { s with block := { s.block with status := st } }
      ∧ lastErr st = 5 ∧ illReq st = true ∧ psqValid st = psqValid s.block.status
      ∧ txValid st = txValid s.block.status ∧ tlmValid st = tlmValid s.block.status
      ∧ st.getLsbD 7 = s.block.status.getLsbD 7)
    ∧ (∀ s t : State, step s = .next t → (∀ rest, s.inputs ≠ .reset :: rest) → illReq s.block.status = true →
        illReq t.block.status = true)

/-! ### What is refused -/

/-- Where the three requests have no meaning, and by which name the machine stops (R21, R30, R60, R68, R77, R86, R124):
the operands are tested in order, the first that fails names the stop. A length above `RX_MAX`, whose value is free (log 3),
is refused, and a lower one that is not 16 is malformed. -/
def Obligations.RequestsAreRefusedByName : Prop :=
  ∀ s : State,
    (s.block.psqDeg = none → exec .qmap s = .refused (.holdsNoValue .psqDeg))
      ∧ (∀ w, s.block.psqDeg = some w → degValue w = none → exec .qmap s = .refused .degreeNotANumber)
      ∧ (∀ w d, s.block.psqDeg = some w → degValue w = some d → ¬InDomain d →
          exec .qmap s = .refused .degreeOutOfDomain)
      ∧ (s.block.cmdOpcode = none → exec .encode s = .refused (.holdsNoValue .cmdOpcode))
      ∧ (s.block.cmdOpcode.isSome → s.block.cmdPs1 = none → exec .encode s = .refused (.holdsNoValue .cmdPs1))
      ∧ (s.block.cmdOpcode.isSome → s.block.cmdPs1.isSome → s.block.cmdPs2 = none →
          exec .encode s = .refused (.holdsNoValue .cmdPs2))
      ∧ (s.block.cmdOpcode.isSome → s.block.cmdPs1.isSome → s.block.cmdPs2.isSome → s.block.cmdPs3 = none →
          exec .encode s = .refused (.holdsNoValue .cmdPs3))
      ∧ (s.block.cmdOpcode.isSome → s.block.cmdPs1.isSome → s.block.cmdPs2.isSome → s.block.cmdPs3.isSome →
          s.block.cmdPs4 = none → exec .encode s = .refused (.holdsNoValue .cmdPs4))
      ∧ (s.block.rxLen = none → exec .decode s = .refused (.holdsNoValue .rxLen))
      ∧ (∀ a, s.block.rxLen = some 16 → a < 16 → (∀ a', a' < a → (memRead s.block.rxbuf a').isSome) →
          memRead s.block.rxbuf a = none → exec .decode s = .refused (.rxByteHoldsNoValue a))
      ∧ (∀ n, s.block.rxLen = some n → n ≠ 16 →
          exec .decode s =
            if Config.rxMax < n.toNat then .refused .rxLenAboveMax else .next (raiseError .malformedFrame s))

/-! ### The format rows (log 6) -/

/-- The three command frames (R49, R51, R58, R77, R107; their meaning as the tail of `SEND` is the model's reading,
log 6): registers 2 to 6 hold the packet, TXBUF[0..4] hold its five bytes, the same five bytes are handed to the radio
for node 2, `TX_VALID` is 1, `LAST_ERR` is 0, and nothing else changes. -/
def Obligations.CommandFramesAreSent : Prop :=
  ∀ (s : State) (ps1 ps2 ps3 ps4 op : Byte) (i : Instr),
    (i = .cmdNop ps1 ps2 ps3 ps4 ∧ op = 0) ∨ (i = .cmdBlink ps1 ps2 ps3 ps4 ∧ op = 1)
      ∨ (i = .cmdSetps ps1 ps2 ps3 ps4 ∧ op = 2) →
    ∃ (tx : List Host.Cell) (st : Byte),
      exec i s = .next { s with
        block := { s.block with
          cmdOpcode := some op, cmdPs1 := some ps1, cmdPs2 := some ps2, cmdPs3 := some ps3, cmdPs4 := some ps4
          txbuf := tx, status := st }
        radio := { s.radio with sent := s.radio.sent ++ [⟨[op, ps1, ps2, ps3, ps4], 2⟩] } }
      ∧ memReadBytes tx 0 5 = some [op, ps1, ps2, ps3, ps4] ∧ (∀ a, 5 ≤ a → memRead tx a = memRead s.block.txbuf a)
      ∧ txValid st = true ∧ lastErr st = 0 ∧ psqValid st = psqValid s.block.status
      ∧ tlmValid st = tlmValid s.block.status ∧ illReq st = illReq s.block.status
      ∧ st.getLsbD 7 = s.block.status.getLsbD 7

/-- A telemetry frame (R48, R58, R86; its meaning as `RECV` is the model's reading, log 6): RXBUF[0..15] hold the frame,
`RX_LEN` is 16, registers 8 to 12 hold the fields, `TLM_VALID` is 1, `LAST_ERR` is 0, `RD STATUS` returned `STATUS`, and
nothing else changes. -/
def Obligations.TelemetryFrameIsReceived : Prop :=
  ∀ (s : State) (lat lon : Word) (mx my mz pad : Half),
    ∃ (rx : List Host.Cell) (st : Byte),
      exec (.tlm lat lon mx my mz pad) s = .next { s with
        block := { s.block with
          rxLen := some 16, tlmLat := some lat, tlmLon := some lon, tlmMx := some mx, tlmMy := some my
          tlmMz := some mz, rxbuf := rx, status := st }
        console := { s.console with readData := some (.byte st) } }
      ∧ memReadBytes rx 0 16 = some (encodeItem (.tlm lat lon mx my mz pad))
      ∧ (∀ a, 16 ≤ a → memRead rx a = memRead s.block.rxbuf a)
      ∧ tlmValid st = true ∧ lastErr st = 0 ∧ psqValid st = psqValid s.block.status
      ∧ txValid st = txValid s.block.status ∧ illReq st = illReq s.block.status
      ∧ st.getLsbD 7 = s.block.status.getLsbD 7

/-- A control word (R52, R58, R67; its meaning as the head of `QMAP.n` for the degree 353 c / 63 is the model's reading,
log 6): that degree scales to the code exactly (R61), `PSQ_OUT` is the word and `RD PSQ_OUT` returned it, `PSQ_VALID` is
1, `LAST_ERR` is 0, and nothing else changes. -/
def Obligations.ControlWordIsProduced : Prop :=
  ∀ (s : State) (c : BitVec 6),
    scaled (degreeOfCode c) = (c.toNat : Rat) ∧
    ∃ st : Byte,
      exec (.psw c) s = .next { s with
        block := { s.block with
          psqDeg := some (.finite (degreeOfCode c)), psqOut := some (wordOfCode c), status := st }
        console := { s.console with readData := some (.byte (wordOfCode c)) } }
      ∧ psqValid st = true ∧ lastErr st = 0 ∧ txValid st = txValid s.block.status
      ∧ tlmValid st = tlmValid s.block.status ∧ illReq st = illReq s.block.status
      ∧ st.getLsbD 7 = s.block.status.getLsbD 7

/-! ### Purity -/

/-- Results depend on the operands alone (R19): two states that agree on a unit's operands, however else they differ,
get the same results from its request. -/
def Obligations.ResultsDependOnOperandsOnly : Prop :=
  (∀ s s' t t' : State, s.block.psqDeg = s'.block.psqDeg → exec .qmap s = .next t → exec .qmap s' = .next t' →
    t.block.psqOut = t'.block.psqOut)
    ∧ (∀ s s' t t' : State, s.block.cmdOpcode = s'.block.cmdOpcode → s.block.cmdPs1 = s'.block.cmdPs1 →
        s.block.cmdPs2 = s'.block.cmdPs2 → s.block.cmdPs3 = s'.block.cmdPs3 → s.block.cmdPs4 = s'.block.cmdPs4 →
        exec .encode s = .next t → exec .encode s' = .next t' →
        ∀ a, a < 5 → memRead t.block.txbuf a = memRead t'.block.txbuf a)
    ∧ (∀ s s' t t' : State, s.block.rxLen = some 16 → s'.block.rxLen = some 16 →
        (∀ a, a < 14 → memRead s.block.rxbuf a = memRead s'.block.rxbuf a) →
        exec .decode s = .next t → exec .decode s' = .next t' →
        t.block.tlmLat = t'.block.tlmLat ∧ t.block.tlmLon = t'.block.tlmLon ∧ t.block.tlmMx = t'.block.tlmMx
          ∧ t.block.tlmMy = t'.block.tlmMy ∧ t.block.tlmMz = t'.block.tlmMz)

/-- A request may be repeated and gives the same state (R67, R77, R86, corner cases). -/
def Obligations.RequestsRepeat : Prop :=
  ∀ (s t : State) (i : Instr), i = .qmap ∨ i = .encode ∨ i = .decode → MemWf s.block.txbuf →
    exec i s = .next t → exec i t = .next t

/-! ### The host's ports -/

/-- Host writes (R28): a value of the register's width written to register 0 or 2 to 7, or a byte of RXBUF, is what that
place then holds, and nothing else changes; a write to any other register is refused. -/
def Obligations.HostWritesOperandsOnly : Prop :=
  (∀ (s : State) (r : Reg) (v : RegValue) (t : State), hostWrite r v s = .next t →
    regValue t.block r = some v ∧ (∀ r', r' ≠ r → regValue t.block r' = regValue s.block r')
      ∧ t = { s with block := t.block } ∧ t.block.rxbuf = s.block.rxbuf ∧ t.block.txbuf = s.block.txbuf)
    ∧ (∀ (s : State) (d : DegWord), ∃ t, hostWrite .psqDeg (.degree d) s = .next t)
    ∧ (∀ (s : State) (r : Reg) (b : Byte), 2 ≤ regNumber r → regNumber r ≤ 7 → ∃ t, hostWrite r (.byte b) s = .next t)
    ∧ (∀ (s : State) (r : Reg) (v : RegValue), regNumber r = 1 ∨ 8 ≤ regNumber r →
        hostWrite r v s = .refused (.notHostWritable r))
    ∧ (∀ (s : State) (a : Nat) (b : Byte), a < Config.rxMax → ∃ rx,
        hostWriteRx a b s = .next { s with block := { s.block with rxbuf := rx } }
          ∧ memRead rx a = some b ∧ ∀ a', a' ≠ a → memRead rx a' = memRead s.block.rxbuf a')

/-- Host writes that the spec has no place for (R18, R32; the stops are the model's, log 16): a byte of RXBUF at or above
`RX_MAX` faults, and a value of another width than the operand register's is refused. -/
def Obligations.HostWritesOutsideStop : Prop :=
  ∀ s : State,
    (∀ a b, Config.rxMax ≤ a → hostWriteRx a b s = .fault (.rxOffsetOutside a))
      ∧ (∀ v, (∀ d, v ≠ .degree d) → hostWrite .psqDeg v s = .refused (.widthMismatch .psqDeg))
      ∧ (∀ r v, 2 ≤ regNumber r → regNumber r ≤ 7 → (∀ b, v ≠ .byte b) →
          hostWrite r v s = .refused (.widthMismatch r))

/-- Host reads (R21, R29, R38): a result register whose VALID bit is 0 is refused, and so is a register that holds no
value; any other read returns the value and changes no state of the block. The place the value is returned to is the
model's own (log 9). -/
def Obligations.HostReadsValidResultsOnly : Prop :=
  ∀ (s : State) (r : Reg),
    (readable s.block.status r = false → hostRead r s = .refused (.resultNotValid r))
      ∧ (readable s.block.status r = true → regValue s.block r = none → hostRead r s = .refused (.holdsNoValue r))
      ∧ (∀ v, readable s.block.status r = true → regValue s.block r = some v →
          hostRead r s = .next { s with console := { s.console with readData := some v } })
      ∧ (readable s.block.status r = false ↔
          (r = .psqOut ∧ psqValid s.block.status = false)
            ∨ (8 ≤ regNumber r ∧ regNumber r ≤ 12 ∧ tlmValid s.block.status = false))

/-- A host read of one byte of TXBUF (R18, R29): refused while `TX_VALID` is 0; with it set, the byte at each offset from
0 to 4 is returned and the block is as before; there is no byte above offset 4 (R32), which the model faults on (log 16). The place the byte is returned to is the
model's own (log 9). -/
def Obligations.HostReadsTheFrameWhenValid : Prop :=
  ∀ (s : State) (a : Nat),
    (a < 5 → txValid s.block.status = false → hostReadTx a s = .refused .txNotValid)
      ∧ (∀ b, a < 5 → txValid s.block.status = true → memRead s.block.txbuf a = some b →
          hostReadTx a s = .next { s with console := { s.console with readData := some (.byte b) } })
      ∧ (5 ≤ a → hostReadTx a s = .fault (.txOffsetOutside a))

/-- `RXFRAME` (R32, R57): the bytes stand at offsets 0 and up, `RX_LEN` is their count, every offset above the frame is
as before, and nothing else changes; a frame longer than `RX_MAX` is refused. -/
def Obligations.RxFrameWritesTheFrame : Prop :=
  ∀ (s : State) (f : List Byte),
    (f.length ≤ Config.rxMax → ∃ (rx : List Host.Cell) (n : Byte),
      hostRxFrame f s = .next { s with block := { s.block with rxbuf := rx, rxLen := some n } }
        ∧ n.toNat = f.length ∧ (∀ a, a < f.length → memRead rx a = f[a]?)
        ∧ (∀ a, f.length ≤ a → memRead rx a = memRead s.block.rxbuf a))
      ∧ (Config.rxMax < f.length → hostRxFrame f s = .refused .rxLenAboveMax)

/-! ### Reset -/

/-- Reset (R135; presented as an input, log 4): one step; `STATUS` is 0, registers 0 to 12 and every byte of both buffers
hold no value, and the host's state, the radio and what is still to happen are untouched. -/
def Obligations.ResetClearsTheBlock : Prop :=
  ∀ (s : State) (rest : List Input), s.inputs = .reset :: rest →
    ∃ b : Block,
      step s = .next { s with block := b, inputs := rest } ∧ b.status = 0
      ∧ (∀ r, r ≠ .status → regValue b r = none)
      ∧ (∀ a, memRead b.rxbuf a = none) ∧ (∀ a, memRead b.txbuf a = none)

/-- The state after reset (R30): `STATUS` is 0x00 and every other register and every byte of both buffers holds no
value. -/
def Obligations.ResetStateHoldsNoValue : Prop :=
  State.reset.block.status = 0x00 ∧ (∀ r, r ≠ .status → regValue State.reset.block r = none)
    ∧ (∀ a, memRead State.reset.block.rxbuf a = none) ∧ (∀ a, memRead State.reset.block.txbuf a = none)

/-! ### Whole-machine rules of the block -/

/-- Every step keeps the block's invariant: buffers in canonical form and inside their bounds, the reserved bit 0, a
`LAST_ERR` the block raises, a legal control word in `PSQ_OUT`, VALID bits that say what holds a value (R22, R29, R32,
R66, R118). -/
def Obligations.EveryStepKeepsTheBlockInvariant : Prop :=
  ∀ s t : State, BlockInv s.block → step s = .next t → BlockInv t.block

/-- The state after reset meets the block's invariant. -/
def Obligations.ResetMeetsTheBlockInvariant : Prop := BlockInv State.reset.block

/-- Each place has its writers (R21, "written by" and "host W"; R22, R26): a step that is no reset leaves `PSQ_OUT`
unless it runs a `QMAP`, TXBUF unless an `ENCODE`, registers 8 to 12 unless a `DECODE`, `STATUS` unless some request;
and it leaves an operand register, and RXBUF, unless a host line of it writes that place. Which requests and host lines
an input has is the model's reading (log 4, log 5, log 6). -/
def Obligations.ResultsHaveOneWriter : Prop :=
  ∀ (s t : State) (x : Input) (rest : List Input), s.inputs = x :: rest → x ≠ .reset → step s = .next t →
    (requestOf s.console.worker x ≠ some .qmap → t.block.psqOut = s.block.psqOut)
    ∧ (requestOf s.console.worker x ≠ some .encode → t.block.txbuf = s.block.txbuf)
    ∧ (requestOf s.console.worker x ≠ some .decode →
      t.block.tlmLat = s.block.tlmLat ∧ t.block.tlmLon = s.block.tlmLon ∧ t.block.tlmMx = s.block.tlmMx
        ∧ t.block.tlmMy = s.block.tlmMy ∧ t.block.tlmMz = s.block.tlmMz)
    ∧ (requestOf s.console.worker x = none → t.block.status = s.block.status)
    ∧ (∀ r, regNumber r = 0 ∨ 2 ≤ regNumber r ∧ regNumber r ≤ 7 → r ∉ hostWritesOf s.console.worker x →
      regValue t.block r = regValue s.block r)
    ∧ (writesRxBuf s.console.worker x = false → t.block.rxbuf = s.block.rxbuf)

/-- The UI never touches the block or the radio (R42, R115, R128): its send trigger sets the flag, an edit gives the named
string its new text, and what it comes to see of a scalar is the oldest write to it that it has not seen, whole, or
nothing if there is none; each leaves all else as it was. That these are inputs, and that the writes not seen yet are a
list, is the model's choice (log 4, log 28). -/
def Obligations.UiTouchesOnlyItsScalars : Prop :=
  ∀ (s : State) (rest : List Input),
    (s.inputs = .uiSend :: rest →
      step s = .next { s with inputs := rest, console := { s.console with pendingSend := true } })
    ∧ (∀ t, s.inputs = .uiEdit (.opcode t) :: rest →
      step s = .next { s with inputs := rest, console := { s.console with opcodeStr := t } })
    ∧ (∀ m, s.inputs = .uiEdit (.mode m) :: rest →
      step s = .next { s with inputs := rest, console := { s.console with mode := m } })
    ∧ (∀ t, s.inputs = .uiEdit (.angle t) :: rest →
      step s = .next { s with inputs := rest, console := { s.console with angleStr := t } })
    ∧ (∀ ch t, s.inputs = .uiEdit (.ps ch t) :: rest → ∃ q : Quad Text,
      step s = .next { s with inputs := rest, console := { s.console with psStr := q } }
        ∧ q.get ch = t ∧ ∀ ch', ch' ≠ ch → q.get ch' = s.console.psStr.get ch')
    ∧ (∀ k, s.inputs = .uiSees k :: rest →
      (∀ pre w post, s.console.unseen = pre ++ w :: post → w.scalar = k → (∀ x ∈ pre, x.scalar ≠ k) →
        step s = .next { s with
          inputs := rest
          console := { s.console with screen := putShown s.console.screen w, unseen := pre ++ post } })
      ∧ ((∀ x ∈ s.console.unseen, x.scalar ≠ k) → step s = .next { s with inputs := rest }))

/-- What the UI sees, with the writes it does not see yet done in order, is what the Link Worker wrote (R42): every step
keeps that, whatever order the writes to different scalars become visible in (log 28). -/
def Obligations.EveryStepKeepsTheDisplayInvariant : Prop :=
  ∀ s t : State, DisplayInv s.console → step s = .next t → DisplayInv t.console

/-! ### The Link Worker and the Command Assembler -/

/-- The loop follows the states of R104: every move stays in its state or takes one of the arrows. The refinement into
single moves is the model's (log 5). -/
def Obligations.LoopFollowsItsStates : Prop :=
  ∀ (s t : State) (p : Option (List Byte)), workerMove p s = .next t →
    loopState t.console.worker = loopState s.console.worker
      ∨ loopArrow (loopState s.console.worker) (loopState t.console.worker) = true

/-- A good inbound frame (R106): eleven moves after it was polled the receive counter is one higher, the decoded fields,
the signal strength and the counter are published, and the send check is next. The number of moves and the order of the
writes are the model's refinement (log 5). -/
def Obligations.GoodFrameIsPublished : Prop :=
  ∀ (s : State) (f : List Byte) (p : Telemetry) (rest : List Input),
    s.console.worker = .telemetryReceived f → decodeTelemetry f = .ok p → s.inputs = workerMoves 11 ++ rest →
    ∃ t, Host.Core.run core 11 s = .next t ∧ t.inputs = rest ∧ t.radio = s.radio
      ∧ t.console = { s.console with
          worker := .checkSendRequest, rxCount := s.console.rxCount + 1
          display := { s.console.display with
            lat := some p.lat, lon := some p.lon, mx := some p.mx, my := some p.my, mz := some p.mz
            signal := some s.radio.signal, count := some (s.console.rxCount + 1) }
          unseen := s.console.unseen ++ [.lat p.lat, .lon p.lon, .mx p.mx, .my p.my, .mz p.mz,
            .signal s.radio.signal, .count (s.console.rxCount + 1)] }

/-- A malformed inbound frame of any length (R87, R106, R119): after the moves that handle it (one for a frame longer
than `RX_MAX`, for which no request is issued, else three) it is logged, the counter, what is published and the
telemetry registers are as before, and the loop goes on to its send check. -/
def Obligations.MalformedFrameIsLogged : Prop :=
  ∀ (s : State) (f : List Byte) (rest : List Input) (n : Nat),
    s.console.worker = .telemetryReceived f → f.length ≠ 16 → n = (if Config.rxMax < f.length then 1 else 3) →
    s.inputs = workerMoves n ++ rest →
    ∃ t, Host.Core.run core n s = .next t ∧ t.inputs = rest ∧ t.radio = s.radio
      ∧ t.console = { s.console with
          worker := .checkSendRequest, malformedLog := s.console.malformedLog + 1 }
      ∧ t.block.tlmLat = s.block.tlmLat ∧ t.block.tlmLon = s.block.tlmLon ∧ t.block.tlmMx = s.block.tlmMx
      ∧ t.block.tlmMy = s.block.tlmMy ∧ t.block.tlmMz = s.block.tlmMz
      ∧ tlmValid t.block.status = tlmValid s.block.status

/-- The send flag (R107, R109, R110, R141): a set between the worker's read and its clear is lost; no other move of the
worker changes the flag, so a set after the clear is kept; and a second set before the drain changes nothing. -/
def Obligations.SendFlagRace : Prop :=
  (∀ (s : State) (p : Option (List Byte)) (rest : List Input),
    s.console.worker = .clearingFlag → s.inputs = .uiSend :: .worker p :: rest →
    ∃ t, Host.Core.run core 2 s = .next t ∧ t.console.pendingSend = false ∧ t.console.worker = .readingOpcode
      ∧ t.inputs = rest)
    ∧ (∀ (s t : State) (p : Option (List Byte)) (rest : List Input),
        s.console.worker ≠ .clearingFlag → s.inputs = .worker p :: rest → step s = .next t →
        t.console.pendingSend = s.console.pendingSend)
    ∧ (∀ s : State, uiSend (uiSend s) = uiSend s)

/-- The send check with the flag clear (R107, R110): the iteration ends, and nothing else changes. -/
def Obligations.SendCheckWithoutRequest : Prop :=
  ∀ (s : State) (p : Option (List Byte)), s.console.worker = .checkSendRequest → s.console.pendingSend = false →
    workerMove p s = .next { s with console := { s.console with worker := .idle } }

/-- One drain, uninterrupted, of inputs that assemble to a packet transmits exactly one frame, that packet's, to node 2;
the flag is clear, the error message is empty, and the loop is idle (R98, R107, R110; 95_test_vectors.md S10). The number
of moves is the model's refinement (log 5). -/
def Obligations.DrainTransmitsTheAssembledFrame : Prop :=
  ∀ (s : State) (op : Byte) (ps : Quad Byte) (rest : List Input) (n : Nat),
    s.console.worker = .checkSendRequest → s.console.pendingSend = true → assemble s.console = .packet op ps →
    n = (if s.console.mode = .direct then 25 else 26) → s.inputs = workerMoves n ++ rest →
    ∃ t, Host.Core.run core n s = .next t ∧ t.inputs = rest
      ∧ t.radio = { s.radio with sent := s.radio.sent ++ [⟨encodeCommand op ps.c1 ps.c2 ps.c3 ps.c4, 2⟩] }
      ∧ t.console.pendingSend = false ∧ t.console.worker = .idle ∧ t.console.rxCount = s.console.rxCount
      ∧ { t.console.display with calculated := s.console.display.calculated }
        = { s.console.display with errorMessage := [] }

/-- A drain whose assembly gives no packet consumes the request and transmits nothing; the block is exactly as it was; a
validation error leaves a message that is not empty, an unrecognised mode leaves the message and all else of the host
as it was (R100, R107, R121, R122). The moves are the model's refinement (log 5). -/
def Obligations.FailedAssemblyTransmitsNothing : Prop :=
  ∀ (s : State) (rest : List Input) (a : Assembled),
    s.console.worker = .checkSendRequest → s.console.pendingSend = true → assemble s.console = a →
    ((∃ e, a = .error e) ∨ a = .nothing) → s.inputs = rest →
    ∃ n t, Host.Core.run core n { s with inputs := workerMoves n ++ rest } = .next t ∧ t.inputs = rest
      ∧ t.block = s.block ∧ t.radio = s.radio ∧ t.console.pendingSend = false ∧ t.console.worker = .idle
      ∧ (∀ e, a = .error e → t.console.display.errorMessage ≠ [])
      ∧ (a = .nothing → t.console = { s.console with worker := .idle, pendingSend := false })

/-- Every CommandPacket the assembler returns is valid (R99). -/
def Obligations.AssembledPacketsAreValid : Prop :=
  ∀ (c : Console) (op : Byte) (ps : Quad Byte), assemble c = .packet op ps →
    validCommandPacket op ps.c1 ps.c2 ps.c3 ps.c4 = true

/-- Mode `BEAM` (R95), for whatever the calculator is (log 13): with p the calculator's wrapped phase of the angle, the
packet is p's word on channels 1 and 3 and the word of zero on channels 2 and 4, or a range error when p denotes no
number in [0, 353] (R97); five moves publish the four values p, 0, p, 0, one scalar each, and lead to the range test of
them, with nothing else changed; and the phase of a number lies in WRAP_RANGE (R10), or at its lower end. That a
documented range is half-open with rational ends, and that the phase falls back to the lower end, is the model's choice
(log 13), and so is that the values are published before the range test (log 26). -/
def Obligations.BeamModeChannels : Prop :=
  (∀ (c : Console) (n a : Int), c.mode = .beam → parseInt c.opcodeStr = some n → 0 ≤ n → n ≤ 2 →
    parseInt c.angleStr = some a →
    assemble c =
      (match degValue (wrapPhase (Config.phaseShiftForAngle Config.geometryRatio a)) with
      | some p =>
        if inDegDomain p then
          .packet (BitVec.ofInt 8 n) ⟨quantizeAndMap p, 0x20, quantizeAndMap p, 0x20⟩
        else .error .invalidPhaseShifterRange
      | none => .error .invalidPhaseShifterRange))
    ∧ (∀ (s : State) (op : Byte) (a : Int) (rest : List Input),
        s.console.worker = .readingAngle op → parseInt s.console.angleStr = some a → s.inputs = workerMoves 5 ++ rest →
        ∃ p : DegWord, p = wrapPhase (Config.phaseShiftForAngle Config.geometryRatio a)
          ∧ Host.Core.run core 5 s = .next { s with
              inputs := rest
              console := { s.console with
                worker := .checkingRange op ⟨degValue p, some 0, degValue p, some 0⟩
                display := { s.console.display with
                  calculated := ⟨some p, some (.finite 0), some p, some (.finite 0)⟩ }
                unseen := s.console.unseen ++ [.calculated .c1 p, .calculated .c2 (.finite 0), .calculated .c3 p,
                  .calculated .c4 (.finite 0)] } })
    ∧ (∀ (w : DegWord) (q : Rat), degValue w = some q → ∃ p : Rat, degValue (wrapPhase w) = some p
        ∧ (Config.wrapRange.low ≤ p ∧ p < Config.wrapRange.high ∨ p = Config.wrapRange.low))

/-- The order of the assembler's tests (R92, R93, R96, R97): a bad opcode whatever else; then an unrecognised mode; then,
in mode `DIRECT`, any degree that is missing or outside [0, 353]. -/
def Obligations.AssemblerTestsInOrder : Prop :=
  (∀ c : Console, (∀ n, parseInt c.opcodeStr = some n → n < 0 ∨ 2 < n) → assemble c = .error .invalidOpcode)
    ∧ (∀ (c : Console) (n : Int), parseInt c.opcodeStr = some n → 0 ≤ n → n ≤ 2 → c.mode = .other →
        assemble c = .nothing)
    ∧ (∀ (c : Console) (n : Int) (ch : Channel), parseInt c.opcodeStr = some n → 0 ≤ n → n ≤ 2 → c.mode = .direct →
        (∀ d, parseNumber (c.psStr.get ch) = some d → ¬ InDomain d) →
        assemble c = .error .invalidPhaseShifterRange)

/-- The parsers on what R101 pins: a string of decimal digits is the number it spells under both, and "abc" parses under
neither. -/
def Obligations.ParsersOnDigitStrings : Prop :=
  (∀ (ds : List (Fin 10)), ds ≠ [] →
    parseInt (ds.map fun d => Char.ofNat (48 + d.val)) = some ((ds.foldl (fun n d => 10 * n + d.val) 0 : Nat) : Int)
      ∧ parseNumber (ds.map fun d => Char.ofNat (48 + d.val))
          = some ((ds.foldl (fun n d => 10 * n + d.val) 0 : Nat) : Rat))
    ∧ parseInt ['a', 'b', 'c'] = none ∧ parseNumber ['a', 'b', 'c'] = none

/-- Every step of the system (worker, UI, radio; the worker the only requester, log 15) keeps the system invariant:
what the worker's next line needs is in the block, and every frame handed to the radio so far carries a valid
CommandPacket to node 2 (R17, R75, R99, R103). -/
def Obligations.EveryStepKeepsTheSystemInvariant : Prop :=
  ∀ s t : State, SystemInv s → NextOfSystem s → step s = .next t → SystemInv t

/-- The state after reset meets the system invariant and the invariant of the display. -/
def Obligations.ResetMeetsTheSystemInvariant : Prop := SystemInv State.reset ∧ DisplayInv State.reset.console

/-- The loop never stops (R111, R112, R117, R126): in a state that meets the system invariant, a step of the system
answers a next state, but for the one invocation the spec gives no meaning, a beam angle that does not parse (R95). -/
def Obligations.TheLoopNeverStops : Prop :=
  ∀ s : State, SystemInv s → NextOfSystem s →
    (∃ t, step s = .next t)
      ∨ (∃ op, s.console.worker = .readingAngle op) ∧ parseInt s.console.angleStr = none
        ∧ step s = .refused .beamAngleNotAnInteger

/-- A step hands at most one frame to the radio: five bytes for node 2 (R107, R110, R113). -/
def Obligations.AtMostOneTransmissionPerStep : Prop :=
  ∀ s t : State, step s = .next t →
    t.radio.sent = s.radio.sent
      ∨ ∃ f : List Byte, f.length = 5 ∧ t.radio.sent = s.radio.sent ++ [⟨f, 2⟩]
end

