-- ==== Sys2Proof/Laws/State.lean ====
section
/-! SUPPORT. One lemma per part of the state per named update, and one lemma per sequencing operation. -/

namespace Sys2Proof.Machine

@[simp] theorem setBlock_block (b : Block) (s : State) : (setBlock b s).block = b := rfl
@[simp] theorem setBlock_console (b : Block) (s : State) : (setBlock b s).console = s.console := rfl
@[simp] theorem setBlock_radio (b : Block) (s : State) : (setBlock b s).radio = s.radio := rfl
@[simp] theorem setBlock_inputs (b : Block) (s : State) : (setBlock b s).inputs = s.inputs := rfl
@[simp] theorem setBlock_setBlock (b c : Block) (s : State) : setBlock b (setBlock c s) = setBlock b s := rfl

@[simp] theorem setConsole_block (c : Console) (s : State) : (setConsole c s).block = s.block := rfl
@[simp] theorem setConsole_console (c : Console) (s : State) : (setConsole c s).console = c := rfl
@[simp] theorem setConsole_radio (c : Console) (s : State) : (setConsole c s).radio = s.radio := rfl
@[simp] theorem setConsole_inputs (c : Console) (s : State) : (setConsole c s).inputs = s.inputs := rfl

@[simp] theorem goto_block (w : Worker) (s : State) : (goto w s).block = s.block := rfl
@[simp] theorem goto_console (w : Worker) (s : State) : (goto w s).console = { s.console with worker := w } := rfl
@[simp] theorem goto_radio (w : Worker) (s : State) : (goto w s).radio = s.radio := rfl
@[simp] theorem goto_inputs (w : Worker) (s : State) : (goto w s).inputs = s.inputs := rfl

@[simp] theorem setReadData_block (v : RegValue) (s : State) : (setReadData v s).block = s.block := rfl
@[simp] theorem setReadData_console (v : RegValue) (s : State) :
    (setReadData v s).console = { s.console with readData := some v } := rfl
@[simp] theorem setReadData_radio (v : RegValue) (s : State) : (setReadData v s).radio = s.radio := rfl
@[simp] theorem setReadData_inputs (v : RegValue) (s : State) : (setReadData v s).inputs = s.inputs := rfl

@[simp] theorem resetBlock_block (s : State) : (resetBlock s).block = Block.reset := rfl
@[simp] theorem resetBlock_console (s : State) : (resetBlock s).console = s.console := rfl
@[simp] theorem resetBlock_radio (s : State) : (resetBlock s).radio = s.radio := rfl
@[simp] theorem resetBlock_inputs (s : State) : (resetBlock s).inputs = s.inputs := rfl

@[simp] theorem raiseError_block (e : ErrorKind) (s : State) :
    (raiseError e s).block = { s.block with status := statusError e s.block.status } := rfl
@[simp] theorem raiseError_console (e : ErrorKind) (s : State) : (raiseError e s).console = s.console := rfl
@[simp] theorem raiseError_radio (e : ErrorKind) (s : State) : (raiseError e s).radio = s.radio := rfl
@[simp] theorem raiseError_inputs (e : ErrorKind) (s : State) : (raiseError e s).inputs = s.inputs := rfl

@[simp] theorem raiseValidation_block (e : ErrorKind) (s : State) : (raiseValidation e s).block = s.block := by
  cases e <;> rfl
@[simp] theorem raiseValidation_radio (e : ErrorKind) (s : State) : (raiseValidation e s).radio = s.radio := by
  cases e <;> rfl
@[simp] theorem raiseValidation_inputs (e : ErrorKind) (s : State) : (raiseValidation e s).inputs = s.inputs := by
  cases e <;> rfl
/-- Raising a validation error moves the worker and nothing else. -/
theorem raiseValidation_eq (e : ErrorKind) (s : State) :
    ∃ w, raiseValidation e s = goto w s ∧ (w = .idle ∨ w = .reporting e) := by
  cases e
  case unsupportedMode => exact ⟨_, rfl, .inl rfl⟩
  all_goals exact ⟨_, rfl, .inr rfl⟩
@[simp] theorem raiseValidation_pendingSend (e : ErrorKind) (s : State) :
    (raiseValidation e s).console.pendingSend = s.console.pendingSend := by
  cases e <;> rfl

@[simp] theorem reportError_block (e : ErrorKind) (s : State) : (reportError e s).block = s.block := rfl
@[simp] theorem reportError_radio (e : ErrorKind) (s : State) : (reportError e s).radio = s.radio := rfl
@[simp] theorem reportError_inputs (e : ErrorKind) (s : State) : (reportError e s).inputs = s.inputs := rfl
@[simp] theorem reportError_worker (e : ErrorKind) (s : State) : (reportError e s).console.worker = .idle := rfl
@[simp] theorem reportError_pendingSend (e : ErrorKind) (s : State) :
    (reportError e s).console.pendingSend = s.console.pendingSend := rfl

@[simp] theorem showWrite_display (w : ShownWrite) (c : Console) :
    (showWrite w c).display = putShown c.display w := rfl
@[simp] theorem showWrite_screen (w : ShownWrite) (c : Console) : (showWrite w c).screen = c.screen := rfl
@[simp] theorem showWrite_unseen (w : ShownWrite) (c : Console) : (showWrite w c).unseen = c.unseen ++ [w] := rfl
@[simp] theorem showWrite_worker (w : ShownWrite) (c : Console) : (showWrite w c).worker = c.worker := rfl
@[simp] theorem showWrite_pendingSend (w : ShownWrite) (c : Console) :
    (showWrite w c).pendingSend = c.pendingSend := rfl
@[simp] theorem showWrite_rxCount (w : ShownWrite) (c : Console) : (showWrite w c).rxCount = c.rxCount := rfl

@[simp] theorem uiSees_block (k : Shown) (s : State) : (uiSees k s).block = s.block := rfl
@[simp] theorem uiSees_console (k : Shown) (s : State) : (uiSees k s).console = deliver k s.console := rfl
@[simp] theorem uiSees_radio (k : Shown) (s : State) : (uiSees k s).radio = s.radio := rfl
@[simp] theorem uiSees_inputs (k : Shown) (s : State) : (uiSees k s).inputs = s.inputs := rfl

/-- All that a delivery can do: the screen and the writes not seen yet change. -/
theorem deliver_eq (k : Shown) (c : Console) :
    ∃ d ws, deliver k c = { c with screen := d, unseen := ws } := by
  unfold deliver
  split
  · exact ⟨_, _, rfl⟩
  · exact ⟨_, _, rfl⟩

@[simp] theorem deliver_display (k : Shown) (c : Console) : (deliver k c).display = c.display := by
  obtain ⟨_, _, h⟩ := deliver_eq k c
  rw [h]
@[simp] theorem deliver_worker (k : Shown) (c : Console) : (deliver k c).worker = c.worker := by
  obtain ⟨_, _, h⟩ := deliver_eq k c
  rw [h]
@[simp] theorem deliver_pendingSend (k : Shown) (c : Console) : (deliver k c).pendingSend = c.pendingSend := by
  obtain ⟨_, _, h⟩ := deliver_eq k c
  rw [h]

@[simp] theorem recordTransmit_block (f : List Byte) (s : State) : (recordTransmit f s).block = s.block := rfl
@[simp] theorem recordTransmit_console (f : List Byte) (s : State) : (recordTransmit f s).console = s.console := rfl
@[simp] theorem recordTransmit_radio (f : List Byte) (s : State) :
    (recordTransmit f s).radio = { s.radio with sent := s.radio.sent ++ [⟨f, Config.remoteId⟩] } := rfl
@[simp] theorem recordTransmit_inputs (f : List Byte) (s : State) : (recordTransmit f s).inputs = s.inputs := rfl

@[simp] theorem setInputs_block (xs : List Input) (s : State) : (setInputs xs s).block = s.block := rfl
@[simp] theorem setInputs_console (xs : List Input) (s : State) : (setInputs xs s).console = s.console := rfl
@[simp] theorem setInputs_radio (xs : List Input) (s : State) : (setInputs xs s).radio = s.radio := rfl
@[simp] theorem setInputs_inputs (xs : List Input) (s : State) : (setInputs xs s).inputs = xs := rfl

@[simp] theorem andThen_next (s : State) (k : State → Result) : andThen (.next s) k = k s := rfl
@[simp] theorem andThen_fault (f : Fault) (k : State → Result) : andThen (.fault f) k = .fault f := rfl
@[simp] theorem andThen_refused (e : Refusal) (k : State → Result) : andThen (.refused e) k = .refused e := rfl

@[simp] theorem needs_some {α : Type} (r : Reg) (x : α) (k : α → Result) : needs r (some x) k = k x := rfl
@[simp] theorem needs_none {α : Type} (r : Reg) (k : α → Result) : needs r none k = .refused (.holdsNoValue r) := rfl

/-- All that `andThen` can do when it answers a next state. -/
theorem andThen_eq_next {r : Result} {k : State → Result} {t : State} (h : andThen r k = .next t) :
    ∃ s, r = .next s ∧ k s = .next t := by
  cases r with
  | next s => exact ⟨s, rfl, h⟩
  | fault f => cases h
  | refused e => cases h

/-- All that `needs` can do when it answers a next state. -/
theorem needs_eq_next {α : Type} {r : Reg} {v : Option α} {k : α → Result} {t : State}
    (h : needs r v k = .next t) : ∃ x, v = some x ∧ k x = .next t := by
  cases v with
  | some x => exact ⟨x, rfl, h⟩
  | none => cases h

/-- A step with an input to happen does that input. -/
theorem step_cons {s : State} {x : Input} {rest : List Input} (h : s.inputs = x :: rest) :
    step s = perform x (setInputs rest s) := by
  simp [step, stepInput, h]

end Sys2Proof.Machine
end

