-- ==== Sys2Proof/Laws/Codes.lean ====
section
/-! SUPPORT. The control word and the byte fields: finite facts checked once, and little-endian splitting. -/

namespace Sys2Proof.Machine

/-- The loop of R64 and R65 gives the layout of R52. -/
theorem controlWord_eq_wordOfCode : ∀ c : BitVec 6, controlWord c = wordOfCode c := by decide

/-- The code is recovered from the word (R72). -/
@[simp] theorem codeOfWord_wordOfCode : ∀ c : BitVec 6, codeOfWord (wordOfCode c) = c := by decide

/-- Every control word is legal (R66). -/
@[simp] theorem legal_wordOfCode : ∀ c : BitVec 6, legalControlWord (wordOfCode c) = true := by decide

/-- A legal word is the word of the code it holds (R72). -/
theorem wordOfCode_codeOfWord : ∀ w : Byte, legalControlWord w = true → wordOfCode (codeOfWord w) = w := by decide

theorem legal_quantizeAndMap (d : Rat) : legalControlWord (quantizeAndMap d) = true := by
  rw [quantizeAndMap, controlWord_eq_wordOfCode, legal_wordOfCode]

/-- A control word is no request code: its bit 5 is 1. -/
theorem decodeByte_wordOfCode : ∀ c : BitVec 6, decodeByte (wordOfCode c) = .ok (.psw c) := by
  intro c
  have h : ∀ c : BitVec 6, ¬ wordOfCode c = 0 ∧ ¬ wordOfCode c = 1 ∧ ¬ wordOfCode c = 2 ∧ ¬ wordOfCode c = 3 := by
    decide
  obtain ⟨h0, h1, h2, h3⟩ := h c
  rw [decodeByte, if_neg h0, if_neg h1, if_neg h2, if_neg h3, if_pos (legal_wordOfCode c), codeOfWord_wordOfCode]

/-- The number a little-endian 16-bit word stands for (R35). -/
theorem half_toNat (b0 b1 : Byte) : (half b0 b1).toNat = b0.toNat + 256 * b1.toNat := by
  have := b0.isLt
  simp only [half, BitVec.toNat_append]
  rw [← Nat.shiftLeft_add_eq_or_of_lt (i := 8) (b := b0.toNat) (by omega), Nat.shiftLeft_eq]
  omega

/-- The number a little-endian 32-bit word stands for (R35). -/
theorem word_toNat (b0 b1 b2 b3 : Byte) :
    (word b0 b1 b2 b3).toNat = b0.toNat + 256 * (b1.toNat + 256 * (b2.toNat + 256 * b3.toNat)) := by
  have := b0.isLt
  have := b1.isLt
  have := b2.isLt
  simp only [word, BitVec.toNat_append]
  rw [← Nat.shiftLeft_add_eq_or_of_lt (a := b3.toNat) (by omega),
    ← Nat.shiftLeft_add_eq_or_of_lt (i := 8) (b := b1.toNat) (by omega),
    ← Nat.shiftLeft_add_eq_or_of_lt (i := 8) (b := b0.toNat) (by omega)]
  simp only [Nat.shiftLeft_eq]
  omega

/-- Byte `k` of a word as a number. -/
theorem byteOf_toNat {w : Nat} (x : BitVec w) (k : Nat) : (byteOf x k).toNat = x.toNat / 2 ^ (8 * k) % 256 := by
  simp [byteOf, Nat.shiftRight_eq_div_pow]

/-- The bytes of the word of two bytes are those bytes. -/
theorem byteOf_half (b0 b1 : Byte) : byteOf (half b0 b1) 0 = b0 ∧ byteOf (half b0 b1) 1 = b1 := by
  have := b0.isLt
  have := b1.isLt
  constructor <;> apply BitVec.eq_of_toNat_eq <;> rw [byteOf_toNat, half_toNat] <;> omega

/-- The bytes of the word of four bytes are those bytes. -/
theorem byteOf_word (b0 b1 b2 b3 : Byte) : byteOf (word b0 b1 b2 b3) 0 = b0 ∧ byteOf (word b0 b1 b2 b3) 1 = b1
    ∧ byteOf (word b0 b1 b2 b3) 2 = b2 ∧ byteOf (word b0 b1 b2 b3) 3 = b3 := by
  have := b0.isLt
  have := b1.isLt
  have := b2.isLt
  have := b3.isLt
  refine ⟨?_, ?_, ?_, ?_⟩ <;> apply BitVec.eq_of_toNat_eq <;> rw [byteOf_toNat, word_toNat] <;> omega

/-- A 16-bit word is the word of its bytes. -/
theorem half_bytes (x : Half) : half (byteOf x 0) (byteOf x 1) = x := by
  have := x.isLt
  apply BitVec.eq_of_toNat_eq
  rw [half_toNat, byteOf_toNat, byteOf_toNat]
  omega

/-- A 32-bit word is the word of its bytes. -/
theorem word_bytes (x : Word) : word (byteOf x 0) (byteOf x 1) (byteOf x 2) (byteOf x 3) = x := by
  have := x.isLt
  apply BitVec.eq_of_toNat_eq
  rw [word_toNat, byteOf_toNat, byteOf_toNat, byteOf_toNat, byteOf_toNat]
  omega

/-- The bytes of a telemetry frame, pad last (R48). -/
theorem encodeItem_tlm (lat lon : Word) (mx my mz pad : Half) :
    encodeItem (.tlm lat lon mx my mz pad) =
      [byteOf lat 0, byteOf lat 1, byteOf lat 2, byteOf lat 3, byteOf lon 0, byteOf lon 1, byteOf lon 2, byteOf lon 3,
        byteOf mx 0, byteOf mx 1, byteOf my 0, byteOf my 1, byteOf mz 0, byteOf mz 1, byteOf pad 0, byteOf pad 1] := rfl

/-- Sixteen bytes are a telemetry frame with its fields at 0, 4, 8, 10 and 12 and its pad at 14 (R48). -/
theorem decodeItem_sixteen (b0 b1 b2 b3 b4 b5 b6 b7 b8 b9 b10 b11 b12 b13 b14 b15 : Byte) :
    decodeItem [b0, b1, b2, b3, b4, b5, b6, b7, b8, b9, b10, b11, b12, b13, b14, b15] =
      .ok (.tlm (word b0 b1 b2 b3) (word b4 b5 b6 b7) (half b8 b9) (half b10 b11) (half b12 b13) (half b14 b15)) := rfl

end Sys2Proof.Machine
end

