-- ==== Sys2Proof/Laws/Display.lean ====
section
/-! SUPPORT. The scalars the Link Worker writes and the UI reads (20_memory.md R42): writes to different scalars commute,
so a write may become visible before older writes to other scalars. -/

namespace Sys2Proof.Machine

/-- Replacing the entries of two different channels commutes. -/
theorem Quad.set_comm {α : Type} (q : Quad α) {ch ch' : Channel} (x y : α) (h : ch ≠ ch') :
    (q.set ch x).set ch' y = (q.set ch' y).set ch x := by
  cases ch <;> cases ch' <;> first | rfl | exact absurd rfl h

/-- Writes to different scalars commute. -/
theorem putShown_comm (d : Display) {a b : ShownWrite} (h : a.scalar ≠ b.scalar) :
    putShown (putShown d a) b = putShown (putShown d b) a := by
  cases a <;> cases b <;> simp only [ShownWrite.scalar, ne_eq, not_true_eq_false] at h <;> try rfl
  rename_i ch x ch' y
  have hch : ch ≠ ch' := fun e => h (e ▸ rfl)
  simp only [putShown, Quad.set_comm d.calculated (some x) (some y) hch]

/-- All that `takeWrite` can give: a write to the scalar asked for, older than every other write to it. -/
theorem takeWrite_eq_some {k : Shown} {ws : List ShownWrite} {w : ShownWrite} {rest : List ShownWrite}
    (h : takeWrite k ws = some (w, rest)) :
    ∃ pre post, ws = pre ++ w :: post ∧ rest = pre ++ post ∧ w.scalar = k ∧ ∀ x ∈ pre, x.scalar ≠ k := by
  induction ws generalizing rest with
  | nil => cases h
  | cons v vs ih =>
    unfold takeWrite at h
    split at h
    · rename_i hv
      cases h
      exact ⟨[], vs, rfl, rfl, hv, by simp⟩
    · rename_i hv
      obtain ⟨⟨w', rest'⟩, hr, hw⟩ := Option.map_eq_some_iff.1 h
      cases hw
      obtain ⟨pre, post, h1, h2, h3, h4⟩ := ih hr
      exact ⟨v :: pre, post, by rw [h1]; rfl, by rw [h2]; rfl, h3, List.forall_mem_cons.2 ⟨hv, h4⟩⟩

/-- Taking the oldest write to a scalar. -/
theorem takeWrite_middle {k : Shown} {pre : List ShownWrite} {w : ShownWrite} (post : List ShownWrite)
    (hw : w.scalar = k) (h : ∀ x ∈ pre, x.scalar ≠ k) : takeWrite k (pre ++ w :: post) = some (w, pre ++ post) := by
  induction pre with
  | nil => simp [takeWrite, hw]
  | cons v pre ih =>
    obtain ⟨hv, hp⟩ := List.forall_mem_cons.1 h
    simp [takeWrite, hv, ih hp]

/-- With no write to a scalar there is nothing to take. -/
theorem takeWrite_eq_none {k : Shown} {ws : List ShownWrite} (h : ∀ x ∈ ws, x.scalar ≠ k) : takeWrite k ws = none := by
  induction ws with
  | nil => rfl
  | cons v ws ih =>
    obtain ⟨hv, hp⟩ := List.forall_mem_cons.1 h
    simp [takeWrite, hv, ih hp]

/-- A write may be done before writes to other scalars. -/
theorem foldl_putShown_middle (d : Display) {pre : List ShownWrite} {w : ShownWrite} (post : List ShownWrite)
    (h : ∀ x ∈ pre, x.scalar ≠ w.scalar) :
    (pre ++ w :: post).foldl putShown d = (pre ++ post).foldl putShown (putShown d w) := by
  induction pre generalizing d with
  | nil => rfl
  | cons v pre ih =>
    obtain ⟨hv, hp⟩ := List.forall_mem_cons.1 h
    rw [List.cons_append, List.foldl_cons, ih (putShown d v) hp, putShown_comm d hv]
    rfl

end Sys2Proof.Machine
end

