-- ==== Sys2Proof/Laws/Flags.lean ====
section
/-! SUPPORT. What each `STATUS` operation does to each field (10_state.md R22). -/

namespace Sys2Proof.Machine

theorem flags_statusDone_psq : ∀ st : Byte,
    psqValid (statusDone psqValidBit st) = true ∧ txValid (statusDone psqValidBit st) = txValid st
      ∧ tlmValid (statusDone psqValidBit st) = tlmValid st ∧ illReq (statusDone psqValidBit st) = illReq st
      ∧ lastErr (statusDone psqValidBit st) = noError
      ∧ (statusDone psqValidBit st).getLsbD 7 = st.getLsbD 7 := by decide

theorem flags_statusDone_tx : ∀ st : Byte,
    psqValid (statusDone txValidBit st) = psqValid st ∧ txValid (statusDone txValidBit st) = true
      ∧ tlmValid (statusDone txValidBit st) = tlmValid st ∧ illReq (statusDone txValidBit st) = illReq st
      ∧ lastErr (statusDone txValidBit st) = noError
      ∧ (statusDone txValidBit st).getLsbD 7 = st.getLsbD 7 := by decide

theorem flags_statusDone_tlm : ∀ st : Byte,
    psqValid (statusDone tlmValidBit st) = psqValid st ∧ txValid (statusDone tlmValidBit st) = txValid st
      ∧ tlmValid (statusDone tlmValidBit st) = true ∧ illReq (statusDone tlmValidBit st) = illReq st
      ∧ lastErr (statusDone tlmValidBit st) = noError
      ∧ (statusDone tlmValidBit st).getLsbD 7 = st.getLsbD 7 := by decide

theorem flags_statusError_malformed : ∀ st : Byte,
    psqValid (statusError .malformedFrame st) = psqValid st ∧ txValid (statusError .malformedFrame st) = txValid st
      ∧ tlmValid (statusError .malformedFrame st) = tlmValid st
      ∧ illReq (statusError .malformedFrame st) = illReq st
      ∧ lastErr (statusError .malformedFrame st) = causeCode .malformedFrame
      ∧ (statusError .malformedFrame st).getLsbD 7 = st.getLsbD 7 := by decide

theorem flags_statusError_illegal : ∀ st : Byte,
    psqValid (statusError .illegalRequest st) = psqValid st ∧ txValid (statusError .illegalRequest st) = txValid st
      ∧ tlmValid (statusError .illegalRequest st) = tlmValid st ∧ illReq (statusError .illegalRequest st) = true
      ∧ lastErr (statusError .illegalRequest st) = causeCode .illegalRequest
      ∧ (statusError .illegalRequest st).getLsbD 7 = st.getLsbD 7 := by decide

end Sys2Proof.Machine
end

