-- ==== Sys2Proof/Laws/Memory.lean ====
section
/-! SUPPORT. The laws of the frame buffers: read after write, the canonical form, and consecutive bytes. -/

namespace Sys2Proof.Machine

@[simp] theorem memRead_nil (a : Nat) : memRead [] a = none := rfl

/-- A read after a write to the same offset gives the byte written. -/
@[simp] theorem memRead_memWrite_same (m : List Host.Cell) (a : Nat) (v : Byte) :
    memRead (memWrite m a v) a = some v := by
  induction m with
  | nil => simp [memWrite, memRead]
  | cons c rest ih =>
    obtain ⟨x, b⟩ := c
    unfold memWrite
    split
    · simp [memRead]
    · split
      · simp [memRead]
      · rename_i h
        simp [memRead, ih, Ne.symm h]

/-- A write leaves every other offset alone. -/
theorem memRead_memWrite_ne (m : List Host.Cell) {a a' : Nat} (v : Byte) (h : a' ≠ a) :
    memRead (memWrite m a v) a' = memRead m a' := by
  induction m with
  | nil => simp [memWrite, memRead, Ne.symm h]
  | cons c rest ih =>
    obtain ⟨x, b⟩ := c
    unfold memWrite
    split
    · simp [memRead, Ne.symm h]
    · split
      · rename_i h2
        subst h2
        simp [memRead, Ne.symm h]
      · simp [memRead, ih]

/-- Both cases of a read after a write. -/
theorem memRead_memWrite (m : List Host.Cell) (a a' : Nat) (v : Byte) :
    memRead (memWrite m a v) a' = if a' = a then some v else memRead m a' := by
  split
  · rename_i h; rw [h, memRead_memWrite_same]
  · exact memRead_memWrite_ne m v ‹_›

/-- The offsets a write lists are the old ones and the one written. -/
theorem memWrite_offsets {m : List Host.Cell} {a : Nat} {v : Byte} {c : Host.Cell} (h : c ∈ memWrite m a v) :
    c.1 = a ∨ ∃ d ∈ m, d.1 = c.1 := by
  induction m with
  | nil =>
    simp only [memWrite, List.mem_singleton] at h
    exact .inl (by rw [h])
  | cons d rest ih =>
    obtain ⟨x, b⟩ := d
    unfold memWrite at h
    split at h
    · rcases List.mem_cons.mp h with rfl | h
      · exact .inl rfl
      · exact .inr ⟨c, h, rfl⟩
    · split at h
      · rcases List.mem_cons.mp h with rfl | h
        · exact .inl rfl
        · exact .inr ⟨c, List.mem_cons_of_mem _ h, rfl⟩
      · rcases List.mem_cons.mp h with rfl | h
        · exact .inr ⟨_, List.mem_cons_self, rfl⟩
        · rcases ih h with h | ⟨d, hd, h⟩
          · exact .inl h
          · exact .inr ⟨d, List.mem_cons_of_mem _ hd, h⟩

/-- A write keeps the canonical form. -/
theorem memWrite_wf {m : List Host.Cell} (h : MemWf m) (a : Nat) (v : Byte) : MemWf (memWrite m a v) := by
  induction m with
  | nil => simp [memWrite, MemWf]
  | cons c rest ih =>
    obtain ⟨x, b⟩ := c
    obtain ⟨hx, hr⟩ := List.pairwise_cons.mp h
    unfold memWrite
    split
    · rename_i hlt
      refine List.pairwise_cons.mpr ⟨?_, h⟩
      intro d hd
      rcases List.mem_cons.mp hd with rfl | hd
      · exact hlt
      · exact Nat.lt_trans hlt (hx d hd)
    · split
      · rename_i heq
        subst heq
        exact List.pairwise_cons.mpr ⟨fun d hd => hx d hd, hr⟩
      · rename_i hnlt hne
        refine List.pairwise_cons.mpr ⟨?_, ih hr⟩
        intro d hd
        rcases memWrite_offsets hd with h1 | ⟨e, he, h1⟩
        · show x < d.1
          omega
        · show x < d.1
          rw [← h1]
          exact hx e he

/-- Writing bytes keeps the canonical form. -/
theorem memWriteBytes_wf {m : List Host.Cell} (h : MemWf m) (a : Nat) (bs : List Byte) :
    MemWf (memWriteBytes m a bs) := by
  induction bs generalizing m a with
  | nil => exact h
  | cons b bs ih => exact ih (memWrite_wf h a b) (a + 1)

/-- What a read gives after bytes were written from `a`: the byte at that place of the list, or what was there. -/
theorem memRead_memWriteBytes (m : List Host.Cell) (a : Nat) (bs : List Byte) (a' : Nat) :
    memRead (memWriteBytes m a bs) a' = if a ≤ a' ∧ a' < a + bs.length then bs[a' - a]? else memRead m a' := by
  induction bs generalizing m a with
  | nil =>
    have h : ¬(a ≤ a' ∧ a' < a + ([] : List Byte).length) := by simp
    rw [if_neg h, memWriteBytes]
  | cons b bs ih =>
    rw [memWriteBytes, ih, memRead_memWrite]
    by_cases h : a' = a
    · subst h
      simp
    · by_cases h2 : a + 1 ≤ a' ∧ a' < a + 1 + bs.length
      · have h3 : a ≤ a' ∧ a' < a + (b :: bs).length := by simp; omega
        rw [if_pos h2, if_pos h3]
        obtain ⟨k, hk⟩ : ∃ k, a' - a = k + 1 := ⟨a' - a - 1, by omega⟩
        have h4 : a' - (a + 1) = k := by omega
        rw [hk, h4, List.getElem?_cons_succ]
      · have h3 : ¬(a ≤ a' ∧ a' < a + (b :: bs).length) := by simp; omega
        rw [if_neg h2, if_neg h3, if_neg h]

/-- No byte of the `n` from `a` is missing exactly when all hold a value. -/
theorem firstMissing_eq_none {m : List Host.Cell} {a n : Nat} :
    firstMissing m a n = none ↔ ∀ k, a ≤ k → k < a + n → (memRead m k).isSome := by
  induction n generalizing a with
  | zero => simp [firstMissing]; omega
  | succ n ih =>
    unfold firstMissing
    split
    · rename_i h
      refine ⟨fun h' => absurd h' (by simp), fun h' => ?_⟩
      have := h' a (Nat.le_refl a) (by omega)
      rw [h] at this
      cases this
    · rename_i v h
      rw [ih]
      constructor
      · intro h' k h1 h2
        by_cases hk : k = a
        · rw [hk, h]; rfl
        · exact h' k (by omega) (by omega)
      · intro h' k h1 h2
        exact h' k (by omega) (by omega)

/-- A missing byte that is found lies in the range, holds no value, and is the first. -/
theorem firstMissing_eq_some {m : List Host.Cell} {a n k : Nat} (h : firstMissing m a n = some k) :
    a ≤ k ∧ k < a + n ∧ memRead m k = none ∧ ∀ j, a ≤ j → j < k → (memRead m j).isSome := by
  induction n generalizing a with
  | zero => cases h
  | succ n ih =>
    unfold firstMissing at h
    split at h
    · rename_i h'
      cases h
      exact ⟨Nat.le_refl _, by omega, h', fun j h1 h2 => by omega⟩
    · rename_i h'
      obtain ⟨h1, h2, h3, h4⟩ := ih h
      refine ⟨by omega, by omega, h3, fun j h5 h6 => ?_⟩
      by_cases hj : j = a
      · rw [hj, h']
        rfl
      · exact h4 j (by omega) h6

/-- `MemRead` of bytes that hold values is their little-endian sum (R33). -/
theorem memReadLE_succ {m : List Host.Cell} {a n : Nat} {b : Byte} {r : Nat} (h : memRead m a = some b)
    (hr : memReadLE m (a + 1) n = some r) : memReadLE m a (n + 1) = some (b.toNat + 256 * r) := by
  simp [memReadLE, h, hr]

/-- `MemRead(a, 2)` from its two bytes. -/
theorem memReadHalf_eq {m : List Host.Cell} {a : Nat} {b0 b1 : Byte} (h0 : memRead m a = some b0)
    (h1 : memRead m (a + 1) = some b1) : memReadHalf m a = some (half b0 b1) := by
  have := b0.isLt
  have := b1.isLt
  simp only [memReadHalf, memReadLE, h0, h1, Option.map_some]
  congr 1
  apply BitVec.eq_of_toNat_eq
  rw [half_toNat, BitVec.toNat_ofNat]
  omega

/-- `MemRead(a, 4)` from its four bytes. -/
theorem memReadWord_eq {m : List Host.Cell} {a : Nat} {b0 b1 b2 b3 : Byte} (h0 : memRead m a = some b0)
    (h1 : memRead m (a + 1) = some b1) (h2 : memRead m (a + 2) = some b2) (h3 : memRead m (a + 3) = some b3) :
    memReadWord m a = some (word b0 b1 b2 b3) := by
  have := b0.isLt
  have := b1.isLt
  have := b2.isLt
  have := b3.isLt
  simp only [memReadWord, memReadLE, h0, h1, h2, h3, Option.map_some]
  congr 1
  apply BitVec.eq_of_toNat_eq
  rw [word_toNat, BitVec.toNat_ofNat]
  omega

end Sys2Proof.Machine
end

