-- ==== Sys2Proof/Laws/PerInstr.lean ====
section
/-! SUPPORT. The family EncodedLength: every encoded item has one fixed length in bytes (30_encoding.md R47, R56). -/

namespace Sys2Proof.Laws

/-- The length in bytes of an item's format (R47, R50, R52). -/
def formatLength : Instr → Nat
  | .qmap => 1
  | .encode => 1
  | .decode => 1
  | .reqReserved => 1
  | .cmdNop _ _ _ _ => Config.cmdFrameLen
  | .cmdBlink _ _ _ _ => Config.cmdFrameLen
  | .cmdSetps _ _ _ _ => Config.cmdFrameLen
  | .tlm _ _ _ _ _ _ => Config.tlmFrameLen
  | .psw _ => 1

namespace EncodedLength

/-- An item is encoded in exactly the bytes of its format. -/
def Statement (i : Instr) : Prop := (encodeItem i).length = formatLength i

theorem qmap : Statement .qmap := rfl
theorem encode : Statement .encode := rfl
theorem decode : Statement .decode := rfl
theorem reqReserved : Statement .reqReserved := rfl
theorem cmdNop (ps1 ps2 ps3 ps4 : Byte) : Statement (.cmdNop ps1 ps2 ps3 ps4) := rfl
theorem cmdBlink (ps1 ps2 ps3 ps4 : Byte) : Statement (.cmdBlink ps1 ps2 ps3 ps4) := rfl
theorem cmdSetps (ps1 ps2 ps3 ps4 : Byte) : Statement (.cmdSetps ps1 ps2 ps3 ps4) := rfl
theorem tlm (lat lon : Word) (mx my mz pad : Half) : Statement (.tlm lat lon mx my mz pad) := rfl
theorem psw (code : BitVec 6) : Statement (.psw code) := rfl

end EncodedLength
end Sys2Proof.Laws
end

