-- ==== Sys2Proof/Laws/Quantize.lean ====
section
/-! SUPPORT. What the quantizer computes, said once: the code is the integer nearest to the scaled value, a tie going to
the even one (40_psq.md R61, R62), and there is one such integer. -/

namespace Sys2Proof.Machine

/-- `k` is an integer nearest to `x`, and even if `x` is half-way. -/
def NearestEven (x : Rat) (k : Int) : Prop :=
  x - 1 / 2 ≤ k ∧ (k : Rat) ≤ x + 1 / 2 ∧ ((k : Rat) = x - 1 / 2 → k % 2 = 0) ∧ ((k : Rat) = x + 1 / 2 → k % 2 = 0)

/-- There is one nearest integer in that sense. -/
theorem NearestEven.unique {x : Rat} {k l : Int} (hk : NearestEven x k) (hl : NearestEven x l) : k = l := by
  obtain ⟨k1, k2, k3, k4⟩ := hk
  obtain ⟨l1, l2, l3, l4⟩ := hl
  have hkl : (k : Rat) ≤ (l : Rat) + 1 := by linarith
  have hlk : (l : Rat) ≤ (k : Rat) + 1 := by linarith
  have hkl' : k ≤ l + 1 := by exact_mod_cast hkl
  have hlk' : l ≤ k + 1 := by exact_mod_cast hlk
  rcases lt_trichotomy k l with h | h | h
  · have hl' : l = k + 1 := by omega
    have hq : (l : Rat) = k + 1 := by exact_mod_cast hl'
    have := k3 (by linarith)
    have := l4 (by linarith)
    omega
  · exact h
  · have hk' : k = l + 1 := by omega
    have hq : (k : Rat) = l + 1 := by exact_mod_cast hk'
    have := l3 (by linarith)
    have := k4 (by linarith)
    omega

/-- Rounding an exact fraction gives its nearest integer, ties to even. -/
theorem roundFraction_nearest (n : Int) (m : Nat) (hm : 0 < m) :
    NearestEven ((n : Rat) / (m : Rat)) (roundFraction n m) := by
  have hmq : (0 : Rat) < (m : Rat) := by exact_mod_cast hm
  have hdiv : (m : Int) * (n / m) + n % m = n := Int.mul_ediv_add_emod n m
  have hr0 : 0 ≤ n % (m : Int) := Int.emod_nonneg _ (by omega)
  have hrm : n % (m : Int) < m := Int.emod_lt_of_pos _ (by omega)
  generalize hf : n / (m : Int) = f at hdiv
  generalize hr : n % (m : Int) = r at hdiv hr0 hrm
  have hx : (n : Rat) / m = f + (r : Rat) / m := by
    rw [← hdiv]; push_cast; field_simp
  have hy0 : 0 ≤ (r : Rat) / m := div_nonneg (by exact_mod_cast hr0) hmq.le
  have hnext : ((f + 1 : Int) : Rat) = f + 1 := by push_cast; ring
  unfold roundFraction
  simp only [hf, hr]
  rw [hx]
  split
  · rename_i h
    have h2 : (r : Rat) / m < 1 / 2 := by
      rw [div_lt_div_iff₀ hmq (by norm_num)]
      have : ((2 * r : Int) : Rat) < ((m : Int) : Rat) := by exact_mod_cast h
      push_cast at this; linarith
    refine ⟨by linarith, by linarith, fun h' => absurd h' (by linarith), fun h' => absurd h' (by linarith)⟩
  · split
    · rename_i _ h
      have h2 : 1 / 2 < (r : Rat) / m := by
        rw [div_lt_div_iff₀ (by norm_num) hmq]
        have : ((m : Int) : Rat) < ((2 * r : Int) : Rat) := by exact_mod_cast h
        push_cast at this; linarith
      have h3 : (r : Rat) / m < 1 := by
        rw [div_lt_one hmq]
        exact_mod_cast hrm
      refine ⟨by linarith, by linarith, fun h' => absurd h' (by linarith), fun h' => absurd h' (by linarith)⟩
    · rename_i h1 h2
      have h3 : (r : Rat) / m = 1 / 2 := by
        rw [div_eq_div_iff hmq.ne' (by norm_num)]
        have h4 : 2 * r = (m : Int) := by omega
        have : ((2 * r : Int) : Rat) = ((m : Int) : Rat) := by exact_mod_cast h4
        push_cast at this; linarith
      simp only [roundTie, Config.roundMode]
      split
      · rename_i h4
        refine ⟨by linarith, by linarith, fun _ => h4, fun h' => absurd h' (by linarith)⟩
      · rename_i h4
        refine ⟨by linarith, by linarith, fun h' => absurd h' (by linarith), fun _ => by omega⟩

/-- The spec's rounding on rationals gives the nearest integer, ties to even (R62). -/
theorem roundHalfEven_nearest (x : Rat) : NearestEven x (roundHalfEven x) := by
  have h0 : (x.floor : Rat) ≤ x := Rat.floor_le x
  have h1 : x < ((x.floor + 1 : Int) : Rat) := Rat.lt_floor_add_one x
  have hnext : ((x.floor + 1 : Int) : Rat) = x.floor + 1 := by push_cast; ring
  unfold roundHalfEven
  split
  · refine ⟨by linarith, by linarith, fun h => absurd h (by linarith), fun h => absurd h (by linarith)⟩
  · split
    · refine ⟨by linarith, by linarith, fun h => absurd h (by linarith), fun h => absurd h (by linarith)⟩
    · split
      · rename_i h
        exact ⟨by linarith, by linarith, fun _ => h, fun _ => h⟩
      · refine ⟨by linarith, by linarith, fun h => absurd h (by linarith), fun _ => by omega⟩

/-- The scaled value as the fraction the machine rounds. -/
theorem scaled_eq (d : Rat) : scaled d =
    ((d.num * (Config.maxPsBitVal : Int) : Int) : Rat) / ((d.den * Config.maxPsDegVal : Nat) : Rat) := by
  have h : (d.den : Rat) ≠ 0 := by exact_mod_cast d.den_nz
  conv_lhs => rw [scaled, ← Rat.num_div_den d]
  push_cast
  rw [div_mul_eq_mul_div, div_div]

/-- The code is the integer nearest to the scaled value, ties to even (R61, R62). -/
theorem quantize_nearest (d : Rat) : NearestEven (scaled d) (quantize d) := by
  rw [scaled_eq]
  exact roundFraction_nearest _ _ (Nat.mul_pos d.den_pos (by decide))

/-- The machine's domain test is the domain (R60). -/
theorem inDegDomain_iff (d : Rat) : inDegDomain d = true ↔ InDomain d := by
  have h : (0 : Rat) < d.den := by exact_mod_cast d.den_pos
  have hd : d = d.num / d.den := (Rat.num_div_den d).symm
  unfold inDegDomain InDomain
  rw [Bool.and_eq_true, decide_eq_true_iff, decide_eq_true_iff, Rat.num_nonneg]
  refine and_congr_right fun _ => ?_
  conv_rhs => rw [hd, div_le_iff₀ h]
  exact_mod_cast Iff.rfl

end Sys2Proof.Machine
end

