-- ==== Sys2Proof/Laws/Requests.lean ====
section
/-! SUPPORT. One inversion lemma for each request, port line and transmit: all it can do when it answers a next state. -/

namespace Sys2Proof.Machine

/-- The bounds of the free capacity (R10, R32): 17 at least, and 255 at most, what `RX_LEN` can count. -/
theorem rxMax_bounds : 17 ≤ Config.rxMax ∧ Config.rxMax ≤ 255 := by
  have h := Config.rxMaxAboveLeast.isLt
  unfold Config.rxMax
  omega

/-- A telemetry frame can be presented, whatever the capacity. -/
theorem tlmFrame_fits : Config.tlmFrameLen ≤ Config.rxMax := by
  have h := rxMax_bounds.1
  unfold Config.tlmFrameLen
  omega

/-- All that `QMAP` can do (R67). -/
theorem execQmap_next {s t : State} (h : execQmap s = .next t) :
    ∃ w d, s.block.psqDeg = some w ∧ degValue w = some d ∧ inDegDomain d = true ∧ t = psqDone d s := by
  obtain ⟨w, hw, h⟩ := needs_eq_next h
  split at h
  · cases h
  · rename_i d hd
    split at h
    · rename_i hdom
      cases h
      exact ⟨w, d, hw, hd, hdom, rfl⟩
    · cases h

/-- `QMAP` on an operand in the domain (R67). -/
theorem execQmap_of_domain {s : State} {w : DegWord} {d : Rat} (hw : s.block.psqDeg = some w)
    (hd : degValue w = some d) (h : inDegDomain d = true) : execQmap s = .next (psqDone d s) := by
  simp [execQmap, hw, hd, h]

/-- All that `ENCODE` can do (R77). -/
theorem execEncode_next {s t : State} (h : execEncode s = .next t) :
    ∃ op ps1 ps2 ps3 ps4, s.block.cmdOpcode = some op ∧ s.block.cmdPs1 = some ps1 ∧ s.block.cmdPs2 = some ps2
      ∧ s.block.cmdPs3 = some ps3 ∧ s.block.cmdPs4 = some ps4 ∧ t = cencDone op ps1 ps2 ps3 ps4 s := by
  obtain ⟨op, h0, h⟩ := needs_eq_next h
  obtain ⟨ps1, h1, h⟩ := needs_eq_next h
  obtain ⟨ps2, h2, h⟩ := needs_eq_next h
  obtain ⟨ps3, h3, h⟩ := needs_eq_next h
  obtain ⟨ps4, h4, h⟩ := needs_eq_next h
  cases h
  exact ⟨op, ps1, ps2, ps3, ps4, h0, h1, h2, h3, h4, rfl⟩

/-- All that `DECODE` can do (R86, R87). -/
theorem execDecode_next {s t : State} (h : execDecode s = .next t) :
    ∃ n, s.block.rxLen = some n ∧ n.toNat ≤ Config.rxMax
      ∧ ((n.toNat ≠ Config.tlmFrameLen ∧ t = raiseError .malformedFrame s)
        ∨ (n.toNat = Config.tlmFrameLen ∧ firstMissing s.block.rxbuf 0 Config.tlmFrameLen = none ∧ t = tdecDone s)) := by
  obtain ⟨n, hn, h⟩ := needs_eq_next h
  refine ⟨n, hn, ?_⟩
  split at h
  · cases h
  · rename_i hmax
    refine ⟨Nat.le_of_not_lt hmax, ?_⟩
    split at h
    · rename_i hlen
      cases h
      exact .inl ⟨hlen, rfl⟩
    · rename_i hlen
      split at h
      · cases h
      · rename_i hm
        cases h
        exact .inr ⟨not_not.mp hlen, hm, rfl⟩

/-- `DECODE` when the operands for a good frame are there (R86). -/
theorem execDecode_of_frame {s : State} {n : Byte} (hn : s.block.rxLen = some n) (h16 : n.toNat = Config.tlmFrameLen)
    (h : ∀ a, a < Config.tlmFrameLen → (memRead s.block.rxbuf a).isSome) : execDecode s = .next (tdecDone s) := by
  have hm : firstMissing s.block.rxbuf 0 Config.tlmFrameLen = none :=
    firstMissing_eq_none.2 fun k _ hk => h k (by omega)
  have hmax : ¬Config.rxMax < Config.tlmFrameLen := Nat.not_lt.2 tlmFrame_fits
  simp only [execDecode, hn, needs_some, h16, hmax, if_false, ne_eq, not_true_eq_false, hm]

/-- `DECODE` of any other length that can be presented (R87). -/
theorem execDecode_of_length {s : State} {n : Byte} (hn : s.block.rxLen = some n) (hmax : n.toNat ≤ Config.rxMax)
    (h : n.toNat ≠ Config.tlmFrameLen) : execDecode s = .next (raiseError .malformedFrame s) := by
  simp only [execDecode, hn, needs_some, Nat.not_lt.2 hmax, if_false, ne_eq, h, not_false_eq_true, if_true]

/-- Where the fields are with the pad at 14 (R48, R82). -/
theorem tdecDone_eq (s : State) :
    tdecDone s = setBlock { s.block with
      tlmLat := memReadWord s.block.rxbuf 0
      tlmLon := memReadWord s.block.rxbuf 4
      tlmMx := memReadHalf s.block.rxbuf 8
      tlmMy := memReadHalf s.block.rxbuf 10
      tlmMz := memReadHalf s.block.rxbuf 12
      status := statusDone tlmValidBit s.block.status } s := rfl

/-- The fields a good frame decodes to, from its bytes (R82). -/
theorem tdecDone_of_bytes {s : State} (b : Nat → Byte) (hb : ∀ a, a < 14 → memRead s.block.rxbuf a = some (b a)) :
    tdecDone s = setBlock { s.block with
      tlmLat := some (word (b 0) (b 1) (b 2) (b 3))
      tlmLon := some (word (b 4) (b 5) (b 6) (b 7))
      tlmMx := some (half (b 8) (b 9))
      tlmMy := some (half (b 10) (b 11))
      tlmMz := some (half (b 12) (b 13))
      status := statusDone tlmValidBit s.block.status } s := by
  rw [tdecDone_eq, memReadWord_eq (hb 0 (by omega)) (hb 1 (by omega)) (hb 2 (by omega)) (hb 3 (by omega)),
    memReadWord_eq (hb 4 (by omega)) (hb 5 (by omega)) (hb 6 (by omega)) (hb 7 (by omega)),
    memReadHalf_eq (hb 8 (by omega)) (hb 9 (by omega)), memReadHalf_eq (hb 10 (by omega)) (hb 11 (by omega)),
    memReadHalf_eq (hb 12 (by omega)) (hb 13 (by omega))]

/-- What a host write does to the block (R28). -/
def writeReg (b : Block) : Reg → RegValue → Block
  | .psqDeg, .degree d => { b with psqDeg := some d }
  | .cmdOpcode, .byte v => { b with cmdOpcode := some v }
  | .cmdPs1, .byte v => { b with cmdPs1 := some v }
  | .cmdPs2, .byte v => { b with cmdPs2 := some v }
  | .cmdPs3, .byte v => { b with cmdPs3 := some v }
  | .cmdPs4, .byte v => { b with cmdPs4 := some v }
  | .rxLen, .byte v => { b with rxLen := some v }
  | _, _ => b

/-- All that `WR` can do (R28): the operand registers change, nothing else. -/
theorem hostWrite_next {r : Reg} {v : RegValue} {s t : State} (h : hostWrite r v s = .next t) :
    t = setBlock (writeReg s.block r v) s := by
  cases r <;> cases v <;> simp only [hostWrite, reduceCtorEq, Host.Outcome.next.injEq] at h <;> exact h.symm

/-- A host write touches no result, no buffer and no flag (R21). -/
theorem writeReg_results (b : Block) (r : Reg) (v : RegValue) :
    (writeReg b r v).psqOut = b.psqOut ∧ (writeReg b r v).tlmLat = b.tlmLat ∧ (writeReg b r v).tlmLon = b.tlmLon
      ∧ (writeReg b r v).tlmMx = b.tlmMx ∧ (writeReg b r v).tlmMy = b.tlmMy ∧ (writeReg b r v).tlmMz = b.tlmMz
      ∧ (writeReg b r v).status = b.status ∧ (writeReg b r v).rxbuf = b.rxbuf
      ∧ (writeReg b r v).txbuf = b.txbuf := by
  cases r <;> cases v <;> exact ⟨rfl, rfl, rfl, rfl, rfl, rfl, rfl, rfl, rfl⟩

/-- All that a host write of an RXBUF byte can do (R28, R32). -/
theorem hostWriteRx_next {a : Nat} {b : Byte} {s t : State} (h : hostWriteRx a b s = .next t) :
    a < Config.rxMax ∧ t = setBlock { s.block with rxbuf := memWrite s.block.rxbuf a b } s := by
  unfold hostWriteRx at h
  split at h
  · rename_i ha
    cases h
    exact ⟨ha, rfl⟩
  · cases h

/-- All that `RXFRAME` can do (R32, R57). -/
theorem hostRxFrame_next {f : List Byte} {s t : State} (h : hostRxFrame f s = .next t) :
    f.length ≤ Config.rxMax ∧ t = setBlock { s.block with
      rxbuf := memWriteBytes s.block.rxbuf 0 f
      rxLen := some (BitVec.ofNat 8 f.length) } s := by
  unfold hostRxFrame at h
  split at h
  · rename_i hf
    cases h
    exact ⟨hf, rfl⟩
  · cases h

/-- All that `RD` can do (R29). -/
theorem hostRead_next {r : Reg} {s t : State} (h : hostRead r s = .next t) :
    readable s.block.status r = true ∧ ∃ v, regValue s.block r = some v ∧ t = setReadData v s := by
  unfold hostRead at h
  split at h
  · rename_i hr
    obtain ⟨v, hv, h⟩ := needs_eq_next h
    cases h
    exact ⟨hr, v, hv, rfl⟩
  · cases h

/-- All that a host read of a TXBUF byte can do (R29). -/
theorem hostReadTx_next {a : Nat} {s t : State} (h : hostReadTx a s = .next t) :
    ∃ b, memRead s.block.txbuf a = some b ∧ t = setReadData (.byte b) s := by
  unfold hostReadTx at h
  split at h
  · split at h
    · split at h
      · rename_i b hb
        cases h
        exact ⟨b, hb, rfl⟩
      · cases h
    · cases h
  · cases h

/-- All that handing TXBUF to the radio can do (R107). -/
theorem transmitFrame_next {s t : State} (h : transmitFrame s = .next t) :
    txValid s.block.status = true ∧ ∃ f, memReadBytes s.block.txbuf 0 Config.cmdFrameLen = some f
      ∧ t = recordTransmit f s := by
  unfold transmitFrame at h
  split at h
  · rename_i hv
    split at h
    · rename_i f hf
      cases h
      exact ⟨hv, f, hf, rfl⟩
    · cases h
  · cases h

/-- Bytes read back have the length asked for. -/
theorem memReadBytes_length {m : List Host.Cell} {a n : Nat} {f : List Byte} (h : memReadBytes m a n = some f) :
    f.length = n := by
  induction n generalizing a f with
  | zero => cases h; rfl
  | succ n ih =>
    unfold memReadBytes at h
    split at h
    · rename_i b bs hb hbs
      cases h
      rw [List.length_cons, ih hbs]
    · cases h

/-- Bytes read back after a read of each. -/
theorem memReadBytes_eq {m : List Host.Cell} {a : Nat} {f : List Byte}
    (h : ∀ k, k < f.length → memRead m (a + k) = f[k]?) : memReadBytes m a f.length = some f := by
  induction f generalizing a with
  | nil => rfl
  | cons b bs ih =>
    have h0 : memRead m a = some b := by simpa using h 0 (by simp)
    have h1 : memReadBytes m (a + 1) bs.length = some bs := by
      refine ih fun k hk => ?_
      have := h (k + 1) (by simpa using hk)
      rw [List.getElem?_cons_succ] at this
      rw [← this]
      congr 1
      omega
    simp [memReadBytes, h0, h1]

/-- The bytes written are the bytes read back. -/
theorem memReadBytes_memWriteBytes (m : List Host.Cell) (a : Nat) (f : List Byte) :
    memReadBytes (memWriteBytes m a f) a f.length = some f := by
  refine memReadBytes_eq fun k hk => ?_
  rw [memRead_memWriteBytes, if_pos ⟨by omega, by omega⟩]
  congr 1
  omega

/-- All that sending a packet can do (R58, R107): the packet's registers, TXBUF, two flags and one transmit. -/
theorem sendPacket_eq (op ps1 ps2 ps3 ps4 : Byte) (s : State) :
    sendPacket op ps1 ps2 ps3 ps4 s = .next (recordTransmit [op, ps1, ps2, ps3, ps4]
      (setBlock { s.block with
        cmdOpcode := some op, cmdPs1 := some ps1, cmdPs2 := some ps2, cmdPs3 := some ps3, cmdPs4 := some ps4
        txbuf := memWriteBytes s.block.txbuf 0 [op, ps1, ps2, ps3, ps4]
        status := statusDone txValidBit s.block.status } s)) := by
  have hv := (flags_statusDone_tx s.block.status).2.1
  have hr : memReadBytes (memWriteBytes s.block.txbuf 0 [op, ps1, ps2, ps3, ps4]) 0 Config.cmdFrameLen
      = some [op, ps1, ps2, ps3, ps4] := memReadBytes_memWriteBytes _ 0 [op, ps1, ps2, ps3, ps4]
  simp [sendPacket, hostWrite, execEncode, cencDone, encodeCommand, transmitFrame, hv, hr]

end Sys2Proof.Machine
end

