-- ==== Sys2Proof/Laws/Step.lean ====
section
/-! SUPPORT. What a step can do to the block, said once: it is the reset, or a run of block lines, each of a few kinds.
Invariants of the block follow line by line. -/

namespace Sys2Proof.Machine

/-- One line at the block other than the reset, by what it does to the block. -/
inductive BlockLine : Block → Block → Prop where
  | write (b : Block) (r : Reg) (v : RegValue) : BlockLine b (writeReg b r v)
  | writeRx (b : Block) {a : Nat} (v : Byte) (h : a < Config.rxMax) :
    BlockLine b { b with rxbuf := memWrite b.rxbuf a v }
  | rxFrame (b : Block) {f : List Byte} (h : f.length ≤ Config.rxMax) :
    BlockLine b { b with rxbuf := memWriteBytes b.rxbuf 0 f, rxLen := some (BitVec.ofNat 8 f.length) }
  | qmap (b : Block) {d : Rat} (h : inDegDomain d = true) :
    BlockLine b { b with psqOut := some (quantizeAndMap d), status := statusDone psqValidBit b.status }
  | encode (b : Block) (op ps1 ps2 ps3 ps4 : Byte) :
    BlockLine b { b with
      txbuf := memWriteBytes b.txbuf 0 (encodeCommand op ps1 ps2 ps3 ps4), status := statusDone txValidBit b.status }
  | decode (b : Block) (h : ∀ a, a < Config.tlmFrameLen → (memRead b.rxbuf a).isSome) :
    BlockLine b { b with
      tlmLat := memReadWord b.rxbuf 0, tlmLon := memReadWord b.rxbuf 4, tlmMx := memReadHalf b.rxbuf 8
      tlmMy := memReadHalf b.rxbuf 10, tlmMz := memReadHalf b.rxbuf 12, status := statusDone tlmValidBit b.status }
  | malformed (b : Block) : BlockLine b { b with status := statusError .malformedFrame b.status }
  | illegal (b : Block) : BlockLine b { b with status := statusError .illegalRequest b.status }

/-- A run of block lines, possibly none. -/
inductive BlockRun : Block → Block → Prop where
  | nil (b : Block) : BlockRun b b
  | cons {b c d : Block} (h : BlockLine b c) (hr : BlockRun c d) : BlockRun b d

theorem BlockRun.one {b c : Block} (h : BlockLine b c) : BlockRun b c := .cons h (.nil c)

theorem BlockRun.trans {b c d : Block} (h : BlockRun b c) (h' : BlockRun c d) : BlockRun b d := by
  induction h with
  | nil => exact h'
  | cons hl _ ih => exact .cons hl (ih h')

/-- What every line keeps, every run keeps. -/
theorem BlockRun.keeps {P : Block → Prop} (hl : ∀ b c, BlockLine b c → P b → P c) {b c : Block} (h : BlockRun b c)
    (hb : P b) : P c := by
  induction h with
  | nil => exact hb
  | cons h _ ih => exact ih (hl _ _ h hb)

theorem execQmap_run {s t : State} (h : execQmap s = .next t) : BlockRun s.block t.block := by
  obtain ⟨w, d, -, -, hd, rfl⟩ := execQmap_next h
  exact .one (.qmap _ hd)

theorem execEncode_run {s t : State} (h : execEncode s = .next t) : BlockRun s.block t.block := by
  obtain ⟨op, ps1, ps2, ps3, ps4, -, -, -, -, -, rfl⟩ := execEncode_next h
  exact .one (.encode _ op ps1 ps2 ps3 ps4)

theorem execDecode_run {s t : State} (h : execDecode s = .next t) : BlockRun s.block t.block := by
  obtain ⟨n, -, -, h⟩ := execDecode_next h
  rcases h with ⟨-, rfl⟩ | ⟨-, hm, rfl⟩
  · exact .one (.malformed _)
  · exact .one (.decode _ fun a ha => firstMissing_eq_none.1 hm a (Nat.zero_le a) (by omega))

theorem hostWrite_run {r : Reg} {v : RegValue} {s t : State} (h : hostWrite r v s = .next t) :
    BlockRun s.block t.block := by
  rw [hostWrite_next h]
  exact .one (.write _ r v)

theorem hostRxFrame_run {f : List Byte} {s t : State} (h : hostRxFrame f s = .next t) :
    BlockRun s.block t.block := by
  obtain ⟨hf, rfl⟩ := hostRxFrame_next h
  exact .one (.rxFrame _ hf)

theorem hostRead_run {r : Reg} {s t : State} (h : hostRead r s = .next t) : BlockRun s.block t.block := by
  obtain ⟨-, v, -, rfl⟩ := hostRead_next h
  exact .nil _

theorem transmitFrame_run {s t : State} (h : transmitFrame s = .next t) : BlockRun s.block t.block := by
  obtain ⟨-, f, -, rfl⟩ := transmitFrame_next h
  exact .nil _

theorem andThen_run {r : Result} {k : State → Result} {b : Block} {t : State} (h : andThen r k = .next t)
    (hr : ∀ u, r = .next u → BlockRun b u.block) (hk : ∀ u, k u = .next t → BlockRun u.block t.block) :
    BlockRun b t.block := by
  obtain ⟨u, hu, h⟩ := andThen_eq_next h
  exact (hr u hu).trans (hk u h)

theorem sendPacket_run {op ps1 ps2 ps3 ps4 : Byte} {s t : State} (h : sendPacket op ps1 ps2 ps3 ps4 s = .next t) :
    BlockRun s.block t.block :=
  andThen_run h (fun _ => hostWrite_run) fun _ h =>
  andThen_run h (fun _ => hostWrite_run) fun _ h =>
  andThen_run h (fun _ => hostWrite_run) fun _ h =>
  andThen_run h (fun _ => hostWrite_run) fun _ h =>
  andThen_run h (fun _ => hostWrite_run) fun _ h =>
  andThen_run h (fun _ => execEncode_run) fun _ h => transmitFrame_run h

/-- Every encoded item is a run of block lines. -/
theorem exec_run {i : Instr} {s t : State} (h : exec i s = .next t) : BlockRun s.block t.block := by
  cases i with
  | qmap => exact execQmap_run h
  | encode => exact execEncode_run h
  | decode => exact execDecode_run h
  | reqReserved =>
    cases h
    exact .one (.illegal _)
  | cmdNop ps1 ps2 ps3 ps4 =>
    have h : sendPacket Config.opNop ps1 ps2 ps3 ps4 s = .next t := h
    exact sendPacket_run h
  | cmdBlink ps1 ps2 ps3 ps4 =>
    have h : sendPacket Config.opBlink ps1 ps2 ps3 ps4 s = .next t := h
    exact sendPacket_run h
  | cmdSetps ps1 ps2 ps3 ps4 =>
    have h : sendPacket Config.opSetps ps1 ps2 ps3 ps4 s = .next t := h
    exact sendPacket_run h
  | tlm lat lon mx my mz pad =>
    have h : execTlm lat lon mx my mz pad s = .next t := h
    unfold execTlm at h
    exact andThen_run h (fun _ => hostRxFrame_run) fun _ h =>
      andThen_run h (fun _ => execDecode_run) fun _ h => hostRead_run h
  | psw code =>
    have h : execPsw code s = .next t := h
    unfold execPsw at h
    exact andThen_run h (fun _ => hostWrite_run) fun _ h =>
      andThen_run h (fun _ => execQmap_run) fun _ h => hostRead_run h

/-- A line followed by a move of the worker to another place. -/
theorem andThen_goto_run {r : Result} {w : Worker} {b : Block} {t : State}
    (h : andThen r (fun u => .next (goto w u)) = .next t) (hr : ∀ u, r = .next u → BlockRun b u.block) :
    BlockRun b t.block :=
  andThen_run h hr fun u h => by
    cases h
    exact .nil _

/-- All that reading a telemetry register can do (R29). -/
theorem readTlm_next {α : Type} {r : Reg} {v : Option α} {s t : State} {k : α → Result}
    (h : readTlm r v s k = .next t) : tlmValid s.block.status = true ∧ ∃ x, v = some x ∧ k x = .next t := by
  unfold readTlm at h
  split at h
  · exact ⟨‹_›, needs_eq_next h⟩
  · cases h

/-- All that publishing one scalar can do (R106): one write to it, and the worker goes on. -/
theorem publishMove_next {f : TlmShown} {s t : State} (h : publishMove f s = .next t) :
    ∃ w : ShownWrite, w.scalar = .tlm f
      ∧ t = setConsole { showWrite w s.console with worker := afterShown f } s := by
  cases f with
  | lat =>
    obtain ⟨-, _, -, h⟩ := readTlm_next h
    cases h
    exact ⟨_, rfl, rfl⟩
  | lon =>
    obtain ⟨-, _, -, h⟩ := readTlm_next h
    cases h
    exact ⟨_, rfl, rfl⟩
  | mx =>
    obtain ⟨-, _, -, h⟩ := readTlm_next h
    cases h
    exact ⟨_, rfl, rfl⟩
  | my =>
    obtain ⟨-, _, -, h⟩ := readTlm_next h
    cases h
    exact ⟨_, rfl, rfl⟩
  | mz =>
    obtain ⟨-, _, -, h⟩ := readTlm_next h
    cases h
    exact ⟨_, rfl, rfl⟩
  | signal =>
    cases h
    exact ⟨_, rfl, rfl⟩
  | count =>
    cases h
    exact ⟨_, rfl, rfl⟩

/-- Every move of the worker is a run of block lines: one line or none. -/
theorem workerMove_run {p : Option (List Byte)} {s t : State} (h : workerMove p s = .next t) :
    BlockRun s.block t.block := by
  have same : ∀ {u : State}, Host.Outcome.next u = (.next t : Result) → u.block = s.block →
      BlockRun s.block t.block := by
    intro u hu hb
    cases hu
    rw [hb]
    exact .nil _
  unfold workerMove at h
  split at h
  · exact same h rfl
  · unfold pollMove at h
    split at h <;> exact same h rfl
  · unfold copyFrameMove at h
    split at h
    · exact same h rfl
    · exact andThen_goto_run h fun _ => hostRxFrame_run
  · exact andThen_goto_run h fun _ => execDecode_run
  · unfold checkDecodeMove at h
    split at h <;> exact same h rfl
  · exact same h rfl
  · obtain ⟨w, -, rfl⟩ := publishMove_next h
    exact .nil _
  · exact same h rfl
  · unfold checkSendMove at h
    split at h <;> exact same h rfl
  · exact same h rfl
  · unfold readOpcodeMove at h
    split at h
    · exact same h rfl
    · exact same h (raiseValidation_block _ _)
  · unfold readModeMove at h
    split at h
    · exact same h rfl
    · exact same h rfl
    · exact same h (raiseValidation_block _ _)
  · unfold readPsMove at h
    simp only at h
    split at h <;> exact same h rfl
  · unfold readAngleMove at h
    split at h
    · exact same h rfl
    · cases h
  · exact same h rfl
  · unfold checkRangeMove at h
    split at h
    · exact same h rfl
    · exact same h (raiseValidation_block _ _)
  · exact same h rfl
  · exact andThen_goto_run h fun _ => hostWrite_run
  · exact andThen_goto_run h fun _ => execQmap_run
  · unfold moveWordMove at h
    split at h
    · obtain ⟨w, -, h⟩ := needs_eq_next h
      exact andThen_goto_run h fun _ => hostWrite_run
    · cases h
  · exact andThen_goto_run h fun _ => hostWrite_run
  · exact same h rfl
  · exact andThen_goto_run h fun _ => execEncode_run
  · exact andThen_goto_run h fun _ => transmitFrame_run

/-- What one input does to the block: a run of block lines, unless it is the reset. -/
theorem perform_run {x : Input} {s t : State} (hx : x ≠ .reset) (h : perform x s = .next t) :
    BlockRun s.block t.block := by
  cases x with
  | item bytes =>
    unfold perform presentItem at h
    simp only at h
    split at h
    · exact exec_run h
    · cases h
  | hostWrite r v => exact hostWrite_run h
  | hostWriteRx offset b =>
    obtain ⟨ha, rfl⟩ := hostWriteRx_next h
    exact .one (.writeRx _ b ha)
  | rxFrame bytes => exact hostRxFrame_run h
  | hostRead r => exact hostRead_run h
  | hostReadTx offset =>
    obtain ⟨b, -, rfl⟩ := hostReadTx_next h
    exact .nil _
  | reset => exact absurd rfl hx
  | uiSend =>
    cases h
    exact .nil _
  | uiEdit e =>
    cases h
    cases e <;> exact .nil _
  | uiSees k =>
    cases h
    exact .nil _
  | radioSignal v =>
    cases h
    exact .nil _
  | worker polled => exact workerMove_run h

/-- Every step is the reset of the block, or a run of block lines. -/
theorem step_run {s t : State} (h : step s = .next t) :
    (∃ rest, s.inputs = .reset :: rest ∧ t.block = Block.reset) ∨ BlockRun s.block t.block := by
  unfold step stepInput at h
  split at h
  · cases h
    exact .inr (.nil _)
  · rename_i x rest hx
    by_cases hr : x = .reset
    · subst hr
      cases h
      exact .inl ⟨rest, hx, rfl⟩
    · exact .inr (perform_run (s := setInputs rest s) hr h)

/-- A run goes on from the state its first step answers. -/
theorem run_succ {k : Nat} {s u : State} (h : step s = .next u) :
    Host.Core.run core (k + 1) s = Host.Core.run core k u := by
  have h : core.step s = .next u := h
  simp only [Host.Core.run, h]

/-- A run over scheduled moves of the worker goes on from the state its first move answers. -/
theorem run_workerMoves {k : Nat} {s u : State} {rest : List Input} (h : s.inputs = workerMoves (k + 1) ++ rest)
    (hm : workerMove none (setInputs (workerMoves k ++ rest) s) = .next u) :
    Host.Core.run core (k + 1) s = Host.Core.run core k u := by
  have hx : s.inputs = .worker none :: (workerMoves k ++ rest) := h
  exact run_succ ((step_cons hx).trans hm)

end Sys2Proof.Machine
end

