-- ==== Sys2Proof/Laws/Telemetry.lean ====
section
/-! SUPPORT. `decode_telemetry` on a frame given by its bytes: the fields are the little-endian words of their bytes. -/

namespace Sys2Proof.Machine

/-- Two bytes as a number and as a word (R35). -/
theorem ofNat_littleEndian_two (b0 b1 : Byte) : BitVec.ofNat 16 (littleEndian [b0, b1]) = half b0 b1 := by
  have := b0.isLt
  have := b1.isLt
  apply BitVec.eq_of_toNat_eq
  rw [half_toNat, BitVec.toNat_ofNat]
  simp only [littleEndian]
  omega

/-- Four bytes as a number and as a word (R35). -/
theorem ofNat_littleEndian_four (b0 b1 b2 b3 : Byte) :
    BitVec.ofNat 32 (littleEndian [b0, b1, b2, b3]) = word b0 b1 b2 b3 := by
  have := b0.isLt
  have := b1.isLt
  have := b2.isLt
  have := b3.isLt
  apply BitVec.eq_of_toNat_eq
  rw [word_toNat, BitVec.toNat_ofNat]
  simp only [littleEndian]
  omega

/-- A frame of 16 bytes decodes to the words of its bytes (R82). -/
theorem decodeTelemetry_of_bytes {f : List Byte} (hl : f.length = 16) (b : Nat → Byte)
    (hb : ∀ a, a < 14 → f[a]? = some (b a)) :
    decodeTelemetry f = .ok ⟨word (b 0) (b 1) (b 2) (b 3), word (b 4) (b 5) (b 6) (b 7), half (b 8) (b 9),
      half (b 10) (b 11), half (b 12) (b 13)⟩ := by
  match f, hl with
  | [a0, a1, a2, a3, o0, o1, o2, o3, x0, x1, y0, y1, z0, z1, p0, p1], hl =>
    have e : ∀ {x : Byte} (a : Nat), [a0, a1, a2, a3, o0, o1, o2, o3, x0, x1, y0, y1, z0, z1, p0, p1][a]? = some x →
        a < 14 → b a = x := fun a h ha => Option.some.inj ((hb a ha).symm.trans h)
    rw [e 0 rfl (by omega), e 1 rfl (by omega), e 2 rfl (by omega), e 3 rfl (by omega), e 4 rfl (by omega),
      e 5 rfl (by omega), e 6 rfl (by omega), e 7 rfl (by omega), e 8 rfl (by omega), e 9 rfl (by omega),
      e 10 rfl (by omega), e 11 rfl (by omega), e 12 rfl (by omega), e 13 rfl (by omega)]
    simp only [decodeTelemetry, Config.tlmFrameLen, hl, if_true, List.drop, List.take, ofNat_littleEndian_two,
      ofNat_littleEndian_four]

/-- A frame of any other length is malformed (R81). -/
theorem decodeTelemetry_of_length {f : List Byte} (hl : f.length ≠ 16) :
    decodeTelemetry f = .error .malformedFrame := if_neg hl

end Sys2Proof.Machine
end

