-- ==== Sys2Proof/Tests/Slice0.lean ====
section
/-! SUPPORT. The model's own tests. Expected values are those of 95_test_vectors.md (its vector names stand in the
docstrings) or are written out by hand from the rule a docstring names. The second half holds, for every statement
with hypotheses, a state and operands that meet them together. -/

namespace Sys2Proof.Tests

open Sys2Proof.Machine

/-! ### Helpers -/

/-- A field of the next state, if there is one. -/
def after {α : Type} (f : State → α) (r : Result) : Option α :=
  match r with
  | .next s => some (f s)
  | .fault _ => none
  | .refused _ => none

/-- Why a line is refused, if it is. -/
def why (r : Result) : Option Refusal :=
  match r with
  | .next _ => none
  | .fault _ => none
  | .refused e => some e

/-- The machine after reset with another block. -/
def withBlock (b : Block) : State := { State.reset with block := b }

/-- The machine after reset with another host. -/
def withConsole (c : Console) : State := { State.reset with console := c }

/-- The machine after reset with inputs still to happen. -/
def withInputs (xs : List Input) : State := { State.reset with inputs := xs }

/-- After reset with `PSQ_DEG` written. -/
def degState (w : DegWord) : State := withBlock { Block.reset with psqDeg := some w }

/-- What `QMAP` leaves in `PSQ_OUT` for a rational degree. -/
def qmapOut (q : Rat) : Option (Option Byte) := after (·.block.psqOut) (exec .qmap (degState (.finite q)))

/-- After reset with registers 2 to 6 written. -/
def cmdState (op ps1 ps2 ps3 ps4 : Byte) : State :=
  withBlock { Block.reset with
    cmdOpcode := some op, cmdPs1 := some ps1, cmdPs2 := some ps2, cmdPs3 := some ps3, cmdPs4 := some ps4 }

/-- After reset with a frame presented. -/
def frameState (f : List Byte) : State :=
  withBlock { Block.reset with
    rxbuf := memWriteBytes [] 0 f, rxLen := some (BitVec.ofNat 8 f.length) }

/-- The frame of vector T1. -/
def frameT1 : List Byte :=
  [0x00, 0x00, 0x32, 0x42, 0x00, 0x80, 0xF6, 0xC2, 0x64, 0x00, 0x38, 0xFF, 0xFF, 0x7F, 0x00, 0x00]

/-- The frame of vector T9: one byte too long. -/
def frameT9 : List Byte := frameT1 ++ [0x00]

/-- A frame longer than `RX_MAX`. -/
def frameLong : List Byte := List.replicate 256 0x00

/-- The host holding the strings of S6 and A1 to A13: mode `DIRECT`. -/
def directConsole (op d1 d2 d3 d4 : Text) : Console :=
  { Console.reset with opcodeStr := op, mode := .direct, psStr := ⟨d1, d2, d3, d4⟩ }

/-- The strings of S6. -/
def consoleS6 : Console := directConsole ['2'] ['1', '0'] ['2', '0'] ['3', '0'] ['4', '0']

/-- The host in mode `BEAM`. -/
def beamConsole (op angle : Text) : Console :=
  { Console.reset with opcodeStr := op, mode := .beam, angleStr := angle }

/-! ### WellFormed: each field of a command frame is checked (R49, R52) -/

/-- Bit 5 is 0 or bit 7 is 1 in exactly one of the four fields: refused, for each of the three opcodes. -/
theorem test_wellFormed_refuses :
    (Instr.cmdNop 0x00 0x20 0x20 0x20).wellFormed = false ∧ (Instr.cmdNop 0x20 0xA0 0x20 0x20).wellFormed = false
      ∧ (Instr.cmdNop 0x20 0x20 0x5F 0x20).wellFormed = false ∧ (Instr.cmdNop 0x20 0x20 0x20 0xFF).wellFormed = false
      ∧ (Instr.cmdBlink 0xA0 0x20 0x20 0x20).wellFormed = false
      ∧ (Instr.cmdBlink 0x20 0x00 0x20 0x20).wellFormed = false
      ∧ (Instr.cmdBlink 0x20 0x20 0xFF 0x20).wellFormed = false
      ∧ (Instr.cmdBlink 0x20 0x20 0x20 0x5F).wellFormed = false
      ∧ (Instr.cmdSetps 0x5F 0x20 0x20 0x20).wellFormed = false
      ∧ (Instr.cmdSetps 0x20 0xFF 0x20 0x20).wellFormed = false
      ∧ (Instr.cmdSetps 0x20 0x20 0xA0 0x20).wellFormed = false
      ∧ (Instr.cmdSetps 0x20 0x20 0x20 0x00).wellFormed = false := by decide

theorem test_wellFormed_accepts :
    (Instr.cmdSetps 0x60 0x28 0x2C 0x6C).wellFormed = true ∧ (Instr.cmdNop 0x20 0x7F 0x22 0x2D).wellFormed = true
      ∧ (Instr.psw 63).wellFormed = true := by decide

/-! ### Decoding words written out from the encodings (R48 to R52) -/

/-- R50: `req_op` is two bits, 00, 01, 10, 11. -/
theorem test_decode_requests :
    decodeTableWord 2 0b00 = some .qmap ∧ decodeTableWord 2 0b01 = some .encode ∧ decodeTableWord 2 0b10 = some .decode
      ∧ decodeTableWord 2 0b11 = some .reqReserved := by decide

/-- R49, R51: bits 7:0 the opcode, 15:8 ps1, 23:16 ps2, 31:24 ps3, 39:32 ps4; field order of E5. -/
theorem test_decode_commands :
    decodeTableWord 40 0b01100000_00100100_01111111_00100000_00000010 = some (.cmdSetps 0x20 0x7F 0x24 0x60)
      ∧ decodeTableWord 40 0b01111111_01100000_00100000_00100100_00000001 = some (.cmdBlink 0x24 0x20 0x60 0x7F)
      ∧ decodeTableWord 40 0b00100001_00110000_00101000_01100000_00000000 = some (.cmdNop 0x60 0x28 0x30 0x21)
      ∧ decodeTableWord 40 0b00100000_00100000_00100000_00100000_00000011 = none := by decide

/-- R48, vector T5: every field little-endian at its offset, the pad last. -/
theorem test_decode_telemetry :
    decodeTableWord 128 0x55AA0E0D0C0B0A090807060504030201
      = some (.tlm 0x04030201 0x08070605 0x0A09 0x0C0B 0x0E0D 0x55AA) := by decide

/-- R52, section 2.3: one code bit at a time, and two mixed codes. -/
theorem test_decode_controlWords :
    decodeTableWord 8 0b00100100 = some (.psw 1) ∧ decodeTableWord 8 0b01100000 = some (.psw 2)
      ∧ decodeTableWord 8 0b00101000 = some (.psw 4) ∧ decodeTableWord 8 0b00110000 = some (.psw 8)
      ∧ decodeTableWord 8 0b00100001 = some (.psw 16) ∧ decodeTableWord 8 0b00100010 = some (.psw 32)
      ∧ decodeTableWord 8 0b01110010 = some (.psw 0b101010) ∧ decodeTableWord 8 0b00101101 = some (.psw 0b010101)
      ∧ decodeTableWord 8 0b10100000 = none ∧ decodeTableWord 8 0b01011111 = none := by decide

/-- The words the encoder gives, by hand from R49 and R52. -/
theorem test_encode :
    encodeItem (.cmdSetps 0x60 0x28 0x2C 0x6C) = [0x02, 0x60, 0x28, 0x2C, 0x6C] ∧ encodeItem (.psw 42) = [0x72]
      ∧ encodeItem (.tlm 0x42320000 0xC2F68000 0x0064 0xFF38 0x7FFF 0x0000) = frameT1 := by decide

/-! ### One instruction, one step -/

/-- Q1, Q4, Q9, Q12, Q15: the ends of the domain and three ties. -/
theorem test_qmap_values :
    qmapOut 0 = some (some 0x20) ∧ qmapOut (mkRat 353 126) = some (some 0x20)
      ∧ qmapOut (mkRat 353 2) = some (some 0x22) ∧ qmapOut (mkRat 44125 126) = some (some 0x7B)
      ∧ qmapOut 353 = some (some 0x7F) := by decide

/-- Q3, Q5, Q6, Q8, Q10, Q11, Q13: beside the ties. -/
theorem test_qmap_fractions :
    qmapOut (mkRat 14 5) = some (some 0x20) ∧ qmapOut (mkRat 281 100) = some (some 0x24)
      ∧ qmapOut (mkRat 353 42) = some (some 0x60) ∧ qmapOut (mkRat 17649 100) = some (some 0x7D)
      ∧ qmapOut (mkRat 17651 100) = some (some 0x22) ∧ qmapOut (mkRat 3501 10) = some (some 0x7B)
      ∧ qmapOut (mkRat 1751 5) = some (some 0x7F) := by decide

/-- Q16 to Q21: a negative zero runs, the rest is refused, each for its own reason. -/
theorem test_qmap_refusals :
    after (·.block.psqOut) (exec .qmap (degState .negZero)) = some (some 0x20)
      ∧ why (exec .qmap (degState (.finite (mkRat 3531 10)))) = some .degreeOutOfDomain
      ∧ why (exec .qmap (degState (.finite (mkRat (-1) 10)))) = some .degreeOutOfDomain
      ∧ why (exec .qmap (degState .nan)) = some .degreeNotANumber
      ∧ why (exec .qmap (degState .posInf)) = some .degreeNotANumber
      ∧ why (exec .qmap (degState .negInf)) = some .degreeNotANumber
      ∧ why (exec .qmap State.reset) = some (.holdsNoValue .psqDeg) := by decide

/-- Section 2.1: the codes on both sides of eight tie points. -/
theorem test_quantize_whole :
    [2, 3, 8, 9, 86, 87, 131, 132, 176, 177, 266, 267, 316, 317, 350, 351].map quantize
      = [0, 1, 1, 2, 15, 16, 23, 24, 31, 32, 47, 48, 56, 57, 62, 63] := by decide

/-- R73: the control words of codes 0 to 63. -/
theorem test_controlWord_table :
    (List.range 64).map (fun n => controlWord (BitVec.ofNat 6 n)) =
      [0x20, 0x24, 0x60, 0x64, 0x28, 0x2C, 0x68, 0x6C, 0x30, 0x34, 0x70, 0x74, 0x38, 0x3C, 0x78, 0x7C]
        ++ [0x21, 0x25, 0x61, 0x65, 0x29, 0x2D, 0x69, 0x6D, 0x31, 0x35, 0x71, 0x75, 0x39, 0x3D, 0x79, 0x7D]
        ++ [0x22, 0x26, 0x62, 0x66, 0x2A, 0x2E, 0x6A, 0x6E, 0x32, 0x36, 0x72, 0x76, 0x3A, 0x3E, 0x7A, 0x7E]
        ++ [0x23, 0x27, 0x63, 0x67, 0x2B, 0x2F, 0x6B, 0x6F, 0x33, 0x37, 0x73, 0x77, 0x3B, 0x3F, 0x7B, 0x7F] := by
  decide

/-- E1 and E6: five bytes in order, and a packet that is not valid is copied all the same. -/
theorem test_encode_request :
    after (fun t => memReadBytes t.block.txbuf 0 5) (exec .encode (cmdState 0x02 0x60 0x28 0x2C 0x6C))
      = some (some [0x02, 0x60, 0x28, 0x2C, 0x6C])
      ∧ after (fun t => memReadBytes t.block.txbuf 0 5) (exec .encode (cmdState 0x07 0x00 0xFF 0x80 0x1F))
      = some (some [0x07, 0x00, 0xFF, 0x80, 0x1F]) := by decide

/-- E7: an operand that holds no value; and the `STATUS` of a good `ENCODE` over an old error. -/
theorem test_encode_refused :
    why (exec .encode State.reset) = some (.holdsNoValue .cmdOpcode)
      ∧ after (·.block.status) (exec .encode
          (withBlock { (cmdState 0 0 0 0 0).block with status := 0x5C })) = some 0x0E := by decide

/-- T1: the five fields. -/
theorem test_decode_request :
    after (fun t => (t.block.tlmLat, t.block.tlmLon, t.block.tlmMx, t.block.tlmMy, t.block.tlmMz))
      (exec .decode (frameState frameT1))
      = some (some 0x42320000, some 0xC2F68000, some 0x0064, some 0xFF38, some 0x7FFF)
      ∧ after (·.block.status) (exec .decode (frameState frameT1)) = some 0x04 := by decide

/-- T6, T8, T9 and T11: other lengths are malformed (P2: 0x04 becomes 0x14), no length at all is refused. -/
theorem test_decode_malformed :
    after (·.block.status) (exec .decode (frameState [])) = some 0x10
      ∧ after (·.block.status) (exec .decode (frameState (frameT1.take 15))) = some 0x10
      ∧ after (fun t => (t.block.status, t.block.tlmLat)) (exec .decode
          (withBlock { (frameState frameT9).block with status := 0x04, tlmLat := some 7 })) = some (0x14, some 7)
      ∧ why (exec .decode State.reset) = some (.holdsNoValue .rxLen) := by decide

/-- P5: the reserved request on `STATUS` = 0x14. -/
theorem test_reserved_request :
    after (·.block.status) (exec .reqReserved (withBlock { Block.reset with status := 0x14 })) = some 0x5C
      ∧ after (·.block.psqOut) (exec .reqReserved (withBlock { Block.reset with psqOut := some 0x20 }))
        = some (some 0x20) := by decide

/-- E1, E2, E3 through the tail of `SEND` (R58): the transmitted bytes and their node. -/
theorem test_command_frames :
    after (·.radio.sent) (exec (.cmdSetps 0x60 0x28 0x2C 0x6C) State.reset)
      = some [⟨[0x02, 0x60, 0x28, 0x2C, 0x6C], 2⟩]
      ∧ after (·.radio.sent) (exec (.cmdNop 0x20 0x20 0x20 0x20) State.reset)
        = some [⟨[0x00, 0x20, 0x20, 0x20, 0x20], 2⟩]
      ∧ after (·.radio.sent) (exec (.cmdBlink 0x7F 0x7F 0x7F 0x7F) State.reset)
        = some [⟨[0x01, 0x7F, 0x7F, 0x7F, 0x7F], 2⟩] := by decide

/-- T5 through `RECV` (R58): fields, and the `STATUS` that was read. -/
theorem test_telemetry_frame :
    after (fun t => (t.block.tlmLat, t.block.tlmMz, t.block.rxLen, t.console.readData))
      (exec (.tlm 0x04030201 0x08070605 0x0A09 0x0C0B 0x0E0D 0x55AA) State.reset)
      = some (some 0x04030201, some 0x0E0D, some 16, some (.byte 0x04)) := by decide

/-- Section 2.3: code 42 is produced as 0x72. -/
theorem test_control_word :
    after (fun t => (t.block.psqOut, t.console.readData)) (exec (.psw 42) State.reset)
      = some (some 0x72, some (.byte 0x72)) := by decide

/-- A word placed by `withFetchWord` is what the next step runs. -/
theorem test_withFetchWord :
    after (·.block.psqOut) (step (State.reset.withFetchWord 8 0x7F)) = some (some 0x7F)
      ∧ after (·.block.status) (step (State.reset.withFetchWord 2 0b11)) = some 0x58
      ∧ after (·.radio.sent) (step (State.reset.withFetchWord 40 0x2020202000))
        = some [⟨[0x00, 0x20, 0x20, 0x20, 0x20], 2⟩]
      ∧ after (·.block.tlmLon) (step (State.reset.withFetchWord 128 0x55AA0E0D0C0B0A090807060504030201))
        = some (some 0x08070605) := by decide

/-! ### The host -/

/-- A1, A2, A4, A6, A7, A9 and A13: which test fails first. -/
theorem test_assemble_errors :
    assemble (directConsole ['5'] ['1', '0'] ['2', '0'] ['3', '0'] ['4', '0']) = .error .invalidOpcode
      ∧ assemble (directConsole abcText ['1', '0'] ['2', '0'] ['3', '0'] ['4', '0']) = .error .invalidOpcode
      ∧ assemble (directConsole ['2'] ['1', '0'] ['4', '0', '0'] ['3', '0'] ['4', '0'])
        = .error .invalidPhaseShifterRange
      ∧ assemble (directConsole ['2'] ['1', '0'] abcText ['3', '0'] ['4', '0']) = .error .invalidPhaseShifterRange
      ∧ assemble (directConsole ['5'] ['1', '0'] ['4', '0', '0'] ['3', '0'] ['4', '0']) = .error .invalidOpcode
      ∧ assemble { Console.reset with opcodeStr := ['5'] } = .error .invalidOpcode
      ∧ assemble (directConsole ['0'] ['4', '0', '0'] ['0'] ['0'] ['0']) = .error .invalidPhaseShifterRange := by
  decide

/-- A3, A5, A8, A12 and S6. -/
theorem test_assemble_values :
    assemble consoleS6 = .packet 2 ⟨0x60, 0x28, 0x2C, 0x6C⟩
      ∧ assemble { consoleS6 with opcodeStr := ['1'] } = .packet 1 ⟨0x60, 0x28, 0x2C, 0x6C⟩
      ∧ assemble (directConsole ['2'] ['0'] ['3', '5', '3'] ['0'] ['3', '5', '3'])
        = .packet 2 ⟨0x20, 0x7F, 0x20, 0x7F⟩
      ∧ assemble { Console.reset with opcodeStr := ['2'] } = .nothing
      ∧ assemble (beamConsole ['2'] abcText) = .noMeaning := by decide

/-- R96, R122: an unrecognised mode ends the assembly with the message as it was. -/
theorem test_unsupported_mode :
    after (fun t => (t.console.worker, t.console.display.errorMessage)) (workerMove none
      (withConsole { Console.reset with
        worker := .readingMode 2, display := { Display.reset with errorMessage := ['o', 'l', 'd'] } }))
      = some (.idle, ['o', 'l', 'd']) := by decide

/-- R100: step 1 rejects "5", and the message is written by the move after, not empty. -/
theorem test_message_written_next :
    after (fun t => (t.console.worker, t.console.display.errorMessage)) (workerMove none
      (withConsole { Console.reset with worker := .readingOpcode, opcodeStr := ['5'] }))
      = some (.reporting .invalidOpcode, [])
      ∧ after (fun t => (t.console.worker, t.console.display.errorMessage.isEmpty)) (workerMove none
        (withConsole { Console.reset with worker := .reporting .invalidOpcode })) = some (.idle, false) := by decide

/-- R42: the counter is seen before the older write of a latitude, and the first of two latitudes before the second. -/
theorem test_unordered_view :
    let c := { Console.reset with unseen := [.lat 1, .lat 2, .count 8] }
    ((deliver (.tlm .count) c).screen.count = some 8 ∧ (deliver (.tlm .count) c).screen.lat = none)
      ∧ (deliver (.tlm .lat) c).screen.lat = some 1 ∧ (deliver (.tlm .lat) c).unseen = [.lat 2, .count 8]
      ∧ deliver (.tlm .lon) c = c := by decide

/-- R106, P4: the counter goes from 7 to 8, and then each scalar is published, the latitude first. -/
theorem test_counter :
    after (fun t => (t.console.rxCount, t.console.worker)) (workerMove none
      (withConsole { Console.reset with worker := .countingFrame, rxCount := 7 })) = some (8, .publishing .lat)
      ∧ after (fun t => (t.console.display.count, t.console.worker)) (workerMove none
        (withConsole { Console.reset with worker := .publishing .count, rxCount := 8 }))
        = some (some 8, .checkSendRequest) := by decide

/-- R107: the flag is clear before the assembler runs. -/
theorem test_flag_cleared_first :
    after (fun t => (t.console.pendingSend, t.console.worker)) (workerMove none
      (withConsole { Console.reset with worker := .clearingFlag, pendingSend := true }))
      = some (false, .readingOpcode) := by decide

/-! ### The buffers -/

/-- R33, R35: little-endian, in both directions. -/
theorem test_memory_order :
    memReadWord (memWriteBytes [] 4 [0x00, 0x80, 0xF6, 0xC2]) 4 = some 0xC2F68000
      ∧ memWriteLE [] 4 4 0xC2F68000 = [(4, 0x00), (5, 0x80), (6, 0xF6), (7, 0xC2)]
      ∧ memReadHalf (memWrite [] 8 0x64) 8 = none := by decide

/-- A write out of order is kept in order; an overwrite adds no cell. -/
theorem test_memory_form :
    memWrite (memWrite (memWrite [] 3 0x33) 1 0x11) 3 0x44 = [(1, 0x11), (3, 0x44)] := by decide

/-! ### Witnesses: the hypotheses of each statement are met together -/

/-- Encodings: bytes that decode (EncodeInvertsDecode, StepRunsTheDecodedItem), bytes that do not, and each kind of
reserved bytes at its bounds (ReservedEncodingsAreNoItem). -/
theorem test_witness_encodings :
    (decodeItem [0x72] = .ok (.psw 42) ∧ decodeItem [2, 0x60, 0x28, 0x2C, 0x6C] = .ok (.cmdSetps 0x60 0x28 0x2C 0x6C))
      ∧ decodeItem [0x80] = .error (.illegalControlWord 0x80)
      ∧ (3 ≤ (3 : Byte).toNat ∧ 3 ≤ (255 : Byte).toNat)
      ∧ (4 ≤ (4 : Byte).toNat ∧ (4 : Byte).getLsbD 5 = false) ∧ (4 ≤ (0xFF : Byte).toNat ∧ (0xFF : Byte).getLsbD 7 = true)
      ∧ (([] : List Byte).length ≠ 1 ∧ ([] : List Byte).length ≠ Config.cmdFrameLen
        ∧ ([] : List Byte).length ≠ Config.tlmFrameLen)
      ∧ (frameT9.length ≠ 1 ∧ frameT9.length ≠ Config.cmdFrameLen ∧ frameT9.length ≠ Config.tlmFrameLen) := by decide

/-- StepRunsTheDecodedItem (both clauses), StepWithoutInputWaits and ResetClearsTheBlock. -/
theorem test_witness_inputs :
    ((withInputs [.item [3], .reset]).inputs = .item [3] :: [.reset] ∧ decodeItem [3] = .ok .reqReserved)
      ∧ ((withInputs [.item [0x80]]).inputs = .item [0x80] :: [] ∧ decodeItem [0x80] = .error (.illegalControlWord 0x80))
      ∧ State.reset.inputs = [] ∧ (withInputs [.reset, .uiSend]).inputs = .reset :: [.uiSend] := by decide

/-- QmapWritesTheExactControlWord: a finite degree and a negative zero. -/
theorem test_witness_qmap :
    ((degState (.finite 353)).block.psqDeg = some (.finite 353) ∧ degValue (.finite 353) = some 353
        ∧ inDegDomain 353 = true)
      ∧ ((degState .negZero).block.psqDeg = some .negZero ∧ degValue .negZero = some 0 ∧ inDegDomain 0 = true) := by
  decide

/-- QuantizedCodeRange, QuantizedCodeIntervals, TiesGoToTheEvenCode, QuantizerClosedForm and QuantizerIsMonotone: the
ends of the domain and a tie are in the domain. -/
theorem test_witness_domain : InDomain 0 ∧ InDomain 353 ∧ InDomain (353 / 2) ∧ InDomain (353 / 126) ∧ (0 : Rat) ≤ 353 := by
  simp only [InDomain, Config.maxPsDegVal]
  norm_num

/-- QuantizedCodeIntervals: each of its three ways holds somewhere, at codes 0 and 63 too. -/
theorem test_witness_intervals :
    (tiePoint (0 - 1) < 0 ∧ (0 : Rat) < tiePoint 0) ∧ (tiePoint (63 - 1) < 353 ∧ (353 : Rat) < tiePoint 63)
      ∧ (353 / 2 : Rat) = tiePoint (32 - 1) ∧ (353 / 126 : Rat) = tiePoint 0 := by
  simp only [tiePoint]
  norm_num

/-- TiesGoToTheEvenCode: the scaled value of 353/2 lies half-way, at an odd place and at the last. -/
theorem test_witness_tie :
    (scaled (353 / 2) - (scaled (353 / 2)).floor = 1 / 2) ∧ (353 / 2 : Rat) = tiePoint 31
      ∧ quantize (mkRat 353 2) = 32 ∧ quantize (mkRat 44125 126) = 62 := by
  refine ⟨?_, ?_, by decide, by decide⟩
  · have h : scaled (353 / 2) = 63 / 2 := by
      simp only [scaled, Config.maxPsBitVal, Config.maxPsDegVal]
      norm_num
    have hf : (63 / 2 : Rat).floor = 31 := by
      have h1 : (31 : Int) ≤ (63 / 2 : Rat).floor := Rat.le_floor_iff.2 (by norm_num)
      have h2 : (63 / 2 : Rat).floor < 32 := Rat.floor_lt_iff.2 (by norm_num)
      omega
    rw [h, hf]
    norm_num
  · simp only [tiePoint]
    norm_num

/-- RemapIsInvertible: 0x72 is a legal word; codes 0 and 63 differ in their words. -/
theorem test_witness_remap :
    ((0x72 : Byte).getLsbD 5 = true ∧ (0x72 : Byte).getLsbD 7 = false) ∧ controlWord 42 = 0x72
      ∧ controlWord 42 = controlWord 0b101010 := by decide

/-- EncodeCopiesTheFiveOperands, and the states of EncodeIsInjective and of ResultsDependOnOperandsOnly. -/
theorem test_witness_encode :
    ((cmdState 2 0x60 0x28 0x2C 0x6C).block.cmdOpcode = some 2 ∧ (cmdState 2 0x60 0x28 0x2C 0x6C).block.cmdPs1 = some 0x60
        ∧ (cmdState 2 0x60 0x28 0x2C 0x6C).block.cmdPs2 = some 0x28
        ∧ (cmdState 2 0x60 0x28 0x2C 0x6C).block.cmdPs3 = some 0x2C
        ∧ (cmdState 2 0x60 0x28 0x2C 0x6C).block.cmdPs4 = some 0x6C)
      ∧ ∃ t t' : State, exec .encode (cmdState 2 0x60 0x28 0x2C 0x6C) = .next t
        ∧ exec .encode { cmdState 2 0x60 0x28 0x2C 0x6C with console := consoleS6 } = .next t'
        ∧ ∀ a, a < 5 → memRead t.block.txbuf a = memRead t'.block.txbuf a := by
  refine ⟨by decide, _, _, rfl, rfl, fun _ _ => rfl⟩

/-- DecodeExtractsTheFields: every byte of the frame holds the value a function gives. -/
theorem test_witness_decode :
    (frameState frameT1).block.rxLen = some 16
      ∧ ∀ a, a < 16 → memRead (frameState frameT1).block.rxbuf a = some (frameT1.getD a 0) := by decide

/-- MalformedFrameWritesOnlyItsCode: lengths 0, 15 and 17. -/
theorem test_witness_malformed :
    ∀ n : Byte, n = 0 ∨ n = 15 ∨ n = 17 →
      (withBlock { Block.reset with rxLen := some n }).block.rxLen = some n ∧ n.toNat ≤ Config.rxMax ∧ n.toNat ≠ 16 := by
  rintro n (rfl | rfl | rfl) <;> decide

/-- TelemetryRoundTrip and DecodeRefinesDecodeTelemetry: frames that differ in the pad only are received and decoded;
both outcomes of `decode_telemetry` occur. -/
theorem test_witness_roundTrip :
    (∃ s1, hostRxFrame (encodeItem (.tlm 0x42320000 0xC2F68000 0x0064 0xFF38 0x7FFF 0)) State.reset = .next s1)
      ∧ (∃ s1 s2 t1 t2, hostRxFrame frameT1 State.reset = .next s1
        ∧ hostRxFrame (frameT1.take 14 ++ [0x12, 0x34]) State.reset = .next s2 ∧ exec .decode s1 = .next t1
        ∧ exec .decode s2 = .next t2 ∧ t1.block.tlmLat = t2.block.tlmLat)
      ∧ (frameT1.length ≤ Config.rxMax ∧ decodeTelemetry frameT1 = .ok ⟨0x42320000, 0xC2F68000, 0x0064, 0xFF38, 0x7FFF⟩)
      ∧ (frameT9.length ≤ Config.rxMax ∧ decodeTelemetry frameT9 = .error .malformedFrame) :=
  ⟨⟨_, rfl⟩, ⟨_, _, _, _, rfl, rfl, rfl, rfl, rfl⟩, ⟨by decide, by rfl⟩, by decide, by rfl⟩

/-- ReservedRequestIsIllegalRequest, second clause: `ILL_REQ` is 1 and a step that is no reset is taken. -/
theorem test_witness_sticky :
    ∃ t, step { withInputs [.item [0x72]] with block := { Block.reset with status := 0x58 } } = .next t
      ∧ (∀ rest, [Input.item [0x72]] ≠ .reset :: rest) ∧ illReq 0x58 = true :=
  ⟨_, rfl, by simp, by decide⟩

/-- CommandFramesAreSent: each of its three forms. -/
theorem test_witness_commands :
    ((Instr.cmdNop 1 2 3 4 = .cmdNop 1 2 3 4) ∧ (0 : Byte) = 0) ∧ ((Instr.cmdBlink 1 2 3 4 = .cmdBlink 1 2 3 4) ∧ (1 : Byte) = 1)
      ∧ ((Instr.cmdSetps 1 2 3 4 = .cmdSetps 1 2 3 4) ∧ (2 : Byte) = 2) := by decide

/-- ResultsDependOnOperandsOnly, QMAP and DECODE: states that agree on the operands and differ elsewhere. -/
theorem test_witness_operands :
    (∃ t t', (degState (.finite 10)).block.psqDeg = ({ degState (.finite 10) with console := consoleS6 }).block.psqDeg
        ∧ exec .qmap (degState (.finite 10)) = .next t
        ∧ exec .qmap { degState (.finite 10) with console := consoleS6 } = .next t')
      ∧ (∃ t t', exec .decode (frameState frameT1) = .next t
        ∧ exec .decode (frameState (frameT1.take 14 ++ [0x12, 0x34])) = .next t')
      ∧ (∀ a, a < 14 → memRead (frameState frameT1).block.rxbuf a
        = memRead (frameState (frameT1.take 14 ++ [0x12, 0x34])).block.rxbuf a)
      ∧ (frameState (frameT1.take 14 ++ [0x12, 0x34])).block.rxLen = some 16 :=
  ⟨⟨_, _, rfl, rfl, rfl⟩, ⟨_, _, rfl, rfl⟩, by decide, by decide⟩

/-- RequestsRepeat: each request runs with TXBUF in canonical form. -/
theorem test_witness_repeat :
    MemWf (degState .negZero).block.txbuf ∧ (∃ t, exec .qmap (degState .negZero) = .next t)
      ∧ (∃ t, exec .encode (cmdState 0 0 0 0 0) = .next t) ∧ (∃ t, exec .decode (frameState frameT1) = .next t) :=
  ⟨by decide, ⟨_, rfl⟩, ⟨_, rfl⟩, ⟨_, rfl⟩⟩

/-- HostWritesOperandsOnly: a write that is taken, registers 2 and 7, registers 1, 8 and 13, and offset 16. -/
theorem test_witness_hostWrite :
    (∃ t, hostWrite .psqDeg (.degree .nan) State.reset = .next t)
      ∧ (2 ≤ regNumber .cmdOpcode ∧ regNumber .cmdOpcode ≤ 7) ∧ (2 ≤ regNumber .rxLen ∧ regNumber .rxLen ≤ 7)
      ∧ regNumber .psqOut = 1 ∧ 8 ≤ regNumber .tlmLat ∧ 8 ≤ regNumber .status ∧ 16 < Config.rxMax :=
  ⟨⟨_, rfl⟩, by decide⟩

/-- HostReadsValidResultsOnly: each clause, and HostReadsTheFrameWhenValid at offsets 4 and 5. -/
theorem test_witness_hostRead :
    readable 0x00 .psqOut = false ∧ (readable 0x00 .psqDeg = true ∧ regValue Block.reset .psqDeg = none)
      ∧ (readable 0x04 .tlmMz = true ∧ regValue { Block.reset with tlmMz := some 7, status := 0x04 } .tlmMz = some (.half 7))
      ∧ (4 < 5 ∧ txValid 0x00 = false) ∧ (4 < 5 ∧ txValid 0x02 = true ∧ memRead [(4, 0x6C)] 4 = some 0x6C) ∧ 5 ≤ 5 := by
  decide

/-- RxFrameWritesTheFrame: lengths 0, 17 and 256. -/
theorem test_witness_rxFrame :
    ([] : List Byte).length ≤ Config.rxMax ∧ frameT9.length ≤ Config.rxMax ∧ Config.rxMax < frameLong.length := by
  have h := rxMax_bounds.2
  refine ⟨by decide, by decide, ?_⟩
  simp only [frameLong, List.length_replicate]
  omega

/-- The state after reset, and a state one transmit later, meet the block's invariant. -/
theorem test_witness_blockInv : BlockInv Block.reset := by
  constructor <;> simp [Block.reset, MemWf, LegalOrNone, psqValid, txValid, tlmValid, lastErr, noError]

/-- EveryStepKeepsTheBlockInvariant and AtMostOneTransmissionPerStep: a step is taken from such a state, and it
transmits. -/
theorem test_witness_step :
    BlockInv (withInputs [.item [2, 0x60, 0x28, 0x2C, 0x6C]]).block
      ∧ ∃ t, step (withInputs [.item [2, 0x60, 0x28, 0x2C, 0x6C]]) = .next t ∧ t.radio.sent ≠ [] :=
  ⟨test_witness_blockInv, _, rfl, by simp [recordTransmit]⟩

/-- ResultsHaveOneWriter: a reserved request writes no result, a move of the worker from a place that runs no request
writes nothing, and neither writes an operand register. -/
theorem test_witness_oneWriter :
    ((∃ t, step (withInputs [.item [3]]) = .next t) ∧ ∃ t, step (withInputs [.worker none]) = .next t)
      ∧ requestOf .idle (.item [3]) = some .reserved ∧ requestOf .idle (.worker none) = none
      ∧ Reg.psqDeg ∉ hostWritesOf .idle (.item [3]) ∧ Reg.rxLen ∉ hostWritesOf .idle (.worker none)
      ∧ writesRxBuf .idle (.hostWrite .rxLen (.byte 5)) = false :=
  ⟨⟨⟨_, rfl⟩, _, rfl⟩, by decide⟩

/-- UiTouchesOnlyItsScalars: each event, with a write waiting behind a write to another scalar, and with none. -/
theorem test_witness_ui :
    (withInputs [.uiSend]).inputs = .uiSend :: [] ∧ (withInputs [.uiEdit (.opcode [])]).inputs = .uiEdit (.opcode []) :: []
      ∧ (withInputs [.uiEdit (.mode .beam)]).inputs = .uiEdit (.mode .beam) :: []
      ∧ (withInputs [.uiEdit (.angle ['0'])]).inputs = .uiEdit (.angle ['0']) :: []
      ∧ (withInputs [.uiEdit (.ps .c4 ['3'])]).inputs = .uiEdit (.ps .c4 ['3']) :: []
      ∧ (∃ u : State, u.inputs = .uiSees (.tlm .count) :: [] ∧ u.console.unseen = [.lat 1] ++ .count 8 :: [.count 9]
          ∧ (ShownWrite.count 8).scalar = .tlm .count ∧ ∀ x ∈ ([.lat 1] : List ShownWrite), x.scalar ≠ .tlm .count)
      ∧ ∃ u : State, u.inputs = .uiSees .errorMessage :: [] ∧ u.console.unseen = [.lat 1]
          ∧ ∀ x ∈ u.console.unseen, x.scalar ≠ .errorMessage := by
  refine ⟨rfl, rfl, rfl, rfl, rfl, ⟨{ withInputs [.uiSees (.tlm .count)] with console := { Console.reset with
    unseen := [.lat 1, .count 8, .count 9] } }, rfl, rfl, rfl, by decide⟩, ⟨{ withInputs [.uiSees .errorMessage] with
    console := { Console.reset with unseen := [.lat 1] } }, rfl, rfl, by decide⟩⟩

/-- EveryStepKeepsTheDisplayInvariant: a state with a write not seen yet meets it, and a step is taken from there. -/
theorem test_witness_display :
    DisplayInv { Console.reset with unseen := [.count 8], display := { Display.reset with count := some 8 } }
      ∧ ∃ t, step { withInputs [.uiSees (.tlm .count)] with
          console := { Console.reset with unseen := [.count 8], display := { Display.reset with count := some 8 } } }
            = .next t :=
  ⟨rfl, _, rfl⟩

/-- SendCheckWithoutRequest. -/
theorem test_witness_noRequest :
    ({ Console.reset with worker := .checkSendRequest }).worker = .checkSendRequest
      ∧ ({ Console.reset with worker := .checkSendRequest }).pendingSend = false := by decide

/-- LoopFollowsItsStates: a move that stays and a move that takes an arrow. -/
theorem test_witness_loop :
    (∃ t, workerMove none (withConsole { Console.reset with worker := .clearingFlag }) = .next t)
      ∧ ∃ t, workerMove (some []) (withConsole { Console.reset with worker := .polling }) = .next t :=
  ⟨⟨_, rfl⟩, _, rfl⟩

/-- GoodFrameIsPublished. -/
theorem test_witness_goodFrame :
    ({ withConsole { Console.reset with worker := .telemetryReceived frameT1 } with inputs := workerMoves 11 ++ [] }).console.worker
        = .telemetryReceived frameT1
      ∧ decodeTelemetry frameT1 = .ok ⟨0x42320000, 0xC2F68000, 0x0064, 0xFF38, 0x7FFF⟩ := ⟨rfl, rfl⟩

/-- MalformedFrameIsLogged: a frame of 17 bytes takes three moves, one of 256 bytes one. -/
theorem test_witness_badFrame :
    (frameT9.length ≠ 16 ∧ 3 = (if Config.rxMax < frameT9.length then 1 else 3))
      ∧ (frameLong.length ≠ 16 ∧ 1 = (if Config.rxMax < frameLong.length then 1 else 3)) := by
  have h := rxMax_bounds.2
  refine ⟨by decide, ?_⟩
  simp only [frameLong, List.length_replicate]
  exact ⟨by decide, (if_pos (by omega)).symm⟩

/-- SendFlagRace: the inputs of its first clause and a move of its second. -/
theorem test_witness_race :
    ({ withConsole { Console.reset with worker := .clearingFlag } with
        inputs := [.uiSend, .worker none] }).inputs = .uiSend :: .worker none :: []
      ∧ Console.reset.worker ≠ .clearingFlag ∧ ∃ t, step (withInputs [.worker none]) = .next t :=
  ⟨rfl, by decide, _, rfl⟩

/-- DrainTransmitsTheAssembledFrame and AssembledPacketsAreValid, mode `DIRECT`: S6 with the flag set. -/
theorem test_witness_drain :
    ({ consoleS6 with worker := .checkSendRequest, pendingSend := true }).pendingSend = true
      ∧ assemble { consoleS6 with worker := .checkSendRequest, pendingSend := true } = .packet 2 ⟨0x60, 0x28, 0x2C, 0x6C⟩
      ∧ 25 = (if consoleS6.mode = .direct then 25 else 26) := by decide

/-- The same in mode `BEAM`, for any calculator whose wrapped phase of the angle 0 is 0 (the calculator is free, so no
value of it can be shown). -/
theorem test_witness_drain_beam
    (h : wrapPhase (Config.phaseShiftForAngle Config.geometryRatio 0) = .finite 0) :
    assemble { beamConsole ['2'] ['0'] with worker := .checkSendRequest, pendingSend := true }
      = .packet 2 ⟨0x20, 0x20, 0x20, 0x20⟩ := by
  have hp : beamPhase 0 = .finite 0 := h
  have ho : opcodeOf (parseInt ['2']) = some 2 := by decide
  have ha : parseInt ['0'] = some 0 := by decide
  have hq : quantizeAndMap 0 = 0x20 := by decide
  have hd : inDegDomain 0 = true := by decide
  simp [assemble, beamConsole, ho, ha, beamDegrees, hp, degValues, degValue, assembleDegrees, allInRange, hq, hd]

/-- FailedAssemblyTransmitsNothing: an error and an abort. -/
theorem test_witness_failed :
    assemble { directConsole ['5'] [] [] [] [] with worker := .checkSendRequest, pendingSend := true }
        = .error .invalidOpcode
      ∧ assemble { Console.reset with opcodeStr := ['2'], worker := .checkSendRequest, pendingSend := true } = .nothing := by
  decide

/-- BeamModeChannels: an opcode and an angle that parse, a worker about to read the angle with five moves to come, and a
word that denotes a number. -/
theorem test_witness_beam :
    ((beamConsole ['2'] ['0']).mode = .beam ∧ parseInt (beamConsole ['2'] ['0']).opcodeStr = some 2
        ∧ parseInt (beamConsole ['2'] ['0']).angleStr = some 0)
      ∧ (∃ u : State, u.console.worker = .readingAngle 2 ∧ parseInt u.console.angleStr = some 0
          ∧ u.inputs = workerMoves 5 ++ [])
      ∧ degValue (.finite 355) = some 355 :=
  ⟨by decide, ⟨{ withInputs (workerMoves 5) with console := { beamConsole ['2'] ['0'] with worker := .readingAngle 2 } },
    rfl, by decide, rfl⟩, rfl⟩

/-- AssemblerTestsInOrder: opcodes "abc" and "3"; an accepted opcode in no mode; degrees "354" and "abc". -/
theorem test_witness_order :
    parseInt abcText = none ∧ parseInt ['3'] = some 3 ∧ parseInt ['0'] = some 0 ∧ parseInt ['2'] = some 2
      ∧ Console.reset.mode = .other ∧ (directConsole ['2'] [] [] [] []).mode = .direct
      ∧ parseNumber ['3', '5', '4'] = some 354 ∧ inDegDomain 354 = false ∧ parseNumber abcText = none := by decide

/-- ParsersOnDigitStrings: a list of digits that is not empty. -/
theorem test_witness_digits : ([3, 5, 3] : List (Fin 10)) ≠ [] := by decide

/-- EveryStepKeepsTheSystemInvariant and TheLoopNeverStops: reset meets the invariant and a move of the worker is taken;
and a worker in a place that promises something of the block meets it too. -/
theorem test_witness_system :
    SystemInv (withInputs [.worker none]) ∧ NextOfSystem (withInputs [.worker none])
      ∧ (∃ t, step (withInputs [.worker none]) = .next t)
      ∧ SystemInv { cmdState 2 0x60 0x28 0x2C 0x6C with console := { consoleS6 with worker := .encoding } } := by
  refine ⟨⟨trivial, by simp [SentValid, withInputs, State.reset]⟩, ?_, ⟨_, rfl⟩, ?_, ?_⟩
  · intro x rest h
    simp only [withInputs, List.cons.injEq] at h
    rw [← h.1]
    rfl
  · exact ⟨⟨2, rfl, by simp [OpcodeOk]⟩, ⟨_, rfl, rfl⟩, ⟨_, rfl, rfl⟩, ⟨_, rfl, rfl⟩, ⟨_, rfl, rfl⟩⟩
  · simp [SentValid, cmdState, withBlock, State.reset]

/-- RequestsAreRefusedByName: each clause, with one operand missing or out of the domain. -/
theorem test_witness_refused :
    State.reset.block.psqDeg = none ∧ ((degState .nan).block.psqDeg = some .nan ∧ degValue .nan = none)
      ∧ (degValue (.finite 354) = some 354 ∧ inDegDomain 354 = false) ∧ State.reset.block.cmdOpcode = none
      ∧ (∀ n : Fin 4, ∃ b : Block, b.cmdOpcode.isSome ∧ (1 ≤ n.val → b.cmdPs1.isSome) ∧ (2 ≤ n.val → b.cmdPs2.isSome)
        ∧ (3 ≤ n.val → b.cmdPs3.isSome)
        ∧ [b.cmdPs1.isSome, b.cmdPs2.isSome, b.cmdPs3.isSome, b.cmdPs4.isSome][n.val]? = some false)
      ∧ State.reset.block.rxLen = none
      ∧ ((∀ a', a' < 15 → (memRead (memWriteBytes [] 0 (frameT1.take 15)) a').isSome)
        ∧ memRead (memWriteBytes [] 0 (frameT1.take 15)) 15 = none) ∧ (17 : Byte) ≠ 16 := by
  refine ⟨rfl, by decide, by decide, rfl, ?_, rfl, by decide, by decide⟩
  intro n
  match n with
  | 0 => exact ⟨{ Block.reset with cmdOpcode := some 2 }, by decide⟩
  | 1 => exact ⟨{ Block.reset with cmdOpcode := some 2, cmdPs1 := some 0x20 }, by decide⟩
  | 2 => exact ⟨{ Block.reset with cmdOpcode := some 2, cmdPs1 := some 0x20, cmdPs2 := some 0x20 }, by decide⟩
  | 3 =>
    exact ⟨{ Block.reset with
      cmdOpcode := some 2, cmdPs1 := some 0x20, cmdPs2 := some 0x20, cmdPs3 := some 0x20 }, by decide⟩

/-- HostWritesOutsideStop: the first offset that does not exist, and a half word for a byte register. -/
theorem test_witness_outside :
    Config.rxMax ≤ 255 ∧ (∀ d, RegValue.byte 0 ≠ .degree d) ∧ (2 ≤ regNumber .rxLen ∧ regNumber .rxLen ≤ 7)
      ∧ ∀ b, RegValue.half 0 ≠ .byte b :=
  ⟨rxMax_bounds.2, by simp, by decide, by simp⟩

end Sys2Proof.Tests
end

/-! ## Mode `BEAM` of the Command Assembler (43_host_command_assembler.md R95, R97; settles O53) -/

namespace Sys2Proof.Machine

/-! ### The packet of mode `BEAM` -/

/-- Step 1 accepts an opcode of 0 to 2 (R93). -/
theorem opcodeOf_of_mem {n : Int} (h0 : 0 ≤ n) (h2 : n ≤ 2) : opcodeOf (some n) = some (BitVec.ofInt 8 n) :=
  if_pos ⟨h0, h2⟩

/-- In mode `BEAM` an accepted opcode and an angle that parses lead to step 2 on the calculated values (R95). -/
theorem assemble_beam {c : Console} {op : Byte} {a : Int} (hm : c.mode = .beam)
    (hop : opcodeOf (parseInt c.opcodeStr) = some op) (ha : parseInt c.angleStr = some a) :
    assemble c = assembleDegrees op (degValues (beamDegrees a)) := by
  simp only [assemble, hop, hm, ha]

/-- The word of zero degrees: only the reference bit is set (R65). -/
theorem quantizeAndMap_zero : quantizeAndMap 0 = 0x20 := by decide

/-- Zero degrees lie in the domain, so step 2 on a value in turn with zeros tests that value alone (R97). -/
theorem allInRange_zeros (p : Rat) :
    allInRange ⟨some p, some 0, some p, some 0⟩ = if inDegDomain p then some ⟨p, 0, p, 0⟩ else none := by
  have h0 : inDegDomain 0 = true := by decide
  cases hp : inDegDomain p <;> simp [allInRange, h0, hp]

/-- The rationals of the four calculated values (R95). -/
theorem degValues_beamDegrees (a : Int) :
    degValues (beamDegrees a) = ⟨degValue (beamPhase a), some 0, degValue (beamPhase a), some 0⟩ := rfl

/-- A phase that denotes no number fails the range test (R97). -/
theorem assembleDegrees_beam_of_none {op : Byte} {a : Int} (h : degValue (beamPhase a) = none) :
    assembleDegrees op (degValues (beamDegrees a)) = .error .invalidPhaseShifterRange := by
  simp [degValues_beamDegrees, h, assembleDegrees, allInRange]

/-- A phase that denotes `p`: its word on channels 1 and 3 and that of zero on 2 and 4, or a range error (R95, R97). -/
theorem assembleDegrees_beam_of_some {op : Byte} {a : Int} {p : Rat} (h : degValue (beamPhase a) = some p) :
    assembleDegrees op (degValues (beamDegrees a)) =
      if inDegDomain p then .packet op ⟨quantizeAndMap p, 0x20, quantizeAndMap p, 0x20⟩
      else .error .invalidPhaseShifterRange := by
  rw [degValues_beamDegrees, h, assembleDegrees, allInRange_zeros]
  cases inDegDomain p
  · rfl
  · simp [quantizeAndMap_zero]

/-! ### The moves of mode `BEAM` -/

/-- A run goes on after the move that publishes one calculated value (R95). -/
theorem run_publishingDegree {k : Nat} {s : State} {op : Byte} {ch : Channel} {degs : Quad DegWord}
    {rest : List Input} (hw : s.console.worker = .publishingDegree op ch degs)
    (hi : s.inputs = workerMoves (k + 1) ++ rest) :
    Host.Core.run core (k + 1) s = Host.Core.run core k
      (setConsole { showWrite (.calculated ch (degs.get ch)) s.console with worker := afterDegree op ch degs }
        (setInputs (workerMoves k ++ rest) s)) :=
  run_workerMoves hi (by simp only [workerMove, setInputs_console, hw, publishDegreeMove])

/-- Four moves publish the four calculated values and lead to the range test, with nothing else changed (R95, R97). -/
theorem run_publishingDegrees {s : State} {op : Byte} {degs : Quad DegWord} {rest : List Input}
    (hw : s.console.worker = .publishingDegree op .c1 degs) (hi : s.inputs = workerMoves 4 ++ rest) :
    Host.Core.run core 4 s = .next { s with
      inputs := rest
      console := { s.console with
        worker := .checkingRange op (degValues degs)
        display := { s.console.display with
          calculated := ⟨some degs.c1, some degs.c2, some degs.c3, some degs.c4⟩ }
        unseen := s.console.unseen ++ [.calculated .c1 degs.c1, .calculated .c2 degs.c2, .calculated .c3 degs.c3,
          .calculated .c4 degs.c4] } } := by
  rw [run_publishingDegree hw hi, run_publishingDegree rfl rfl, run_publishingDegree rfl rfl,
    run_publishingDegree rfl rfl]
  simp [Host.Core.run, setConsole, setInputs, showWrite, putShown, Quad.set, Quad.get, afterDegree, Channel.next,
    workerMoves]

/-- The move that reads an angle that parses computes the four values (R95). -/
theorem run_readingAngle {k : Nat} {s : State} {op : Byte} {a : Int} {rest : List Input}
    (hw : s.console.worker = .readingAngle op) (ha : parseInt s.console.angleStr = some a)
    (hi : s.inputs = workerMoves (k + 1) ++ rest) :
    Host.Core.run core (k + 1) s = Host.Core.run core k
      (goto (.publishingDegree op .c1 (beamDegrees a)) (setInputs (workerMoves k ++ rest) s)) :=
  run_workerMoves hi (by simp only [workerMove, setInputs_console, hw, readAngleMove, ha])

/-! ### The wrapped phase -/

/-- A word in a range denotes a number of that range. -/
theorem inRange_eq_true {r : DegRange} {w : DegWord} (h : inRange r w = true) :
    ∃ p, degValue w = some p ∧ r.low ≤ p ∧ p < r.high := by
  unfold inRange at h
  split at h
  · rename_i p hp
    rw [Bool.and_eq_true, decide_eq_true_iff, decide_eq_true_iff] at h
    exact ⟨p, hp, h⟩
  · cases h

/-- The wrapped phase of a number is a number, in `WRAP_RANGE` or at its lower end (R10, R114). -/
theorem wrapPhase_of_number {w : DegWord} {q : Rat} (h : degValue w = some q) :
    ∃ p, degValue (wrapPhase w) = some p
      ∧ (Config.wrapRange.low ≤ p ∧ p < Config.wrapRange.high ∨ p = Config.wrapRange.low) := by
  simp only [wrapPhase, h]
  split
  · obtain ⟨p, hp, hr⟩ := inRange_eq_true ‹_›
    exact ⟨p, hp, .inl hr⟩
  · exact ⟨_, rfl, .inr rfl⟩

/-- Settles O53: the packet by the two cases of what the phase denotes, the five moves one by one, and the range of the
wrapped phase. -/
theorem beamModeChannels : Obligations.BeamModeChannels := by
  refine ⟨?packet, ?moves, fun w q h => wrapPhase_of_number h⟩
  case packet =>
    intro c n a hm hn h0 h2 ha
    have hop : opcodeOf (parseInt c.opcodeStr) = some (BitVec.ofInt 8 n) := by rw [hn, opcodeOf_of_mem h0 h2]
    rw [assemble_beam hm hop ha]
    split
    · exact assembleDegrees_beam_of_some ‹_›
    · exact assembleDegrees_beam_of_none ‹_›
  case moves =>
    intro s op a rest hw ha hi
    refine ⟨beamPhase a, rfl, ?_⟩
    rw [run_readingAngle hw ha hi, run_publishingDegrees rfl rfl]
    rfl

end Sys2Proof.Machine

/-! ## The block's invariant (10_state.md R22, R29; 20_memory.md R32; settles O40 and O41) -/

namespace Sys2Proof.Machine

/-- After reset nothing is held and every flag is 0 (R30). -/
theorem blockInv_reset : BlockInv Block.reset where
  rxWf := .nil
  txWf := .nil
  rxInside := nofun
  txInside := nofun
  reservedZero := rfl
  lastErrKnown := .inl rfl
  psqLegal := nofun
  psqHeld := rfl
  txHeld := nofun
  txEmpty := fun _ => rfl
  tlmHeld := nofun
  tlmEmpty := fun _ => ⟨rfl, rfl, rfl, rfl, rfl⟩

/-- Bytes written below a bound leave no byte at or above it that holds a value, if there was none (R32). -/
theorem inside_memWriteBytes {m : List Host.Cell} {a n : Nat} {f : List Byte}
    (h : ∀ k, (memRead m k).isSome → k < n) (hf : a + f.length ≤ n) (k : Nat)
    (hk : (memRead (memWriteBytes m a f) k).isSome) : k < n := by
  rw [memRead_memWriteBytes] at hk
  split at hk
  · omega
  · exact h k hk

/-- Every byte of a range that was written holds a value. -/
theorem isSome_memRead_memWriteBytes (m : List Host.Cell) {f : List Byte} {a : Nat} (ha : a < f.length) :
    (memRead (memWriteBytes m 0 f) a).isSome := by
  rw [memRead_memWriteBytes, if_pos ⟨Nat.zero_le a, by omega⟩, Nat.sub_zero, List.getElem?_eq_getElem ha]
  rfl

/-- `MemRead(a, 2)` of bytes that hold values gives a value (R33). -/
theorem isSome_memReadHalf {m : List Host.Cell} {a : Nat} (h : ∀ k, a ≤ k → k < a + 2 → (memRead m k).isSome) :
    (memReadHalf m a).isSome := by
  obtain ⟨b0, h0⟩ := Option.isSome_iff_exists.1 (h a (by omega) (by omega))
  obtain ⟨b1, h1⟩ := Option.isSome_iff_exists.1 (h (a + 1) (by omega) (by omega))
  rw [memReadHalf_eq h0 h1]
  rfl

/-- `MemRead(a, 4)` of bytes that hold values gives a value (R33). -/
theorem isSome_memReadWord {m : List Host.Cell} {a : Nat} (h : ∀ k, a ≤ k → k < a + 4 → (memRead m k).isSome) :
    (memReadWord m a).isSome := by
  obtain ⟨b0, h0⟩ := Option.isSome_iff_exists.1 (h a (by omega) (by omega))
  obtain ⟨b1, h1⟩ := Option.isSome_iff_exists.1 (h (a + 1) (by omega) (by omega))
  obtain ⟨b2, h2⟩ := Option.isSome_iff_exists.1 (h (a + 2) (by omega) (by omega))
  obtain ⟨b3, h3⟩ := Option.isSome_iff_exists.1 (h (a + 3) (by omega) (by omega))
  rw [memReadWord_eq h0 h1 h2 h3]
  rfl

/-- A frame whose bytes all hold values has its five fields (R82, R86). -/
theorem isSome_tlmFields {m : List Host.Cell} (h : ∀ a, a < Config.tlmFrameLen → (memRead m a).isSome) :
    (memReadWord m 0).isSome ∧ (memReadWord m 4).isSome ∧ (memReadHalf m 8).isSome ∧ (memReadHalf m 10).isSome
      ∧ (memReadHalf m 12).isSome := by
  have h : ∀ a, a < 16 → (memRead m a).isSome := h
  exact ⟨isSome_memReadWord fun k _ _ => h k (by omega), isSome_memReadWord fun k _ _ => h k (by omega),
    isSome_memReadHalf fun k _ _ => h k (by omega), isSome_memReadHalf fun k _ _ => h k (by omega),
    isSome_memReadHalf fun k _ _ => h k (by omega)⟩

/-- A write of `STATUS` that keeps the VALID bits and the reserved bit and leaves a code the block raises keeps the
invariant: raising an error does (R119, R120). -/
theorem BlockInv.with_status {b : Block} {st : Byte} (hi : BlockInv b) (hp : psqValid st = psqValid b.status)
    (ht : txValid st = txValid b.status) (hm : tlmValid st = tlmValid b.status)
    (h7 : st.getLsbD 7 = b.status.getLsbD 7)
    (he : lastErr st = noError ∨ lastErr st = causeCode .malformedFrame ∨ lastErr st = causeCode .illegalRequest) :
    BlockInv { b with status := st } :=
  { hi with
    reservedZero := h7.trans hi.reservedZero
    lastErrKnown := he
    psqHeld := hp.trans hi.psqHeld
    txHeld := fun h => hi.txHeld (ht.symm.trans h)
    txEmpty := fun h => hi.txEmpty (ht.symm.trans h)
    tlmHeld := fun h => hi.tlmHeld (hm.symm.trans h)
    tlmEmpty := fun h => hi.tlmEmpty (hm.symm.trans h) }

/-- A host write keeps the invariant: it says nothing of the operand registers. -/
theorem BlockInv.writeReg {b : Block} (hi : BlockInv b) (r : Reg) (v : RegValue) :
    BlockInv (Machine.writeReg b r v) := by
  cases r <;> cases v <;> exact { hi with }

/-- A `QMAP` that ends `done` keeps the invariant: every control word is legal (R66, R67). -/
theorem BlockInv.qmapDone {b : Block} (hi : BlockInv b) (d : Rat) :
    BlockInv { b with psqOut := some (quantizeAndMap d), status := statusDone psqValidBit b.status } := by
  obtain ⟨hp, ht, hm, -, he, h7⟩ := flags_statusDone_psq b.status
  exact { hi with
    reservedZero := h7.trans hi.reservedZero
    lastErrKnown := .inl he
    psqLegal := fun w hw => Option.some.inj hw ▸ legal_quantizeAndMap d
    psqHeld := hp
    txHeld := fun h => hi.txHeld (ht.symm.trans h)
    txEmpty := fun h => hi.txEmpty (ht.symm.trans h)
    tlmHeld := fun h => hi.tlmHeld (hm.symm.trans h)
    tlmEmpty := fun h => hi.tlmEmpty (hm.symm.trans h) }

/-- An `ENCODE` keeps the invariant: it writes all five bytes of TXBUF and no other (R77). -/
theorem BlockInv.encodeDone {b : Block} (hi : BlockInv b) (op ps1 ps2 ps3 ps4 : Byte) :
    BlockInv { b with
      txbuf := memWriteBytes b.txbuf 0 (encodeCommand op ps1 ps2 ps3 ps4)
      status := statusDone txValidBit b.status } := by
  obtain ⟨hp, ht, hm, -, he, h7⟩ := flags_statusDone_tx b.status
  exact { hi with
    txWf := memWriteBytes_wf hi.txWf _ _
    txInside := inside_memWriteBytes hi.txInside (Nat.le_refl Config.cmdFrameLen)
    reservedZero := h7.trans hi.reservedZero
    lastErrKnown := .inl he
    psqHeld := hp.trans hi.psqHeld
    txHeld := fun _ a ha => isSome_memRead_memWriteBytes b.txbuf (f := encodeCommand op ps1 ps2 ps3 ps4) ha
    txEmpty := fun h => Bool.noConfusion (ht.symm.trans h)
    tlmHeld := fun h => hi.tlmHeld (hm.symm.trans h)
    tlmEmpty := fun h => hi.tlmEmpty (hm.symm.trans h) }

/-- A `DECODE` of a good frame keeps the invariant: it fills all five telemetry registers (R82, R86). -/
theorem BlockInv.decodeDone {b : Block} (hi : BlockInv b)
    (h : ∀ a, a < Config.tlmFrameLen → (memRead b.rxbuf a).isSome) :
    BlockInv { b with
      tlmLat := memReadWord b.rxbuf 0, tlmLon := memReadWord b.rxbuf 4, tlmMx := memReadHalf b.rxbuf 8
      tlmMy := memReadHalf b.rxbuf 10, tlmMz := memReadHalf b.rxbuf 12
      status := statusDone tlmValidBit b.status } := by
  obtain ⟨hp, ht, hm, -, he, h7⟩ := flags_statusDone_tlm b.status
  exact { hi with
    reservedZero := h7.trans hi.reservedZero
    lastErrKnown := .inl he
    psqHeld := hp.trans hi.psqHeld
    txHeld := fun h => hi.txHeld (ht.symm.trans h)
    txEmpty := fun h => hi.txEmpty (ht.symm.trans h)
    tlmHeld := fun _ => isSome_tlmFields h
    tlmEmpty := fun h => Bool.noConfusion (hm.symm.trans h) }

/-- Every line at the block keeps the invariant. -/
theorem BlockLine.keeps_blockInv {b c : Block} (h : BlockLine b c) (hi : BlockInv b) : BlockInv c := by
  cases h with
  | write r v => exact hi.writeReg r v
  | writeRx v ha =>
    exact { hi with
      rxWf := memWrite_wf hi.rxWf _ v
      rxInside := inside_memWriteBytes (f := [v]) hi.rxInside ha }
  | rxFrame hf =>
    exact { hi with
      rxWf := memWriteBytes_wf hi.rxWf _ _
      rxInside := inside_memWriteBytes hi.rxInside ((Nat.zero_add _).trans_le hf) }
  | qmap hd => exact hi.qmapDone _
  | encode op ps1 ps2 ps3 ps4 => exact hi.encodeDone op ps1 ps2 ps3 ps4
  | decode hf => exact hi.decodeDone hf
  | malformed =>
    obtain ⟨hp, ht, hm, -, he, h7⟩ := flags_statusError_malformed b.status
    exact hi.with_status hp ht hm h7 (.inr (.inl he))
  | illegal =>
    obtain ⟨hp, ht, hm, -, he, h7⟩ := flags_statusError_illegal b.status
    exact hi.with_status hp ht hm h7 (.inr (.inr he))

/-- Settles O40: a step is the reset or a run of block lines, and each line keeps the invariant. -/
theorem everyStepKeepsTheBlockInvariant : Obligations.EveryStepKeepsTheBlockInvariant := by
  intro s t hi h
  rcases step_run h with ⟨rest, -, ht⟩ | hr
  · rw [ht]
    exact blockInv_reset
  · exact hr.keeps (fun _ _ hl => hl.keeps_blockInv) hi

/-- Settles O41. -/
theorem resetMeetsTheBlockInvariant : Obligations.ResetMeetsTheBlockInvariant := blockInv_reset

end Sys2Proof.Machine

/-! ## What each move of the worker can do (43_host_command_assembler.md, 44_host_link_worker.md) -/

namespace Sys2Proof.Machine

/-- All that a line followed by a move to another place can do. -/
theorem andThen_goto_next {r : Result} {w : Worker} {t : State}
    (h : andThen r (fun u => .next (goto w u)) = .next t) : ∃ u, r = .next u ∧ t = goto w u := by
  obtain ⟨u, hu, h⟩ := andThen_eq_next h
  cases h
  exact ⟨u, hu, rfl⟩

/-- All that a poll can do (R105). -/
theorem pollMove_next {p : Option (List Byte)} {s t : State} (h : pollMove p s = .next t) :
    t = goto .noData s ∨ ∃ f, t = goto (.telemetryReceived f) s := by
  cases p with
  | none =>
    cases h
    exact .inl rfl
  | some f =>
    cases h
    exact .inr ⟨f, rfl⟩

/-- All that copying a polled frame can do (R106): it is logged as too long, or presented. -/
theorem copyFrameMove_next {f : List Byte} {s t : State} (h : copyFrameMove f s = .next t) :
    t = logMalformed s ∨ ∃ u, hostRxFrame f s = .next u ∧ t = goto .decoding u := by
  unfold copyFrameMove at h
  split at h
  · cases h
    exact .inl rfl
  · exact .inr (andThen_goto_next h)

/-- All that the move after `DECODE` can do (R106). -/
theorem checkDecodeMove_next {s t : State} (h : checkDecodeMove s = .next t) :
    (lastErr s.block.status = noError ∧ t = goto .countingFrame s) ∨ t = logMalformed s := by
  unfold checkDecodeMove at h
  split at h
  · cases h
    exact .inl ⟨‹_›, rfl⟩
  · cases h
    exact .inr rfl

/-- All that the send check can do (R107). -/
theorem checkSendMove_next {s t : State} (h : checkSendMove s = .next t) :
    t = goto .clearingFlag s ∨ t = goto .idle s := by
  unfold checkSendMove at h
  split at h
  · cases h
    exact .inl rfl
  · cases h
    exact .inr rfl

/-- All that step 1 of the assembler can do (R93). -/
theorem readOpcodeMove_next {s t : State} (h : readOpcodeMove s = .next t) :
    (∃ op, opcodeOf (parseInt s.console.opcodeStr) = some op ∧ t = goto (.readingMode op) s)
      ∨ t = raiseValidation .invalidOpcode s := by
  unfold readOpcodeMove at h
  split at h
  · cases h
    exact .inl ⟨_, ‹_›, rfl⟩
  · cases h
    exact .inr rfl

/-- All that reading the mode can do (R94 to R96). -/
theorem readModeMove_next {op : Byte} {s t : State} (h : readModeMove op s = .next t) :
    t = goto (.readingPs op .c1 ⟨none, none, none, none⟩) s ∨ t = goto (.readingAngle op) s ∨ t = goto .idle s := by
  unfold readModeMove at h
  split at h
  · cases h
    exact .inl rfl
  · cases h
    exact .inr (.inl rfl)
  · cases h
    exact .inr (.inr rfl)

/-- All that reading a degree string can do (R94). -/
theorem readPsMove_next {op : Byte} {ch : Channel} {got : Quad (Option Rat)} {s t : State}
    (h : readPsMove op ch got s = .next t) :
    ∃ got', (∃ ch', t = goto (.readingPs op ch' got') s) ∨ t = goto (.checkingRange op got') s := by
  unfold readPsMove at h
  simp only at h
  split at h
  · cases h
    exact ⟨_, .inl ⟨_, rfl⟩⟩
  · cases h
    exact ⟨_, .inr rfl⟩

/-- All that reading the beam angle can do (R95). -/
theorem readAngleMove_next {op : Byte} {s t : State} (h : readAngleMove op s = .next t) :
    ∃ degs, t = goto (.publishingDegree op .c1 degs) s := by
  unfold readAngleMove at h
  split at h
  · cases h
    exact ⟨_, rfl⟩
  · cases h

/-- All that step 2 of the assembler can do (R97). -/
theorem checkRangeMove_next {op : Byte} {degs : Quad (Option Rat)} {s t : State}
    (h : checkRangeMove op degs s = .next t) :
    (∃ q, allInRange degs = some q ∧ t = goto (.writingDegree op .c1 q) s)
      ∨ t = raiseValidation .invalidPhaseShifterRange s := by
  unfold checkRangeMove at h
  split at h
  · cases h
    exact .inl ⟨_, ‹_›, rfl⟩
  · cases h
    exact .inr rfl

/-- All that moving `PSQ_OUT` to a channel's register can do (R98). -/
theorem moveWordMove_next {op : Byte} {ch : Channel} {degs : Quad Rat} {s t : State}
    (h : moveWordMove op ch degs s = .next t) :
    ∃ w u, s.block.psqOut = some w ∧ hostWrite (psReg ch) (.byte w) s = .next u
      ∧ t = goto (afterChannel op ch degs) u := by
  unfold moveWordMove at h
  split at h
  · obtain ⟨w, hw, h⟩ := needs_eq_next h
    obtain ⟨u, hu, ht⟩ := andThen_goto_next h
    exact ⟨w, u, hw, hu, ht⟩
  · cases h

end Sys2Proof.Machine

/-! ## The invariant of the whole system (10_state.md R17; R75, R99, R103; settles O56) -/

namespace Sys2Proof.Machine

/-- An opcode step 1 accepts is 0, 1 or 2 (R93). -/
theorem opcodeOk_of_opcodeOf {x : Option Int} {op : Byte} (h : opcodeOf x = some op) : OpcodeOk op := by
  cases x with
  | none => cases h
  | some n =>
    unfold opcodeOf at h
    simp only [Option.ite_none_right_eq_some, Option.some.injEq] at h
    obtain ⟨⟨h0, h2⟩, rfl⟩ := h
    have hn : n = 0 ∨ n = 1 ∨ n = 2 := by omega
    rcases hn with rfl | rfl | rfl <;> unfold OpcodeOk <;> decide

/-- Four degrees that pass step 2 lie in the domain (R97). -/
theorem degreesOk_of_allInRange {d : Quad (Option Rat)} {q : Quad Rat} (h : allInRange d = some q) : DegreesOk q := by
  unfold allInRange at h
  split at h
  · simp only [Option.ite_none_right_eq_some, Option.some.injEq, Bool.and_eq_true] at h
    obtain ⟨⟨⟨⟨h1, h2⟩, h3⟩, h4⟩, rfl⟩ := h
    exact ⟨h1, h2, h3, h4⟩
  · cases h

/-- The word of a register that holds a legal control word is legal. -/
theorem HoldsLegal.legal {r : Option Byte} {w : Byte} (h : HoldsLegal r) (hr : r = some w) :
    legalControlWord w = true := by
  obtain ⟨v, hv, hl⟩ := h
  rw [hr] at hv
  cases hv
  exact hl

/-- The channels before `ch` stay filled while registers 3 to 5 do. -/
theorem FilledBefore.of_eq {b c : Block} {ch : Channel} (h : FilledBefore b ch) (h1 : c.cmdPs1 = b.cmdPs1)
    (h2 : c.cmdPs2 = b.cmdPs2) (h3 : c.cmdPs3 = b.cmdPs3) : FilledBefore c ch := by
  have he : FilledBefore c ch = FilledBefore b ch := by cases ch <;> simp only [FilledBefore, h1, h2, h3]
  exact he ▸ h

/-- Filling a channel's register readies the worker's next place: the next channel or the opcode (R98). -/
theorem workerReady_afterChannel {b : Block} {op w : Byte} {ch : Channel} {q : Quad Rat} (hop : OpcodeOk op)
    (hq : DegreesOk q) (hf : FilledBefore b ch) (hw : legalControlWord w = true) :
    WorkerReady (writeReg b (psReg ch) (.byte w)) (afterChannel op ch q) := by
  have hl : HoldsLegal (some w) := ⟨w, rfl, hw⟩
  cases ch with
  | c1 => exact ⟨hop, hq, hl⟩
  | c2 => exact ⟨hop, hq, hf, hl⟩
  | c3 =>
    obtain ⟨h1, h2⟩ := hf
    exact ⟨hop, hq, h1, h2, hl⟩
  | c4 =>
    obtain ⟨h1, h2, h3⟩ := hf
    exact ⟨hop, h1, h2, h3, hl⟩

/-- Publishing a scalar readies the next place: the telemetry registers are as before (R106). -/
theorem workerReady_afterShown {b : Block} (h : tlmValid b.status = true ∧ TlmHeld b) (f : TlmShown) :
    WorkerReady b (afterShown f) := by
  cases f
  case count => exact trivial
  all_goals exact h

/-- Publishing a calculated value readies the next place (R95). -/
theorem workerReady_afterDegree {op : Byte} (b : Block) (h : OpcodeOk op) (ch : Channel) (degs : Quad DegWord) :
    WorkerReady b (afterDegree op ch degs) := by
  cases ch <;> exact h

/-- A validation error readies the next place, which needs nothing (R100, R121). -/
theorem workerReady_raiseValidation (e : ErrorKind) (s : State) :
    WorkerReady s.block (raiseValidation e s).console.worker := by
  cases e <;> exact trivial

/-- Registers 2 to 6 with a valid packet carry one (R75). -/
theorem PacketReady.valid {b : Block} {op ps1 ps2 ps3 ps4 : Byte} (h : PacketReady b) (h0 : b.cmdOpcode = some op)
    (h1 : b.cmdPs1 = some ps1) (h2 : b.cmdPs2 = some ps2) (h3 : b.cmdPs3 = some ps3) (h4 : b.cmdPs4 = some ps4) :
    validCommandPacket op ps1 ps2 ps3 ps4 = true := by
  obtain ⟨⟨op', hop', hok⟩, l1, l2, l3, l4⟩ := h
  rw [h0] at hop'
  cases hop'
  have hok : op.toNat ≤ 2 := hok
  simp only [validCommandPacket, legalControlWords, l1.legal h1, l2.legal h2, l3.legal h3, l4.legal h4, hok,
    decide_true, Bool.and_true]

/-- `RXFRAME` readies the worker for `DECODE`: the length fits, and a frame of 16 bytes is all there (R57, R86). -/
theorem hostRxFrame_ready {f : List Byte} {s u : State} (h : hostRxFrame f s = .next u) :
    WorkerReady u.block .decoding := by
  obtain ⟨hf, rfl⟩ := hostRxFrame_next h
  have hmax := rxMax_bounds.2
  have hn : (BitVec.ofNat 8 f.length).toNat = f.length := by
    rw [BitVec.toNat_ofNat]
    omega
  refine ⟨_, rfl, by omega, fun h16 a ha => ?_⟩
  exact isSome_memRead_memWriteBytes s.block.rxbuf (by omega)

/-- `DECODE` readies the worker for its check: without an error the telemetry registers are valid (R86, R87). -/
theorem execDecode_ready {s u : State} (h : execDecode s = .next u) : WorkerReady u.block .checkingDecode := by
  obtain ⟨n, -, -, ⟨-, rfl⟩ | ⟨-, hm, rfl⟩⟩ := execDecode_next h
  · obtain ⟨-, -, -, -, he, -⟩ := flags_statusError_malformed s.block.status
    intro h0
    exact absurd (he.symm.trans h0) (by decide)
  · obtain ⟨-, -, hv, -, -, -⟩ := flags_statusDone_tlm s.block.status
    exact fun _ => ⟨hv, isSome_tlmFields fun a ha => firstMissing_eq_none.1 hm a (Nat.zero_le a) (by omega)⟩

/-- `QMAP` readies the worker to move the word: `PSQ_OUT` is valid and legal (R66, R67). -/
theorem execQmap_ready {s u : State} {op : Byte} {ch : Channel} {q : Quad Rat} (h : execQmap s = .next u)
    (hop : OpcodeOk op) (hq : DegreesOk q) (hf : FilledBefore s.block ch) :
    WorkerReady u.block (.movingWord op ch q) := by
  obtain ⟨w, d, -, -, -, rfl⟩ := execQmap_next h
  obtain ⟨hv, -, -, -, -, -⟩ := flags_statusDone_psq s.block.status
  exact ⟨hop, hq, hf.of_eq rfl rfl rfl, hv, _, rfl, legal_quantizeAndMap d⟩

/-- `ENCODE` of a valid packet readies the worker to transmit its frame (R76, R77). -/
theorem execEncode_ready {s u : State} (h : execEncode s = .next u) (hp : PacketReady s.block) :
    WorkerReady u.block .transmitting := by
  obtain ⟨op, ps1, ps2, ps3, ps4, h0, h1, h2, h3, h4, rfl⟩ := execEncode_next h
  obtain ⟨-, hv, -, -, -, -⟩ := flags_statusDone_tx s.block.status
  exact ⟨hv, _, memReadBytes_memWriteBytes s.block.txbuf 0 (encodeCommand op ps1 ps2 ps3 ps4),
    op, ps1, ps2, ps3, ps4, rfl, hp.valid h0 h1 h2 h3 h4⟩

/-- Handing over a frame that carries a valid packet keeps every frame sent valid (R99, R113). -/
theorem transmitFrame_sentValid {s u : State} (h : transmitFrame s = .next u) (hs : SentValid s.radio.sent)
    (hr : WorkerReady s.block .transmitting) : SentValid u.radio.sent := by
  obtain ⟨-, f, hf, rfl⟩ := transmitFrame_next h
  obtain ⟨-, f', hf', hv⟩ := hr
  rw [hf] at hf'
  cases hf'
  intro x hx
  rcases List.mem_append.1 hx with hx | hx
  · exact hs x hx
  · cases List.mem_singleton.1 hx
    exact ⟨rfl, hv⟩

/-- `RXFRAME` leaves the radio alone (R57). -/
theorem hostRxFrame_radio {f : List Byte} {s u : State} (h : hostRxFrame f s = .next u) : u.radio = s.radio := by
  obtain ⟨-, rfl⟩ := hostRxFrame_next h
  rfl

/-- `DECODE` leaves the radio alone (R86). -/
theorem execDecode_radio {s u : State} (h : execDecode s = .next u) : u.radio = s.radio := by
  obtain ⟨n, -, -, ⟨-, rfl⟩ | ⟨-, -, rfl⟩⟩ := execDecode_next h <;> rfl

/-- `QMAP` leaves the radio alone (R67). -/
theorem execQmap_radio {s u : State} (h : execQmap s = .next u) : u.radio = s.radio := by
  obtain ⟨w, d, -, -, -, rfl⟩ := execQmap_next h
  rfl

/-- `ENCODE` leaves the radio alone (R77). -/
theorem execEncode_radio {s u : State} (h : execEncode s = .next u) : u.radio = s.radio := by
  obtain ⟨op, ps1, ps2, ps3, ps4, -, -, -, -, -, rfl⟩ := execEncode_next h
  rfl

/-- The system invariant at another place of the worker: that place's needs, and the frames sent. -/
theorem systemInv_goto {w : Worker} {s : State} (hr : WorkerReady s.block w) (hs : SentValid s.radio.sent) :
    SystemInv (goto w s) := ⟨hr, hs⟩

/-- Every move of the worker keeps the system invariant: what its new place needs is there. -/
theorem workerMove_keeps_systemInv {p : Option (List Byte)} {s t : State} (hi : SystemInv s)
    (h : workerMove p s = .next t) : SystemInv t := by
  obtain ⟨hr, hs⟩ := hi
  cases hw : s.console.worker <;> rw [hw] at hr <;> simp only [workerMove, hw] at h
  case idle =>
    cases h
    exact ⟨trivial, hs⟩
  case polling =>
    rcases pollMove_next h with rfl | ⟨f, rfl⟩ <;> exact ⟨trivial, hs⟩
  case telemetryReceived f =>
    rcases copyFrameMove_next h with rfl | ⟨u, hu, rfl⟩
    · exact ⟨trivial, hs⟩
    · exact systemInv_goto (hostRxFrame_ready hu) (hostRxFrame_radio hu ▸ hs)
  case decoding =>
    obtain ⟨u, hu, rfl⟩ := andThen_goto_next h
    exact systemInv_goto (execDecode_ready hu) (execDecode_radio hu ▸ hs)
  case checkingDecode =>
    rcases checkDecodeMove_next h with ⟨h0, rfl⟩ | rfl
    · exact ⟨hr h0, hs⟩
    · exact ⟨trivial, hs⟩
  case countingFrame =>
    cases h
    exact ⟨hr, hs⟩
  case publishing f =>
    obtain ⟨w, -, rfl⟩ := publishMove_next h
    exact ⟨workerReady_afterShown hr f, hs⟩
  case noData =>
    cases h
    exact ⟨trivial, hs⟩
  case checkSendRequest =>
    rcases checkSendMove_next h with rfl | rfl <;> exact ⟨trivial, hs⟩
  case clearingFlag =>
    cases h
    exact ⟨trivial, hs⟩
  case readingOpcode =>
    rcases readOpcodeMove_next h with ⟨op, hop, rfl⟩ | rfl
    · exact ⟨opcodeOk_of_opcodeOf hop, hs⟩
    · exact ⟨trivial, hs⟩
  case readingMode op =>
    rcases readModeMove_next h with rfl | rfl | rfl
    · exact ⟨hr, hs⟩
    · exact ⟨hr, hs⟩
    · exact ⟨trivial, hs⟩
  case readingPs op ch got =>
    rcases readPsMove_next h with ⟨got', ⟨ch', rfl⟩ | rfl⟩ <;> exact ⟨hr, hs⟩
  case readingAngle op =>
    obtain ⟨degs, rfl⟩ := readAngleMove_next h
    exact ⟨hr, hs⟩
  case publishingDegree op ch degs =>
    cases h
    exact ⟨workerReady_afterDegree _ hr ch degs, hs⟩
  case checkingRange op degs =>
    rcases checkRangeMove_next h with ⟨q, hq, rfl⟩ | rfl
    · exact ⟨⟨hr, degreesOk_of_allInRange hq, trivial⟩, hs⟩
    · exact ⟨trivial, hs⟩
  case reporting e =>
    cases h
    exact ⟨trivial, hs⟩
  case writingDegree op ch q =>
    obtain ⟨u, hu, rfl⟩ := andThen_goto_next h
    obtain ⟨hop, hq, hf⟩ := hr
    cases hu
    exact ⟨⟨hop, hq, hf.of_eq rfl rfl rfl, rfl⟩, hs⟩
  case quantizing op ch q =>
    obtain ⟨u, hu, rfl⟩ := andThen_goto_next h
    obtain ⟨hop, hq, hf, -⟩ := hr
    exact systemInv_goto (execQmap_ready hu hop hq hf) (execQmap_radio hu ▸ hs)
  case movingWord op ch q =>
    obtain ⟨w, u, hout, hu, rfl⟩ := moveWordMove_next h
    obtain ⟨hop, hq, hf, -, hl⟩ := hr
    rw [hostWrite_next hu]
    exact ⟨workerReady_afterChannel hop hq hf (hl.legal hout), hs⟩
  case writingOpcode op =>
    obtain ⟨u, hu, rfl⟩ := andThen_goto_next h
    obtain ⟨hop, hf⟩ := hr
    cases hu
    exact ⟨⟨⟨op, rfl, hop⟩, hf⟩, hs⟩
  case clearingMessage =>
    cases h
    exact ⟨hr, hs⟩
  case encoding =>
    obtain ⟨u, hu, rfl⟩ := andThen_goto_next h
    exact systemInv_goto (execEncode_ready hu hr) (execEncode_radio hu ▸ hs)
  case transmitting =>
    obtain ⟨u, hu, rfl⟩ := andThen_goto_next h
    exact systemInv_goto trivial (transmitFrame_sentValid hu hs hr)

/-- Every input of the system keeps the system invariant: the UI and the radio leave the block, the worker's place and
the frames sent alone (R42, R103, R115). -/
theorem perform_keeps_systemInv {x : Input} {s t : State} (hx : x.ofSystem = true) (hi : SystemInv s)
    (h : perform x s = .next t) : SystemInv t := by
  cases x with
  | worker p => exact workerMove_keeps_systemInv hi h
  | uiSend =>
    cases h
    exact hi
  | uiEdit e =>
    cases h
    cases e <;> exact hi
  | uiSees k =>
    cases h
    obtain ⟨hr, hs⟩ := hi
    exact ⟨by simpa using hr, hs⟩
  | radioSignal v =>
    cases h
    exact hi
  | item _ | hostWrite _ _ | hostWriteRx _ _ | rxFrame _ | hostRead _ | hostReadTx _ | reset => cases hx

/-- Settles O56: the worker's moves one place at a time; the UI and the radio touch none of what it speaks of. -/
theorem everyStepKeepsTheSystemInvariant : Obligations.EveryStepKeepsTheSystemInvariant := by
  intro s t hi hn h
  cases hx : s.inputs with
  | nil =>
    simp only [step, stepInput, hx, Host.Outcome.next.injEq] at h
    exact h ▸ hi
  | cons x rest =>
    rw [step_cons hx] at h
    exact perform_keeps_systemInv (s := setInputs rest s) (hn x rest hx) hi h

end Sys2Proof.Machine

/-! ## Who writes what (10_state.md R21, R22, R26, R28; settles O42) -/

namespace Sys2Proof.Machine

/-- The operand registers 0 and 2 to 7 of a block (R21). -/
def Block.operands (b : Block) :
    Option DegWord × Option Byte × Option Byte × Option Byte × Option Byte × Option Byte × Option Byte :=
  (b.psqDeg, b.cmdOpcode, b.cmdPs1, b.cmdPs2, b.cmdPs3, b.cmdPs4, b.rxLen)

/-- The ports show the operand registers. -/
theorem regValue_of_operands {b c : Block} {r : Reg} (h : c.operands = b.operands)
    (hr : regNumber r = 0 ∨ 2 ≤ regNumber r ∧ regNumber r ≤ 7) : regValue c r = regValue b r := by
  simp only [Block.operands, Prod.mk.injEq] at h
  cases r <;> simp [regNumber] at hr <;> simp only [regValue, h]

/-- A host write leaves every other register as it was (R28). -/
theorem regValue_writeReg_ne (b : Block) {r r' : Reg} (v : RegValue) (h : r' ≠ r) :
    regValue (writeReg b r v) r' = regValue b r' := by
  unfold writeReg
  split <;> cases r' <;> simp [regValue] at h ⊢

/-- From block `b` to block `c` only these places were written: the results and flags of request `q`, the operand
registers `ws`, and RXBUF if `rx`. -/
structure WritesOnly (q : Option Request) (ws : List Reg) (rx : Bool) (b c : Block) : Prop where
  psqOut : q ≠ some .qmap → c.psqOut = b.psqOut
  txbuf : q ≠ some .encode → c.txbuf = b.txbuf
  telemetry : q ≠ some .decode →
    c.tlmLat = b.tlmLat ∧ c.tlmLon = b.tlmLon ∧ c.tlmMx = b.tlmMx ∧ c.tlmMy = b.tlmMy ∧ c.tlmMz = b.tlmMz
  status : q = none → c.status = b.status
  operands : ∀ r, regNumber r = 0 ∨ 2 ≤ regNumber r ∧ regNumber r ≤ 7 → r ∉ ws → regValue c r = regValue b r
  rxbuf : rx = false → c.rxbuf = b.rxbuf

section
variable {q : Option Request} {ws : List Reg} {rx : Bool}

theorem WritesOnly.refl (b : Block) : WritesOnly q ws rx b b where
  psqOut _ := rfl
  txbuf _ := rfl
  telemetry _ := ⟨rfl, rfl, rfl, rfl, rfl⟩
  status _ := rfl
  operands _ _ _ := rfl
  rxbuf _ := rfl

theorem WritesOnly.trans {b c d : Block} (h : WritesOnly q ws rx b c) (h' : WritesOnly q ws rx c d) :
    WritesOnly q ws rx b d where
  psqOut hq := (h'.psqOut hq).trans (h.psqOut hq)
  txbuf hq := (h'.txbuf hq).trans (h.txbuf hq)
  telemetry hq := by
    obtain ⟨h1, h2, h3, h4, h5⟩ := h.telemetry hq
    obtain ⟨h1', h2', h3', h4', h5'⟩ := h'.telemetry hq
    exact ⟨h1'.trans h1, h2'.trans h2, h3'.trans h3, h4'.trans h4, h5'.trans h5⟩
  status hq := (h'.status hq).trans (h.status hq)
  operands r hr hw := (h'.operands r hr hw).trans (h.operands r hr hw)
  rxbuf hx := (h'.rxbuf hx).trans (h.rxbuf hx)

theorem andThen_writes {r : Result} {k : State → Result} {b : Block} {t : State} (h : andThen r k = .next t)
    (hr : ∀ u, r = .next u → WritesOnly q ws rx b u.block)
    (hk : ∀ u, k u = .next t → WritesOnly q ws rx u.block t.block) : WritesOnly q ws rx b t.block := by
  obtain ⟨u, hu, h⟩ := andThen_eq_next h
  exact (hr u hu).trans (hk u h)

theorem andThen_goto_writes {r : Result} {w : Worker} {b : Block} {t : State}
    (h : andThen r (fun u => .next (goto w u)) = .next t) (hr : ∀ u, r = .next u → WritesOnly q ws rx b u.block) :
    WritesOnly q ws rx b t.block := by
  obtain ⟨u, hu, rfl⟩ := andThen_goto_next h
  exact hr u hu

/-! ### The lines -/

theorem writeReg_writes (b : Block) {r : Reg} (v : RegValue) (hr : r ∈ ws) :
    WritesOnly q ws rx b (writeReg b r v) := by
  obtain ⟨h1, h2, h3, h4, h5, h6, h7, h8, h9⟩ := writeReg_results b r v
  exact {
    psqOut := fun _ => h1
    txbuf := fun _ => h9
    telemetry := fun _ => ⟨h2, h3, h4, h5, h6⟩
    status := fun _ => h7
    operands := fun r' _ hw => regValue_writeReg_ne b v fun he => hw (he ▸ hr)
    rxbuf := fun _ => h8 }

theorem rxbuf_writes (b : Block) (m : List Host.Cell) : WritesOnly q ws true b { b with rxbuf := m } :=
  { WritesOnly.refl (q := q) (ws := ws) (rx := false) b with
    operands := fun _ hr _ => regValue_of_operands rfl hr
    rxbuf := nofun }

theorem hostWrite_writes {r : Reg} {v : RegValue} {s t : State} (h : hostWrite r v s = .next t) (hr : r ∈ ws) :
    WritesOnly q ws rx s.block t.block := by
  rw [hostWrite_next h]
  exact writeReg_writes s.block v hr

theorem hostRxFrame_writes {f : List Byte} {s t : State} (h : hostRxFrame f s = .next t) (hr : .rxLen ∈ ws) :
    WritesOnly q ws true s.block t.block := by
  obtain ⟨-, rfl⟩ := hostRxFrame_next h
  exact (writeReg_writes s.block (.byte (BitVec.ofNat 8 f.length)) hr).trans (rxbuf_writes _ _)

theorem hostWriteRx_writes {a : Nat} {v : Byte} {s t : State} (h : hostWriteRx a v s = .next t) :
    WritesOnly q ws true s.block t.block := by
  obtain ⟨-, rfl⟩ := hostWriteRx_next h
  exact rxbuf_writes _ _

theorem execQmap_writes {s t : State} (h : execQmap s = .next t) :
    WritesOnly (some .qmap) ws rx s.block t.block := by
  obtain ⟨w, d, -, -, -, rfl⟩ := execQmap_next h
  exact { WritesOnly.refl (ws := ws) (rx := rx) s.block with
    psqOut := fun hq => absurd rfl hq
    status := nofun
    operands := fun _ hr _ => regValue_of_operands rfl hr }

theorem execEncode_writes {s t : State} (h : execEncode s = .next t) :
    WritesOnly (some .encode) ws rx s.block t.block := by
  obtain ⟨op, ps1, ps2, ps3, ps4, -, -, -, -, -, rfl⟩ := execEncode_next h
  exact { WritesOnly.refl (ws := ws) (rx := rx) s.block with
    txbuf := fun hq => absurd rfl hq
    status := nofun
    operands := fun _ hr _ => regValue_of_operands rfl hr }

theorem raiseError_writes (r : Request) (e : ErrorKind) (s : State) :
    WritesOnly (some r) ws rx s.block (raiseError e s).block :=
  { WritesOnly.refl (q := some r) (ws := ws) (rx := rx) s.block with
    status := nofun
    operands := fun _ hr _ => regValue_of_operands rfl hr }

theorem execDecode_writes {s t : State} (h : execDecode s = .next t) :
    WritesOnly (some .decode) ws rx s.block t.block := by
  obtain ⟨n, -, -, ⟨-, rfl⟩ | ⟨-, -, rfl⟩⟩ := execDecode_next h
  · exact raiseError_writes .decode .malformedFrame s
  · exact { WritesOnly.refl (ws := ws) (rx := rx) s.block with
      telemetry := fun hq => absurd rfl hq
      status := nofun
      operands := fun _ hr _ => regValue_of_operands rfl hr }

theorem hostRead_writes {r : Reg} {s t : State} (h : hostRead r s = .next t) :
    WritesOnly q ws rx s.block t.block := by
  obtain ⟨-, v, -, rfl⟩ := hostRead_next h
  exact .refl _

theorem transmitFrame_writes {s t : State} (h : transmitFrame s = .next t) :
    WritesOnly q ws rx s.block t.block := by
  obtain ⟨-, f, -, rfl⟩ := transmitFrame_next h
  exact .refl _

end

/-! ### Items, moves and inputs -/

/-- The tail of `SEND` writes registers 2 to 6 and what `ENCODE` writes (R58). -/
theorem sendPacket_writes {op ps1 ps2 ps3 ps4 : Byte} {s t : State} (h : sendPacket op ps1 ps2 ps3 ps4 s = .next t) :
    WritesOnly (some .encode) [.cmdOpcode, .cmdPs1, .cmdPs2, .cmdPs3, .cmdPs4] false s.block t.block :=
  andThen_writes h (fun _ h => hostWrite_writes h (by decide)) fun _ h =>
  andThen_writes h (fun _ h => hostWrite_writes h (by decide)) fun _ h =>
  andThen_writes h (fun _ h => hostWrite_writes h (by decide)) fun _ h =>
  andThen_writes h (fun _ h => hostWrite_writes h (by decide)) fun _ h =>
  andThen_writes h (fun _ h => hostWrite_writes h (by decide)) fun _ h =>
  andThen_writes h (fun _ => execEncode_writes) fun _ => transmitFrame_writes

/-- An item writes what its request and its host lines write (R21, R58). -/
theorem exec_writes {i : Instr} {s t : State} (h : exec i s = .next t) :
    WritesOnly (some (requestOfItem i)) (writesOfItem i) (decide (.rxLen ∈ writesOfItem i)) s.block t.block := by
  cases i with
  | qmap => exact execQmap_writes h
  | encode => exact execEncode_writes h
  | decode => exact execDecode_writes h
  | reqReserved =>
    cases h
    exact raiseError_writes .reserved .illegalRequest s
  | cmdNop ps1 ps2 ps3 ps4 =>
    have h : sendPacket Config.opNop ps1 ps2 ps3 ps4 s = .next t := h
    exact sendPacket_writes h
  | cmdBlink ps1 ps2 ps3 ps4 =>
    have h : sendPacket Config.opBlink ps1 ps2 ps3 ps4 s = .next t := h
    exact sendPacket_writes h
  | cmdSetps ps1 ps2 ps3 ps4 =>
    have h : sendPacket Config.opSetps ps1 ps2 ps3 ps4 s = .next t := h
    exact sendPacket_writes h
  | tlm lat lon mx my mz pad =>
    have h : execTlm lat lon mx my mz pad s = .next t := h
    unfold execTlm at h
    exact andThen_writes h (fun _ h => hostRxFrame_writes h (List.mem_singleton_self _)) fun _ h =>
      andThen_writes h (fun _ => execDecode_writes) fun _ => hostRead_writes
  | psw code =>
    have h : execPsw code s = .next t := h
    unfold execPsw at h
    exact andThen_writes h (fun _ h => hostWrite_writes h (List.mem_singleton_self _)) fun _ h =>
      andThen_writes h (fun _ => execQmap_writes) fun _ => hostRead_writes

/-- A move of the worker writes what its one line writes (R21, R103). -/
theorem workerMove_writes {p : Option (List Byte)} {s t : State} (h : workerMove p s = .next t) :
    WritesOnly (requestOfWorker s.console.worker) (writesOfWorker s.console.worker)
      (decide (.rxLen ∈ writesOfWorker s.console.worker)) s.block t.block := by
  cases hw : s.console.worker <;> simp only [workerMove, hw] at h
  case telemetryReceived =>
    rcases copyFrameMove_next h with rfl | ⟨u, hu, rfl⟩
    · exact .refl _
    · rw [goto_block]
      exact hostRxFrame_writes hu (List.mem_singleton_self _)
  case decoding => exact andThen_goto_writes h fun _ => execDecode_writes
  case writingDegree => exact andThen_goto_writes h fun _ hu => hostWrite_writes hu (List.mem_singleton_self _)
  case quantizing => exact andThen_goto_writes h fun _ => execQmap_writes
  case movingWord =>
    obtain ⟨w, u, -, hu, rfl⟩ := moveWordMove_next h
    rw [goto_block]
    exact hostWrite_writes hu (List.mem_singleton_self _)
  case writingOpcode => exact andThen_goto_writes h fun _ hu => hostWrite_writes hu (List.mem_singleton_self _)
  case encoding => exact andThen_goto_writes h fun _ => execEncode_writes
  case transmitting => exact andThen_goto_writes h fun _ => transmitFrame_writes
  case polling => rcases pollMove_next h with rfl | ⟨f, rfl⟩ <;> exact .refl _
  case checkingDecode => rcases checkDecodeMove_next h with ⟨-, rfl⟩ | rfl <;> exact .refl _
  case publishing =>
    obtain ⟨w, -, rfl⟩ := publishMove_next h
    exact .refl _
  case checkSendRequest => rcases checkSendMove_next h with rfl | rfl <;> exact .refl _
  case readingOpcode => rcases readOpcodeMove_next h with ⟨op, -, rfl⟩ | rfl <;> exact .refl _
  case readingMode => rcases readModeMove_next h with rfl | rfl | rfl <;> exact .refl _
  case readingPs => rcases readPsMove_next h with ⟨got, ⟨ch, rfl⟩ | rfl⟩ <;> exact .refl _
  case readingAngle =>
    obtain ⟨degs, rfl⟩ := readAngleMove_next h
    exact .refl _
  case checkingRange => rcases checkRangeMove_next h with ⟨q, -, rfl⟩ | rfl <;> exact .refl _
  case idle | countingFrame | noData | clearingFlag | publishingDegree | reporting | clearingMessage =>
    cases h
    exact .refl _

/-- An input other than the reset writes what its request and its host lines write (R21, R26, R28). -/
theorem perform_writes {x : Input} {s t : State} (hx : x ≠ .reset) (h : perform x s = .next t) :
    WritesOnly (requestOf s.console.worker x) (hostWritesOf s.console.worker x) (writesRxBuf s.console.worker x)
      s.block t.block := by
  cases x with
  | item bs =>
    simp only [perform, presentItem] at h
    split at h
    · rename_i i hd
      simp only [requestOf, hostWritesOf, writesRxBuf, hd, Except.toOption, Option.map_some, Option.getD_some]
      exact exec_writes h
    · cases h
  | hostWrite r v => exact hostWrite_writes h (List.mem_singleton_self r)
  | hostWriteRx a b => exact hostWriteRx_writes h
  | rxFrame f => exact hostRxFrame_writes h (List.mem_singleton_self _)
  | hostRead r => exact hostRead_writes h
  | hostReadTx a =>
    obtain ⟨b, -, rfl⟩ := hostReadTx_next h
    exact .refl _
  | reset => exact absurd rfl hx
  | uiEdit e =>
    cases h
    cases e <;> exact .refl _
  | uiSend | uiSees _ | radioSignal _ =>
    cases h
    exact .refl _
  | worker p => exact workerMove_writes h

/-- Settles O42: every line writes only its own places, and an input is the lines of one item, move or port access. -/
theorem resultsHaveOneWriter : Obligations.ResultsHaveOneWriter := by
  intro s t x rest hi hx h
  rw [step_cons hi] at h
  obtain ⟨h1, h2, h3, h4, h5, h6⟩ := perform_writes (s := setInputs rest s) hx h
  exact ⟨h1, h2, h3, h4, h5, h6⟩

end Sys2Proof.Machine

/-! ## The step and what is refused (10_state.md R16, R24; 60_exceptions.md R124; settles O5, O6 and O27) -/

namespace Sys2Proof.Machine

/-- Settles O5: taking the input, then decoding, are the step and its presentation unfolded once (R24, R55). -/
theorem stepRunsTheDecodedItem : Obligations.StepRunsTheDecodedItem := by
  intro s bs rest hi
  have hs : step s = presentItem bs (setInputs rest s) := step_cons hi
  refine ⟨fun i hd => ?_, fun e hd => ?_⟩
  · rw [hs, presentItem, hd]
    rfl
  · rw [hs, presentItem, hd]

/-- Settles O6 (R16, R135). -/
theorem stepWithoutInputWaits : Obligations.StepWithoutInputWaits := by
  intro s hi
  rw [step, stepInput, hi]

/-- The first offset without a value is the one that is found missing (R86). -/
theorem firstMissing_of_first {m : List Host.Cell} {a n k : Nat} (h1 : a ≤ k) (h2 : k < a + n)
    (hk : memRead m k = none) (hb : ∀ j, a ≤ j → j < k → (memRead m j).isSome) : firstMissing m a n = some k := by
  cases h : firstMissing m a n with
  | none => exact absurd (firstMissing_eq_none.1 h k h1 h2) (by simp [hk])
  | some k' =>
    obtain ⟨h1', -, hk', hb'⟩ := firstMissing_eq_some h
    rcases Nat.lt_trichotomy k k' with hlt | rfl | hlt
    · exact absurd (hb' k h1 hlt) (by simp [hk])
    · rfl
    · exact absurd (hb k' h1' hlt) (by simp [hk'])

/-- `QMAP` on a degree outside [0, 353] (R68). -/
theorem execQmap_of_not_domain {s : State} {w : DegWord} {d : Rat} (hw : s.block.psqDeg = some w)
    (hd : degValue w = some d) (h : ¬InDomain d) : execQmap s = .refused .degreeOutOfDomain := by
  have h : inDegDomain d = false := Bool.eq_false_iff.2 fun hin => h ((inDegDomain_iff d).1 hin)
  simp [execQmap, hw, hd, h]

/-- `DECODE` of a frame length with a byte missing, named by the first (R33, R86). -/
theorem execDecode_of_missing {s : State} {a : Nat} (hn : s.block.rxLen = some 16) (ha : a < 16)
    (hb : ∀ a', a' < a → (memRead s.block.rxbuf a').isSome) (hm : memRead s.block.rxbuf a = none) :
    execDecode s = .refused (.rxByteHoldsNoValue a) := by
  have hf : firstMissing s.block.rxbuf 0 Config.tlmFrameLen = some a :=
    firstMissing_of_first (Nat.zero_le a) (by rwa [Nat.zero_add]) hm fun j _ hj => hb j hj
  have hmax : ¬Config.rxMax < Config.tlmFrameLen := Nat.not_lt.2 tlmFrame_fits
  have hlen : (16 : Byte).toNat = Config.tlmFrameLen := rfl
  simp only [execDecode, hn, needs_some, hmax, if_false, hlen, ne_eq, not_true_eq_false, hf]

/-- `DECODE` of any other length: refused above `RX_MAX`, else malformed (R86, R87). -/
theorem execDecode_of_other_length {s : State} {n : Byte} (hn : s.block.rxLen = some n) (h : n ≠ 16) :
    execDecode s =
      if Config.rxMax < n.toNat then .refused .rxLenAboveMax else .next (raiseError .malformedFrame s) := by
  split
  · simp only [execDecode, hn, needs_some, if_pos ‹_›]
  · exact execDecode_of_length hn (Nat.not_lt.1 ‹_›) fun h16 => h (BitVec.eq_of_toNat_eq h16)

/-- Settles O27: each request's tests in their order, with the ones before the failing test passed. -/
theorem requestsAreRefusedByName : Obligations.RequestsAreRefusedByName := by
  intro s
  refine ⟨?noDegree, ?noNumber, fun w d => execQmap_of_not_domain, ?op, ?ps1, ?ps2, ?ps3, ?ps4, ?noLength,
    fun a hn ha => execDecode_of_missing hn ha, fun n => execDecode_of_other_length⟩
  case noDegree =>
    intro h
    simp [exec, execQmap, h]
  case noNumber =>
    intro w hw hd
    simp [exec, execQmap, hw, hd]
  case op =>
    intro h
    simp [exec, execEncode, h]
  case ps1 =>
    intro h0 h
    obtain ⟨op, h0⟩ := Option.isSome_iff_exists.1 h0
    simp [exec, execEncode, h0, h]
  case ps2 =>
    intro h0 h1 h
    obtain ⟨op, h0⟩ := Option.isSome_iff_exists.1 h0
    obtain ⟨ps1, h1⟩ := Option.isSome_iff_exists.1 h1
    simp [exec, execEncode, h0, h1, h]
  case ps3 =>
    intro h0 h1 h2 h
    obtain ⟨op, h0⟩ := Option.isSome_iff_exists.1 h0
    obtain ⟨ps1, h1⟩ := Option.isSome_iff_exists.1 h1
    obtain ⟨ps2, h2⟩ := Option.isSome_iff_exists.1 h2
    simp [exec, execEncode, h0, h1, h2, h]
  case ps4 =>
    intro h0 h1 h2 h3 h
    obtain ⟨op, h0⟩ := Option.isSome_iff_exists.1 h0
    obtain ⟨ps1, h1⟩ := Option.isSome_iff_exists.1 h1
    obtain ⟨ps2, h2⟩ := Option.isSome_iff_exists.1 h2
    obtain ⟨ps3, h3⟩ := Option.isSome_iff_exists.1 h3
    simp [exec, execEncode, h0, h1, h2, h3, h]
  case noLength =>
    intro h
    simp [exec, execDecode, h]

end Sys2Proof.Machine

/-! ## Results depend on the operands alone (10_state.md R19; settles O31) -/

namespace Sys2Proof.Machine

/-- `MemRead` depends on the bytes it reads (R33). -/
theorem memReadLE_congr {m m' : List Host.Cell} {a n : Nat}
    (h : ∀ k, a ≤ k → k < a + n → memRead m k = memRead m' k) : memReadLE m a n = memReadLE m' a n := by
  induction n generalizing a with
  | zero => rfl
  | succ n ih =>
    rw [memReadLE, memReadLE, h a (by omega) (by omega), ih fun k h1 h2 => h k (by omega) (by omega)]

/-- `MemRead(a, 4)` depends on its four bytes (R33). -/
theorem memReadWord_congr {m m' : List Host.Cell} {a : Nat}
    (h : ∀ k, a ≤ k → k < a + 4 → memRead m k = memRead m' k) : memReadWord m a = memReadWord m' a := by
  rw [memReadWord, memReadWord, memReadLE_congr h]

/-- `MemRead(a, 2)` depends on its two bytes (R33). -/
theorem memReadHalf_congr {m m' : List Host.Cell} {a : Nat}
    (h : ∀ k, a ≤ k → k < a + 2 → memRead m k = memRead m' k) : memReadHalf m a = memReadHalf m' a := by
  rw [memReadHalf, memReadHalf, memReadLE_congr h]

/-- `PSQ_OUT` after a `QMAP` is a function of `PSQ_DEG` (R67). -/
theorem psqOut_of_execQmap {s t : State} (h : execQmap s = .next t) :
    t.block.psqOut = (s.block.psqDeg.bind degValue).map quantizeAndMap := by
  obtain ⟨w, d, hw, hd, -, rfl⟩ := execQmap_next h
  simp [psqDone, hw, hd]

/-- `DECODE` of a presented length of 16 that answers a next state is the good frame's (R86). -/
theorem execDecode_next_of_sixteen {s t : State} (hn : s.block.rxLen = some 16) (h : execDecode s = .next t) :
    t = tdecDone s := by
  obtain ⟨n, hn', -, ⟨hlen, -⟩ | ⟨-, -, rfl⟩⟩ := execDecode_next h
  · rw [hn] at hn'
    cases hn'
    exact absurd rfl hlen
  · rfl

/-- Settles O31: each result is written out in the operands (R67, R77, R86), so equal operands give equal results. -/
theorem resultsDependOnOperandsOnly : Obligations.ResultsDependOnOperandsOnly := by
  refine ⟨?qmap, ?encode, ?decode⟩
  case qmap =>
    intro s s' t t' hdeg h h'
    rw [psqOut_of_execQmap h, psqOut_of_execQmap h', hdeg]
  case encode =>
    intro s s' t t' e0 e1 e2 e3 e4 h h' a ha
    obtain ⟨op, ps1, ps2, ps3, ps4, h0, h1, h2, h3, h4, rfl⟩ := execEncode_next h
    obtain ⟨op', ps1', ps2', ps3', ps4', h0', h1', h2', h3', h4', rfl⟩ := execEncode_next h'
    obtain rfl := Option.some.inj (h0.symm.trans (e0.trans h0'))
    obtain rfl := Option.some.inj (h1.symm.trans (e1.trans h1'))
    obtain rfl := Option.some.inj (h2.symm.trans (e2.trans h2'))
    obtain rfl := Option.some.inj (h3.symm.trans (e3.trans h3'))
    obtain rfl := Option.some.inj (h4.symm.trans (e4.trans h4'))
    have hin : 0 ≤ a ∧ a < 0 + (encodeCommand op ps1 ps2 ps3 ps4).length := ⟨Nat.zero_le a, by simpa [encodeCommand]⟩
    simp only [cencDone, setBlock_block, memRead_memWriteBytes, if_pos hin]
  case decode =>
    intro s s' t t' hn hn' hb h h'
    rw [execDecode_next_of_sixteen hn h, execDecode_next_of_sixteen hn' h', tdecDone_eq, tdecDone_eq]
    exact ⟨memReadWord_congr fun k _ _ => hb k (by omega), memReadWord_congr fun k _ _ => hb k (by omega),
      memReadHalf_congr fun k _ _ => hb k (by omega), memReadHalf_congr fun k _ _ => hb k (by omega),
      memReadHalf_congr fun k _ _ => hb k (by omega)⟩

end Sys2Proof.Machine

/-! ## The host's ports and the state after reset (10_state.md R28 to R30; settles O33 to O36 and O39) -/

namespace Sys2Proof.Machine

/-- A host write that is taken leaves the value in its register (R28). -/
theorem regValue_writeReg_same {r : Reg} {v : RegValue} {s t : State} (h : hostWrite r v s = .next t) :
    regValue (writeReg s.block r v) r = some v := by
  unfold hostWrite at h
  split at h <;> cases h <;> rfl

/-- Settles O33: by register for what is taken and refused; the frame is that of `writeReg` and `memWrite`. -/
theorem hostWritesOperandsOnly : Obligations.HostWritesOperandsOnly := by
  refine ⟨?taken, fun s d => ⟨_, rfl⟩, ?bytes, ?refused, ?rxbuf⟩
  case taken =>
    intro s r v t h
    obtain ⟨-, -, -, -, -, -, -, hrx, htx⟩ := writeReg_results s.block r v
    have hv := regValue_writeReg_same h
    obtain rfl := hostWrite_next h
    exact ⟨hv, fun r' hr => regValue_writeReg_ne s.block v hr, rfl, hrx, htx⟩
  case bytes =>
    intro s r b h2 h7
    cases r
    case cmdOpcode | cmdPs1 | cmdPs2 | cmdPs3 | cmdPs4 | rxLen => exact ⟨_, rfl⟩
    all_goals simp [regNumber] at h2 h7
  case refused =>
    intro s r v h
    cases r
    case psqOut | tlmLat | tlmLon | tlmMx | tlmMy | tlmMz | status => rfl
    all_goals simp [regNumber] at h
  case rxbuf =>
    intro s a b ha
    exact ⟨memWrite s.block.rxbuf a b, if_pos ha, memRead_memWrite_same _ a b, fun a' h => memRead_memWrite_ne _ b h⟩

/-- Settles O34: above `RX_MAX` by the bound's test; at another width by register and value. -/
theorem hostWritesOutsideStop : Obligations.HostWritesOutsideStop := by
  intro s
  refine ⟨fun a b ha => if_neg (Nat.not_lt.2 ha), ?degree, ?byte⟩
  case degree =>
    intro v hv
    cases v with
    | degree d => exact absurd rfl (hv d)
    | byte _ | half _ | word _ => rfl
  case byte =>
    intro r v h2 h7 hv
    cases v with
    | byte b => exact absurd rfl (hv b)
    | degree _ | half _ | word _ =>
      cases r
      case cmdOpcode | cmdPs1 | cmdPs2 | cmdPs3 | cmdPs4 | rxLen => rfl
      all_goals simp [regNumber] at h2 h7

/-- The registers the host may not read are `PSQ_OUT` and the telemetry registers without their VALID bit (R29). -/
theorem readable_eq_false (st : Byte) (r : Reg) :
    readable st r = false ↔
      (r = .psqOut ∧ psqValid st = false) ∨ (8 ≤ regNumber r ∧ regNumber r ≤ 12 ∧ tlmValid st = false) := by
  cases r <;> simp [readable, regNumber]

/-- Settles O35: the two tests of `RD` in their order (R29). -/
theorem hostReadsValidResultsOnly : Obligations.HostReadsValidResultsOnly := by
  intro s r
  refine ⟨fun h => ?_, fun h hv => ?_, fun v h hv => ?_, readable_eq_false _ r⟩
  · simp [hostRead, h]
  · simp [hostRead, h, hv]
  · simp [hostRead, h, hv, setReadData]

/-- Settles O36: the tests of a TXBUF read in their order (R29, R32). -/
theorem hostReadsTheFrameWhenValid : Obligations.HostReadsTheFrameWhenValid := by
  intro s a
  refine ⟨fun ha hv => ?_, fun b ha hv hb => ?_, fun ha => if_neg (Nat.not_lt.2 ha)⟩
  · have ha : a < Config.cmdFrameLen := ha
    simp [hostReadTx, ha, hv]
  · have ha : a < Config.cmdFrameLen := ha
    simp [hostReadTx, ha, hv, hb, setReadData]

/-- Settles O39: register by register. -/
theorem resetStateHoldsNoValue : Obligations.ResetStateHoldsNoValue := by
  refine ⟨rfl, fun r hr => ?_, fun a => rfl, fun a => rfl⟩
  cases r
  case status => exact absurd rfl hr
  all_goals rfl

end Sys2Proof.Machine

/-! ## What the UI sees of the worker's writes (20_memory.md R42; settles O43 and O44) -/

namespace Sys2Proof.Machine

/-! ### Lines at the block leave the host as it was -/

/-- `WR` leaves the host as it was (R28). -/
theorem hostWrite_console {r : Reg} {v : RegValue} {s t : State} (h : hostWrite r v s = .next t) :
    t.console = s.console := by
  rw [hostWrite_next h, setBlock_console]

/-- `RXFRAME` leaves the host as it was (R57). -/
theorem hostRxFrame_console {f : List Byte} {s t : State} (h : hostRxFrame f s = .next t) :
    t.console = s.console := by
  obtain ⟨-, rfl⟩ := hostRxFrame_next h
  rfl

/-- `QMAP` leaves the host as it was (R67). -/
theorem execQmap_console {s t : State} (h : execQmap s = .next t) : t.console = s.console := by
  obtain ⟨w, d, -, -, -, rfl⟩ := execQmap_next h
  rfl

/-- `ENCODE` leaves the host as it was (R77). -/
theorem execEncode_console {s t : State} (h : execEncode s = .next t) : t.console = s.console := by
  obtain ⟨op, ps1, ps2, ps3, ps4, -, -, -, -, -, rfl⟩ := execEncode_next h
  rfl

/-- `DECODE` leaves the host as it was (R86, R119). -/
theorem execDecode_console {s t : State} (h : execDecode s = .next t) : t.console = s.console := by
  obtain ⟨n, -, -, ⟨-, rfl⟩ | ⟨-, -, rfl⟩⟩ := execDecode_next h <;> rfl

/-- Handing TXBUF to the radio leaves the host as it was (R107). -/
theorem transmitFrame_console {s t : State} (h : transmitFrame s = .next t) : t.console = s.console := by
  obtain ⟨-, f, -, rfl⟩ := transmitFrame_next h
  rfl

/-- The tail of `SEND` leaves the host as it was (R58). -/
theorem sendPacket_console {op ps1 ps2 ps3 ps4 : Byte} {s t : State} (h : sendPacket op ps1 ps2 ps3 ps4 s = .next t) :
    t.console = s.console := by
  rw [sendPacket_eq] at h
  cases h
  rfl

/-- An encoded item leaves the host as it was, but for what an `RD` of it returned (R57, R58). -/
theorem exec_console {i : Instr} {s t : State} (h : exec i s = .next t) :
    ∃ v, t.console = { s.console with readData := v } := by
  cases i with
  | qmap => exact ⟨_, execQmap_console h⟩
  | encode => exact ⟨_, execEncode_console h⟩
  | decode => exact ⟨_, execDecode_console h⟩
  | reqReserved =>
    cases h
    exact ⟨_, rfl⟩
  | cmdNop ps1 ps2 ps3 ps4 =>
    have h : sendPacket Config.opNop ps1 ps2 ps3 ps4 s = .next t := h
    exact ⟨_, sendPacket_console h⟩
  | cmdBlink ps1 ps2 ps3 ps4 =>
    have h : sendPacket Config.opBlink ps1 ps2 ps3 ps4 s = .next t := h
    exact ⟨_, sendPacket_console h⟩
  | cmdSetps ps1 ps2 ps3 ps4 =>
    have h : sendPacket Config.opSetps ps1 ps2 ps3 ps4 s = .next t := h
    exact ⟨_, sendPacket_console h⟩
  | tlm lat lon mx my mz pad =>
    have h : execTlm lat lon mx my mz pad s = .next t := h
    unfold execTlm at h
    obtain ⟨s1, h1, h⟩ := andThen_eq_next h
    obtain ⟨s2, h2, h⟩ := andThen_eq_next h
    obtain ⟨-, v, -, rfl⟩ := hostRead_next h
    exact ⟨some v, by rw [setReadData_console, execDecode_console h2, hostRxFrame_console h1]⟩
  | psw code =>
    have h : execPsw code s = .next t := h
    unfold execPsw at h
    obtain ⟨s1, h1, h⟩ := andThen_eq_next h
    obtain ⟨s2, h2, h⟩ := andThen_eq_next h
    obtain ⟨-, v, -, rfl⟩ := hostRead_next h
    exact ⟨some v, by rw [setReadData_console, execQmap_console h2, hostWrite_console h1]⟩

/-! ### What is written, what is seen, and what is not seen yet -/

/-- The part of the host `DisplayInv` speaks of: what the worker wrote, what the UI sees, and the writes between. -/
def Console.views (c : Console) : Display × Display × List ShownWrite := (c.display, c.screen, c.unseen)

/-- The display invariant speaks of the views alone. -/
theorem DisplayInv.of_views {c d : Console} (hi : DisplayInv c) (h : d.views = c.views) : DisplayInv d := by
  simp only [Console.views, Prod.mk.injEq] at h
  obtain ⟨hd, hs, hu⟩ := h
  rw [DisplayInv, hd, hs, hu]
  exact hi

/-- A write goes last among those not seen yet, and is the last one done to what was written. -/
theorem showWrite_keeps_displayInv {c : Console} (hi : DisplayInv c) (w : ShownWrite) :
    DisplayInv (showWrite w c) := by
  have hi : c.unseen.foldl putShown c.screen = c.display := hi
  simp [DisplayInv, List.foldl_append, hi]

/-- Showing the oldest write to a scalar: it goes to the screen alone (R42). -/
theorem deliver_of_middle {k : Shown} {c : Console} {pre post : List ShownWrite} {w : ShownWrite}
    (hu : c.unseen = pre ++ w :: post) (hw : w.scalar = k) (hp : ∀ x ∈ pre, x.scalar ≠ k) :
    deliver k c = { c with screen := putShown c.screen w, unseen := pre ++ post } := by
  simp only [deliver, hu, takeWrite_middle post hw hp]

/-- With no write to a scalar waiting, nothing more of it is shown. -/
theorem deliver_of_none {k : Shown} {c : Console} (h : ∀ x ∈ c.unseen, x.scalar ≠ k) : deliver k c = c := by
  simp only [deliver, takeWrite_eq_none h]

/-- A write shown before older writes to other scalars leaves the same outcome: those writes commute with it. -/
theorem deliver_keeps_displayInv {c : Console} (hi : DisplayInv c) (k : Shown) : DisplayInv (deliver k c) := by
  cases ht : takeWrite k c.unseen with
  | none =>
    have hc : deliver k c = c := by simp only [deliver, ht]
    rw [hc]
    exact hi
  | some r =>
    obtain ⟨pre, post, hu, -, rfl, hp⟩ := takeWrite_eq_some ht
    rw [deliver_of_middle hu rfl hp]
    calc (pre ++ post).foldl putShown (putShown c.screen r.1)
        = c.unseen.foldl putShown c.screen := by rw [hu, foldl_putShown_middle c.screen post hp]
      _ = c.display := hi

/-! ### Moves and inputs -/

/-- A validation error writes none of the scalars yet (R100; log 5). -/
theorem raiseValidation_views (e : ErrorKind) (s : State) :
    (raiseValidation e s).console.views = s.console.views := by
  cases e <;> rfl

/-- A line that leaves the host as it was, followed by a move to another place, writes none of the scalars. -/
theorem andThen_goto_views {r : Result} {w : Worker} {s t : State} (h : andThen r (fun u => .next (goto w u)) = .next t)
    (hr : ∀ u, r = .next u → u.console = s.console) : t.console.views = s.console.views := by
  obtain ⟨u, hu, rfl⟩ := andThen_goto_next h
  rw [← hr u hu]
  rfl

/-- All that a move of the worker can do to the views (log 5): nothing, or one write to one scalar. -/
theorem workerMove_views {p : Option (List Byte)} {s t : State} (h : workerMove p s = .next t) :
    t.console.views = s.console.views ∨ ∃ w, t.console.views = (showWrite w s.console).views := by
  cases hw : s.console.worker <;> simp only [workerMove, hw] at h
  case publishing =>
    obtain ⟨w, -, rfl⟩ := publishMove_next h
    exact .inr ⟨w, rfl⟩
  case publishingDegree op ch degs =>
    cases h
    exact .inr ⟨.calculated ch (degs.get ch), rfl⟩
  case reporting e =>
    cases h
    exact .inr ⟨.errorMessage (errorText e s.console.freeCount), rfl⟩
  case clearingMessage =>
    cases h
    exact .inr ⟨.errorMessage [], rfl⟩
  case telemetryReceived =>
    rcases copyFrameMove_next h with rfl | ⟨u, hu, rfl⟩
    · exact .inl rfl
    · rw [goto_console, hostRxFrame_console hu]
      exact .inl rfl
  case decoding => exact .inl (andThen_goto_views h fun _ => execDecode_console)
  case writingDegree | writingOpcode => exact .inl (andThen_goto_views h fun _ => hostWrite_console)
  case quantizing => exact .inl (andThen_goto_views h fun _ => execQmap_console)
  case movingWord =>
    obtain ⟨w, u, -, hu, rfl⟩ := moveWordMove_next h
    rw [goto_console, hostWrite_console hu]
    exact .inl rfl
  case encoding => exact .inl (andThen_goto_views h fun _ => execEncode_console)
  case transmitting => exact .inl (andThen_goto_views h fun _ => transmitFrame_console)
  case polling => rcases pollMove_next h with rfl | ⟨f, rfl⟩ <;> exact .inl rfl
  case checkingDecode => rcases checkDecodeMove_next h with ⟨-, rfl⟩ | rfl <;> exact .inl rfl
  case checkSendRequest => rcases checkSendMove_next h with rfl | rfl <;> exact .inl rfl
  case readingOpcode =>
    rcases readOpcodeMove_next h with ⟨op, -, rfl⟩ | rfl
    · exact .inl rfl
    · exact .inl (raiseValidation_views _ s)
  case readingMode => rcases readModeMove_next h with rfl | rfl | rfl <;> exact .inl rfl
  case readingPs => rcases readPsMove_next h with ⟨got, ⟨ch, rfl⟩ | rfl⟩ <;> exact .inl rfl
  case readingAngle =>
    obtain ⟨degs, rfl⟩ := readAngleMove_next h
    exact .inl rfl
  case checkingRange =>
    rcases checkRangeMove_next h with ⟨q, -, rfl⟩ | rfl
    · exact .inl rfl
    · exact .inl (raiseValidation_views _ s)
  case idle | countingFrame | noData | clearingFlag =>
    cases h
    exact .inl rfl

/-- Every input keeps the display invariant: only the worker writes the scalars, and only a delivery shows them. -/
theorem perform_keeps_displayInv {x : Input} {s t : State} (hi : DisplayInv s.console) (h : perform x s = .next t) :
    DisplayInv t.console := by
  cases x with
  | item bs =>
    simp only [perform, presentItem] at h
    split at h
    · obtain ⟨v, hv⟩ := exec_console h
      exact hi.of_views (by rw [hv]; rfl)
    · cases h
  | hostWrite r v => exact hostWrite_console h ▸ hi
  | hostWriteRx a b =>
    obtain ⟨-, rfl⟩ := hostWriteRx_next h
    exact hi
  | rxFrame f => exact hostRxFrame_console h ▸ hi
  | hostRead r =>
    obtain ⟨-, v, -, rfl⟩ := hostRead_next h
    exact hi.of_views rfl
  | hostReadTx a =>
    obtain ⟨b, -, rfl⟩ := hostReadTx_next h
    exact hi.of_views rfl
  | uiEdit e =>
    cases h
    cases e <;> exact hi.of_views rfl
  | uiSees k =>
    cases h
    exact deliver_keeps_displayInv hi k
  | reset | uiSend | radioSignal _ =>
    cases h
    exact hi.of_views rfl
  | worker p =>
    rcases workerMove_views h with hv | ⟨w, hv⟩
    · exact hi.of_views hv
    · exact (showWrite_keeps_displayInv hi w).of_views hv

/-- Settles O44: a move writes at most one scalar, last of those not seen, and a delivery shows one write before others
that commute with it. -/
theorem everyStepKeepsTheDisplayInvariant : Obligations.EveryStepKeepsTheDisplayInvariant := by
  intro s t hi h
  cases hx : s.inputs with
  | nil =>
    simp only [step, stepInput, hx, Host.Outcome.next.injEq] at h
    exact h ▸ hi
  | cons x rest =>
    rw [step_cons hx] at h
    exact perform_keeps_displayInv (s := setInputs rest s) hi h

/-! ### The UI's events -/

/-- The entry of the channel that was replaced. -/
@[simp] theorem Quad.get_set_same {α : Type} (q : Quad α) (ch : Channel) (x : α) : (q.set ch x).get ch = x := by
  cases ch <;> rfl

/-- The entry of a channel other than the one replaced. -/
theorem Quad.get_set_ne {α : Type} (q : Quad α) {ch ch' : Channel} (x : α) (h : ch' ≠ ch) :
    (q.set ch x).get ch' = q.get ch' := by
  cases ch <;> cases ch' <;> simp [Quad.set, Quad.get] at h ⊢

/-- Settles O43: each event by its own input; what becomes visible is the delivery's. -/
theorem uiTouchesOnlyItsScalars : Obligations.UiTouchesOnlyItsScalars := by
  intro s rest
  refine ⟨step_cons, fun t => step_cons, fun m => step_cons, fun t => step_cons, fun ch t h => ?_,
    fun k h => ⟨fun pre w post hu hw hp => ?_, fun hn => ?_⟩⟩
  · exact ⟨s.console.psStr.set ch t, step_cons h, Quad.get_set_same _ _ _, fun ch' hc => Quad.get_set_ne _ _ hc⟩
  · rw [step_cons h, perform, uiSees, setInputs_console, deliver_of_middle hu hw hp]
    rfl
  · rw [step_cons h, perform, uiSees, setInputs_console, deliver_of_none hn]
    rfl

end Sys2Proof.Machine

/-! ## The little-endian read (20_memory.md R33; settles O20) -/

namespace Sys2Proof.Machine

/-- All that `MemRead` of one byte more can answer: the byte, and 256 times the read of the bytes above it (R33). -/
theorem memReadLE_succ_eq_some {m : List Host.Cell} {a n v : Nat} (h : memReadLE m a (n + 1) = some v) :
    ∃ b r, memRead m a = some b ∧ memReadLE m (a + 1) n = some r ∧ v = b.toNat + 256 * r := by
  unfold memReadLE at h
  split at h
  · rename_i b r hb hr
    cases h
    exact ⟨b, r, hb, hr, rfl⟩
  · cases h

/-- `MemRead` of bytes that all hold values is their sum, each at its own power of 256 (R33). -/
theorem memReadLE_eq_sum {m : List Host.Cell} {a n : Nat} {b : Nat → Byte}
    (h : ∀ k, k < n → memRead m (a + k) = some (b k)) :
    memReadLE m a n = some (∑ k ∈ Finset.range n, 2 ^ (8 * k) * (b k).toNat) := by
  induction n generalizing a b with
  | zero => rfl
  | succ n ih =>
    have hlow : memRead m a = some (b 0) := h 0 (Nat.succ_pos n)
    have hhigh := ih (a := a + 1) (b := fun k => b (k + 1)) fun k hk => by
      rw [Nat.add_assoc, Nat.add_comm 1 k]
      exact h (k + 1) (Nat.succ_lt_succ hk)
    have hsum : ∑ k ∈ Finset.range (n + 1), 2 ^ (8 * k) * (b k).toNat
        = (b 0).toNat + 256 * ∑ k ∈ Finset.range n, 2 ^ (8 * k) * (b (k + 1)).toNat := by
      rw [Finset.sum_range_succ', Finset.mul_sum, Nat.add_comm]
      congr 1
      · simp
      · exact Finset.sum_congr rfl fun k _ => by ring
    rw [memReadLE_succ hlow hhigh, hsum]

/-- A read that has a value read bytes that hold values (R33). -/
theorem isSome_memRead_of_memReadLE {m : List Host.Cell} {a n v : Nat} (h : memReadLE m a n = some v) {k : Nat}
    (hk : k < n) : (memRead m (a + k)).isSome := by
  induction n generalizing a v k with
  | zero => exact absurd hk (Nat.not_lt_zero k)
  | succ n ih =>
    obtain ⟨b, r, hb, hr, -⟩ := memReadLE_succ_eq_some h
    cases k with
    | zero => exact Option.isSome_of_eq_some hb
    | succ k =>
      rw [Nat.add_comm k 1, ← Nat.add_assoc]
      exact ih hr (Nat.lt_of_succ_lt_succ hk)

/-- A read of `n` bytes fits in 8n bits (R33). -/
theorem memReadLE_lt {m : List Host.Cell} {a n v : Nat} (h : memReadLE m a n = some v) : v < 2 ^ (8 * n) := by
  induction n generalizing a v with
  | zero =>
    cases h
    decide
  | succ n ih =>
    obtain ⟨b, r, -, hr, rfl⟩ := memReadLE_succ_eq_some h
    have hb := b.isLt
    have hr := ih hr
    have hp : 2 ^ (8 * (n + 1)) = 256 * 2 ^ (8 * n) := by ring
    omega

/-- Settles O20: the sum, the bytes it needs, and its bound, each by induction on the number of bytes. -/
theorem memReadIsLittleEndian : Obligations.MemReadIsLittleEndian := by
  refine fun m a n => ⟨fun b hb => memReadLE_eq_sum hb, fun k hk hmiss => ?_, fun v => memReadLE_lt⟩
  rw [Option.eq_none_iff_forall_ne_some]
  intro v hv
  have hheld := isSome_memRead_of_memReadLE hv hk
  rw [hmiss] at hheld
  cases hheld

end Sys2Proof.Machine

/-! ## The encoding and its inverse (30_encoding.md R47 to R56; settles O1 to O4) -/

namespace Sys2Proof.Machine

/-- Bytes of any length but a single byte's and a command frame's are a telemetry frame or nothing (R47, R56). -/
theorem decodeItem_of_length {bs : List Byte} (h1 : bs.length ≠ 1) (h5 : bs.length ≠ Config.cmdFrameLen) :
    decodeItem bs =
      if bs.length = Config.tlmFrameLen then .ok (decodeTlm bs) else .error (.badLength bs.length) := by
  unfold decodeItem
  split
  · exact absurd rfl h1
  · exact absurd rfl h5
  · rfl

/-- Settles O1: by item; the fields of a telemetry frame are the words of their own bytes (R34, R35). -/
theorem decodeInvertsEncode : Obligations.DecodeInvertsEncode := by
  intro i
  cases i with
  | qmap | encode | decode | reqReserved => rfl
  | cmdNop ps1 ps2 ps3 ps4 | cmdBlink ps1 ps2 ps3 ps4 | cmdSetps ps1 ps2 ps3 ps4 => rfl
  | tlm lat lon mx my mz pad =>
    rw [encodeItem_tlm, decodeItem_sixteen, word_bytes, word_bytes, half_bytes, half_bytes, half_bytes, half_bytes]
  | psw code => exact decodeByte_wordOfCode code

/-- A single byte that decodes is the byte of its item: a request code, or the word of the code it holds (R50, R72). -/
theorem encodeItem_of_decodeByte {b : Byte} {i : Instr} (h : decodeByte b = .ok i) : encodeItem i = [b] := by
  unfold decodeByte at h
  split_ifs at h with h0 h1 h2 h3 hlegal <;> cases h
  · rw [h0]; rfl
  · rw [h1]; rfl
  · rw [h2]; rfl
  · rw [h3]; rfl
  · rw [encodeItem, wordOfCode_codeOfWord b hlegal]

/-- A command frame that decodes is the frame of its item (R49, R51). -/
theorem encodeItem_of_decodeCommand {op ps1 ps2 ps3 ps4 : Byte} {i : Instr}
    (h : decodeCommand op ps1 ps2 ps3 ps4 = .ok i) : encodeItem i = [op, ps1, ps2, ps3, ps4] := by
  unfold decodeCommand at h
  split_ifs at h with hop hop hop <;> cases h <;> rw [hop] <;> rfl

/-- Sixteen bytes are the bytes of the telemetry item they decode to, the pad among them (R48). -/
theorem encodeItem_decodeTlm {bs : List Byte} (h : bs.length = Config.tlmFrameLen) :
    encodeItem (decodeTlm bs) = bs := by
  match bs, h with
  | [b0, b1, b2, b3, b4, b5, b6, b7, b8, b9, b10, b11, b12, b13, b14, b15], _ =>
    have hlat := byteOf_word b0 b1 b2 b3
    have hlon := byteOf_word b4 b5 b6 b7
    have hdec : decodeTlm [b0, b1, b2, b3, b4, b5, b6, b7, b8, b9, b10, b11, b12, b13, b14, b15] =
      .tlm (word b0 b1 b2 b3) (word b4 b5 b6 b7) (half b8 b9) (half b10 b11) (half b12 b13) (half b14 b15) := rfl
    simp only [hdec, encodeItem_tlm, hlat, hlon, byteOf_half]

/-- Settles O2: by the three forms the decoder tells apart by length (R56). -/
theorem encodeInvertsDecode : Obligations.EncodeInvertsDecode := by
  intro bs i h
  unfold decodeItem at h
  split at h
  · exact encodeItem_of_decodeByte h
  · exact encodeItem_of_decodeCommand h
  · split at h <;> cases h
    exact encodeItem_decodeTlm ‹_›

/-- Settles O3: each word is decoded by evaluation. -/
theorem sampleWordsDecode : Obligations.SampleWordsDecode := by
  exact ⟨rfl, rfl, rfl, rfl, rfl, rfl, rfl, rfl, rfl⟩

/-- An opcode from 3 up is reserved (R51, R55). -/
theorem decodeCommand_of_reserved {op : Byte} (ps1 ps2 ps3 ps4 : Byte) (h : 3 ≤ op.toNat) :
    decodeCommand op ps1 ps2 ps3 ps4 = .error (.reservedOpcode op) := by
  have hne : ∀ n : Byte, n.toNat < 3 → op ≠ n := by
    rintro n hn rfl
    omega
  rw [decodeCommand, if_neg (hne _ (by decide)), if_neg (hne _ (by decide)), if_neg (hne _ (by decide))]

/-- A byte above the request codes that is no legal control word is no item (R52, R55). -/
theorem decodeByte_of_illegal {b : Byte} (h : 4 ≤ b.toNat) (hb : legalControlWord b = false) :
    decodeByte b = .error (.illegalControlWord b) := by
  have hne : ∀ n : Byte, n.toNat < 4 → b ≠ n := by
    rintro n hn rfl
    omega
  rw [decodeByte, if_neg (hne _ (by decide)), if_neg (hne _ (by decide)), if_neg (hne _ (by decide)),
    if_neg (hne _ (by decide)), if_neg (Bool.eq_false_iff.1 hb)]

/-- Settles O4: one clause for each format's test, and the other lengths (R55, R56). -/
theorem reservedEncodingsAreNoItem : Obligations.ReservedEncodingsAreNoItem := by
  refine ⟨fun op ps1 ps2 ps3 ps4 h => decodeCommand_of_reserved ps1 ps2 ps3 ps4 h, fun b h hbits => ?word,
    fun bs h1 h5 h16 => ?length⟩
  case word =>
    refine decodeByte_of_illegal h ?_
    rcases hbits with h5 | h7
    · rw [legalControlWord, h5, Bool.false_and]
    · rw [legalControlWord, h7, Bool.not_true, Bool.and_false]
  case length => rw [decodeItem_of_length h1 h5, if_neg h16]

end Sys2Proof.Machine

/-! ## The format rows and the frame they present (30_encoding.md R48 to R52, R57, R58; settles O28 to O30 and O37) -/

namespace Sys2Proof.Machine

/-- A byte of a presented frame, read back (R57). -/
theorem memRead_frame (m : List Host.Cell) (f : List Byte) {a : Nat} (ha : a < f.length) :
    memRead (memWriteBytes m 0 f) a = f[a]? := by
  rw [memRead_memWriteBytes, if_pos ⟨Nat.zero_le a, by omega⟩, Nat.sub_zero]

/-- A byte above a presented frame is what it was (R57). -/
theorem memRead_above_frame (m : List Host.Cell) (f : List Byte) {a : Nat} (ha : f.length ≤ a) :
    memRead (memWriteBytes m 0 f) a = memRead m a := by
  rw [memRead_memWriteBytes, if_neg (by omega)]

/-- Settles O28: the three frames are one packet to send, with their own opcode (R51). -/
theorem commandFramesAreSent : Obligations.CommandFramesAreSent := by
  intro s ps1 ps2 ps3 ps4 op i hi
  have hexec : exec i s = sendPacket op ps1 ps2 ps3 ps4 s := by
    rcases hi with ⟨rfl, rfl⟩ | ⟨rfl, rfl⟩ | ⟨rfl, rfl⟩ <;> rfl
  obtain ⟨hpsq, htx, htlm, hill, herr, h7⟩ := flags_statusDone_tx s.block.status
  refine ⟨_, _, hexec.trans (sendPacket_eq op ps1 ps2 ps3 ps4 s), memReadBytes_memWriteBytes _ 0 _,
    fun a ha => memRead_above_frame _ _ ha, htx, herr, hpsq, htlm, hill, h7⟩

/-- The block with a frame presented (R57). -/
def withFrame (f : List Byte) (b : Block) : Block :=
  { b with rxbuf := memWriteBytes b.rxbuf 0 f, rxLen := some (BitVec.ofNat 8 f.length) }

/-- A frame that fits is presented (R32, R57). -/
theorem hostRxFrame_of_fits {f : List Byte} (s : State) (h : f.length ≤ Config.rxMax) :
    hostRxFrame f s = .next (setBlock (withFrame f s.block) s) := if_pos h

/-- Settles O37: `RX_LEN` counts every frame that fits, since `RX_MAX` is at most 255 (log 3). -/
theorem rxFrameWritesTheFrame : Obligations.RxFrameWritesTheFrame := by
  refine fun s f => ⟨fun h => ⟨_, _, hostRxFrame_of_fits s h, ?_, fun a => memRead_frame _ f,
    fun a => memRead_above_frame _ f⟩, fun h => if_neg (Nat.not_le.2 h)⟩
  have hmax := rxMax_bounds.2
  rw [BitVec.toNat_ofNat]
  omega

/-- `DECODE` of the frame of a telemetry item reads back the item's fields (R82, R88). -/
theorem execDecode_of_tlm {s : State} {lat lon : Word} {mx my mz pad : Half} {f : List Byte}
    (hf : f = encodeItem (.tlm lat lon mx my mz pad)) (hn : s.block.rxLen = some 16)
    (h : ∀ a, a < 16 → memRead s.block.rxbuf a = f[a]?) :
    execDecode s = .next (setBlock { s.block with
      tlmLat := some lat, tlmLon := some lon, tlmMx := some mx, tlmMy := some my, tlmMz := some mz
      status := statusDone tlmValidBit s.block.status } s) := by
  have hlen : f.length = 16 := hf ▸ Laws.EncodedLength.tlm lat lon mx my mz pad
  have hread : ∀ a, a < 16 → memRead s.block.rxbuf a = some (byteAt f a) := by
    intro a ha
    have ha' : a < f.length := by omega
    rw [h a ha, byteAt, List.getElem?_eq_getElem ha', List.getElem_eq_getD]
  rw [execDecode_of_frame hn rfl fun a ha => Option.isSome_of_eq_some (hread a ha),
    tdecDone_of_bytes _ fun a ha => hread a (by omega)]
  simp [hf, encodeItem_tlm, byteAt, word_bytes, half_bytes]

/-- Settles O29: the frame is presented, decoded to its own fields, and `STATUS` is read (R58). -/
theorem telemetryFrameIsReceived : Obligations.TelemetryFrameIsReceived := by
  intro s lat lon mx my mz pad
  have hlen : (encodeItem (.tlm lat lon mx my mz pad)).length = 16 :=
    Laws.EncodedLength.tlm lat lon mx my mz pad
  simp only [exec, execTlm]
  generalize hf : encodeItem (.tlm lat lon mx my mz pad) = f at hlen ⊢
  have hframe : withFrame f s.block = { s.block with rxbuf := memWriteBytes s.block.rxbuf 0 f, rxLen := some 16 } := by
    rw [withFrame, hlen]
    rfl
  have hread : memReadBytes (memWriteBytes s.block.rxbuf 0 f) 0 16 = some f := hlen ▸ memReadBytes_memWriteBytes _ 0 f
  have hdec := execDecode_of_tlm (s := setBlock (withFrame f s.block) s) hf.symm (by rw [hframe]; rfl)
    fun a ha => memRead_frame _ f (by omega)
  obtain ⟨hpsq, htx, htlm, hill, herr, h7⟩ := flags_statusDone_tlm s.block.status
  refine ⟨_, _, ?_, hread, fun a ha => memRead_above_frame _ f (by omega), htlm, herr, hpsq, htx, hill, h7⟩
  rw [hostRxFrame_of_fits s (hlen.trans_le tlmFrame_fits), andThen_next, hdec, hframe]
  rfl

/-- The degree of a code scales to the code exactly (R61). -/
theorem scaled_degreeOfCode (c : BitVec 6) : scaled (degreeOfCode c) = (c.toNat : Rat) := by
  simp only [scaled, degreeOfCode, Config.maxPsDegVal, Config.maxPsBitVal, Rat.mkRat_eq_div]
  push_cast
  field_simp

/-- The degree of a code is in the domain (R60). -/
theorem inDomain_degreeOfCode (c : BitVec 6) : InDomain (degreeOfCode c) := by
  have hc : (c.toNat : Rat) ≤ 63 := by exact_mod_cast Nat.le_of_lt_succ c.isLt
  have h0 : (0 : Rat) ≤ c.toNat := c.toNat.cast_nonneg
  have h := scaled_degreeOfCode c
  simp only [scaled, Config.maxPsDegVal, Config.maxPsBitVal] at h
  simp only [InDomain, Config.maxPsDegVal]
  push_cast at h ⊢
  constructor <;> linarith

/-- The degree of a code is quantized to the code: it is no tie (R61, R62). -/
theorem quantize_degreeOfCode (c : BitVec 6) : quantize (degreeOfCode c) = c.toNat := by
  refine (quantize_nearest (degreeOfCode c)).unique ?_
  rw [scaled_degreeOfCode, NearestEven]
  push_cast
  exact ⟨by linarith, by linarith, fun h => absurd h (by linarith), fun h => absurd h (by linarith)⟩

/-- The degree of a code gives the code's control word (R64, R65). -/
theorem quantizeAndMap_degreeOfCode (c : BitVec 6) : quantizeAndMap (degreeOfCode c) = wordOfCode c := by
  rw [quantizeAndMap, codeBits, quantize_degreeOfCode, BitVec.ofInt_natCast, BitVec.ofNat_toNat, BitVec.setWidth_eq,
    controlWord_eq_wordOfCode]

/-- Settles O30: the degree is written, `QMAP` gives the code's own word, and the valid word is read back (R58). -/
theorem controlWordIsProduced : Obligations.ControlWordIsProduced := by
  intro s c
  obtain ⟨hpsq, htx, htlm, hill, herr, h7⟩ := flags_statusDone_psq s.block.status
  refine ⟨scaled_degreeOfCode c, statusDone psqValidBit s.block.status, ?_, hpsq, herr, htx, htlm, hill, h7⟩
  rw [exec, execPsw, hostWrite, andThen_next,
    execQmap_of_domain rfl rfl ((inDegDomain_iff _).2 (inDomain_degreeOfCode c)), andThen_next, hostRead]
  simp [psqDone, readable, regValue, hpsq, quantizeAndMap_degreeOfCode, setBlock, setReadData]

end Sys2Proof.Machine

/-! ## The control word: remap, inverse and arithmetic (40_psq.md R64 to R66, R72, R73; settles O14 to O16) -/

namespace Sys2Proof.Machine

/-- Setting a flag sets its own bit and no other. -/
theorem getLsbD_setFlag (j : Nat) (m : Byte) {k : Nat} (hk : k < 8) :
    (setFlag j m).getLsbD k = (m.getLsbD k || k == j) := by
  rw [setFlag, BitVec.getLsbD_or, ← BitVec.twoPow_eq, BitVec.getLsbD_twoPow]
  by_cases h : k = j
  · subst h
    simp [hk]
  · simp [h, Ne.symm h]

/-- A bit of the remapped word is 1 exactly when it was before or a code bit that is 1 is sent there (R64). -/
theorem getLsbD_remapFrom (c : BitVec 6) (i : Nat) (map : List Nat) (m : Byte) {k : Nat} (hk : k < 8) :
    (remapFrom c i map m).getLsbD k = (m.getLsbD k || (map.zipIdx i).any fun p => k == p.1 && c.getLsbD p.2) := by
  induction map generalizing i m with
  | nil => simp [remapFrom]
  | cons j rest ih =>
    rw [remapFrom, ih, List.zipIdx_cons, List.any_cons, ← Bool.or_assoc]
    congr 1
    cases hc : c.getLsbD i
    · simp
    · simp [getLsbD_setFlag j m hk]

/-- Settles O14: each of the eight bits is the code bit the map sends there, if any (R64, R65). -/
theorem remapSetsTheMappedBits : Obligations.RemapSetsTheMappedBits := by
  intro c
  refine ⟨_, rfl, ?_, ?_, ?_, ?_, ?_, ?_, ?_, ?_, rfl⟩
  all_goals
    rw [getLsbD_remapFrom c 0 _ 0 (by decide)]
    simp [List.zipIdx_cons]

/-- The code bits at their places in the word, checked at each of the 256 bytes (R72). -/
theorem getLsbD_codeOfWord : ∀ w : Byte,
    (codeOfWord w).getLsbD 0 = w.getLsbD 2 ∧ (codeOfWord w).getLsbD 1 = w.getLsbD 6
      ∧ (codeOfWord w).getLsbD 2 = w.getLsbD 3 ∧ (codeOfWord w).getLsbD 3 = w.getLsbD 4
      ∧ (codeOfWord w).getLsbD 4 = w.getLsbD 0 ∧ (codeOfWord w).getLsbD 5 = w.getLsbD 1 := by decide

/-- The code is recovered from the word the remap loop makes of it, so distinct codes have distinct words (R72). -/
theorem codeOfWord_controlWord (c : BitVec 6) : codeOfWord (controlWord c) = c := by
  rw [controlWord_eq_wordOfCode, codeOfWord_wordOfCode]

/-- Settles O15: reading the code and making its word are inverse to each other (R72). -/
theorem remapIsInvertible : Obligations.RemapIsInvertible := by
  refine ⟨fun w h5 h7 => ⟨?_, getLsbD_codeOfWord w⟩, fun c e h => ?_⟩
  · have hlegal : legalControlWord w = true := by rw [legalControlWord, h5, h7]; rfl
    rw [controlWord_eq_wordOfCode, wordOfCode_codeOfWord w hlegal]
  · rw [← codeOfWord_controlWord c, h, codeOfWord_controlWord]

/-- The word as the sum of its weighted bits, checked at each of the 64 codes (R73). -/
theorem controlWord_toNat : ∀ c : BitVec 6, (controlWord c).toNat = wordSum c := by decide

/-- The weights of the six code bits add up to 0x5F (R66, R73). -/
theorem wordSum_bounds (c : BitVec 6) : 0x20 ≤ wordSum c ∧ wordSum c ≤ 0x7F := by
  have h (i : Nat) : codeBit c i ≤ 1 := Bool.toNat_le _
  have := h 0
  have := h 1
  have := h 2
  have := h 3
  have := h 4
  have := h 5
  unfold wordSum
  omega

/-- Settles O16. -/
theorem controlWordArithmetic : Obligations.ControlWordArithmetic := by
  intro c
  have hlegal : legalControlWord (controlWord c) = true := by rw [controlWord_eq_wordOfCode, legal_wordOfCode]
  obtain ⟨h5, h7⟩ : (controlWord c).getLsbD 5 = true ∧ (controlWord c).getLsbD 7 = false := by
    simpa [legalControlWord] using hlegal
  refine ⟨controlWord_toNat c, h5, h7, ?_⟩
  rw [controlWord_toNat]
  exact wordSum_bounds c

end Sys2Proof.Machine

/-! ## The quantized code: order, tie points, intervals and the closed form (40_psq.md R61 to R63, R69 to R71; settles
O9 to O13) -/

namespace Sys2Proof.Machine

/-- A number is the code exactly when it is the integer nearest to the scaled value, ties to even (R61, R62). -/
theorem quantize_eq_iff {d : Rat} {k : Int} : quantize d = k ↔ NearestEven (scaled d) k :=
  ⟨fun h => h ▸ quantize_nearest d, (quantize_nearest d).unique⟩

/-- Scaling keeps the order (R61). -/
theorem scaled_strictMono : StrictMono scaled := by
  intro d e h
  simp only [scaled, Config.maxPsBitVal, Config.maxPsDegVal]
  push_cast
  linarith

/-- A tie point scales to the middle between its code and the next (R69). -/
theorem scaled_tiePoint (k : Int) : scaled (tiePoint k) = k + 1 / 2 := by
  simp only [scaled, tiePoint, Config.maxPsBitVal, Config.maxPsDegVal]
  push_cast
  ring

/-- The middle below a code is the tie point before it (R69). -/
theorem scaled_tiePoint_pred (k : Int) : scaled (tiePoint (k - 1)) = k - 1 / 2 := by
  rw [scaled_tiePoint]
  push_cast
  ring

/-- The domain scales to `[0, 63]` (R61). -/
theorem scaled_mem {d : Rat} (h : InDomain d) : 0 ≤ scaled d ∧ scaled d ≤ 63 := by
  obtain ⟨h0, h1⟩ := h
  simp only [scaled, Config.maxPsBitVal, Config.maxPsDegVal] at h1 ⊢
  push_cast at h1 ⊢
  constructor <;> linarith

/-- A larger value has no smaller nearest integer. -/
theorem NearestEven.mono {x y : Rat} {k l : Int} (hk : NearestEven x k) (hl : NearestEven y l) (h : x ≤ y) : k ≤ l := by
  rcases h.eq_or_lt with rfl | h
  · exact (hk.unique hl).le
  · obtain ⟨-, hkx, -, -⟩ := hk
    obtain ⟨hyl, -, -, -⟩ := hl
    have hlt : (k : Rat) < ((l + 1 : Int) : Rat) := by
      push_cast
      linarith
    exact Int.lt_add_one_iff.1 (by exact_mod_cast hlt)

/-- A larger degree never gets a smaller code, inside the domain or not. -/
theorem quantize_mono : Monotone quantize := fun d e h =>
  (quantize_nearest d).mono (quantize_nearest e) (scaled_strictMono.monotone h)

/-- Settles O13. -/
theorem quantizerIsMonotone : Obligations.QuantizerIsMonotone := fun _ _ _ _ h => quantize_mono h

/-- The code is `k` exactly from one tie point to the next, each end included when `k` is even (R70). -/
theorem quantize_eq_iff_between {d : Rat} {k : Int} :
    quantize d = k ↔ tiePoint (k - 1) ≤ d ∧ d ≤ tiePoint k ∧ (d = tiePoint (k - 1) ∨ d = tiePoint k → k % 2 = 0) := by
  rw [quantize_eq_iff, ← scaled_strictMono.le_iff_le (a := tiePoint (k - 1)),
    ← scaled_strictMono.le_iff_le (b := tiePoint k), ← scaled_strictMono.injective.eq_iff (b := tiePoint (k - 1)),
    ← scaled_strictMono.injective.eq_iff (b := tiePoint k), scaled_tiePoint_pred, scaled_tiePoint]
  unfold NearestEven
  constructor
  · rintro ⟨h1, h2, h3, h4⟩
    refine ⟨by linarith, by linarith, ?_⟩
    rintro (h | h)
    · exact h4 (by linarith)
    · exact h3 (by linarith)
  · rintro ⟨h1, h2, h3⟩
    exact ⟨by linarith, by linarith, fun h => h3 (.inr (by linarith)), fun h => h3 (.inl (by linarith))⟩

/-- The tie points rise with the code. -/
theorem tiePoint_pred_lt (k : Int) : tiePoint (k - 1) < tiePoint k := by
  rw [← scaled_strictMono.lt_iff_lt, scaled_tiePoint_pred, scaled_tiePoint]
  linarith

/-- The code is `k` strictly between the tie points around `k`, and at each of them when `k` is even (R70). -/
theorem quantize_eq_iff_interval {d : Rat} {k : Int} :
    quantize d = k ↔
      (tiePoint (k - 1) < d ∧ d < tiePoint k) ∨ (d = tiePoint (k - 1) ∧ k % 2 = 0) ∨ (d = tiePoint k ∧ k % 2 = 0) := by
  have hlt := tiePoint_pred_lt k
  rw [quantize_eq_iff_between]
  constructor
  · rintro ⟨hlo, hhi, heven⟩
    rcases hlo.eq_or_lt with h | hlo
    · exact .inr (.inl ⟨h.symm, heven (.inl h.symm)⟩)
    · rcases hhi.eq_or_lt with h | hhi
      · exact .inr (.inr ⟨h, heven (.inr h)⟩)
      · exact .inl ⟨hlo, hhi⟩
  · rintro (⟨hlo, hhi⟩ | ⟨rfl, heven⟩ | ⟨rfl, heven⟩)
    · exact ⟨hlo.le, hhi.le, fun h => (h.elim hlo.ne' hhi.ne).elim⟩
    · exact ⟨le_rfl, hlt.le, fun _ => heven⟩
    · exact ⟨hlt.le, le_rfl, fun _ => heven⟩

/-- Settles O10: the law holds for every degree and every integer, inside the domain or not. -/
theorem quantizedCodeIntervals : Obligations.QuantizedCodeIntervals := fun _ _ _ _ _ => quantize_eq_iff_interval

/-- The code of a degree in the domain fits in six bits (R63). -/
theorem quantize_mem {d : Rat} (h : InDomain d) : 0 ≤ quantize d ∧ quantize d ≤ 63 :=
  ⟨quantize_mono (a := 0) h.1, quantize_mono (b := 353) h.2⟩

/-- Settles O9: the end codes are 0 and 63, and their intervals are cut off by the domain (R63, R70). -/
theorem quantizedCodeRange : Obligations.QuantizedCodeRange := by
  intro d h
  obtain ⟨h0, h63⟩ := quantize_mem h
  obtain ⟨hd0, hd353⟩ := h
  simp only [Config.maxPsDegVal] at hd353
  push_cast at hd353
  refine ⟨h0, h63, ?bits, ?zero, ?top⟩
  case bits =>
    rw [codeBits, BitVec.toNat_ofInt]
    omega
  case zero =>
    rw [quantize_eq_iff_between]
    simp only [tiePoint]
    push_cast
    constructor
    · rintro ⟨-, hhi, -⟩
      exact lt_or_eq_of_le (by linarith)
    · intro hhi
      have hle : d ≤ 353 / 126 := le_of_lt_or_eq hhi
      exact ⟨by linarith, by linarith, fun _ => trivial⟩
  case top =>
    rw [quantize_eq_iff_interval]
    simp only [tiePoint]
    push_cast
    constructor
    · rintro (⟨hlo, -⟩ | ⟨-, hodd⟩ | ⟨-, hodd⟩)
      · linarith
      · exact absurd hodd (by decide)
      · exact absurd hodd (by decide)
    · exact fun hlo => .inl ⟨by linarith, by linarith⟩

/-- A value lies half-way above an integer exactly when that integer is its floor and the rest is 1/2. -/
theorem sub_floor_eq_half_iff (x : Rat) : x - x.floor = 1 / 2 ↔ ∃ k : Int, x = k + 1 / 2 := by
  constructor
  · exact fun h => ⟨x.floor, by linarith⟩
  · rintro ⟨k, rfl⟩
    have hle : k ≤ Rat.floor ((k : Rat) + 1 / 2) := Rat.le_floor_iff.2 (by linarith)
    have hlt : Rat.floor ((k : Rat) + 1 / 2) < k + 1 := Rat.floor_lt_iff.2 (by push_cast; linarith)
    rw [show Rat.floor ((k : Rat) + 1 / 2) = k by omega]
    ring

/-- The integer nearest to the middle above `k` is the even one of `k` and `k + 1` (R62). -/
theorem nearestEven_half (k : Int) : NearestEven ((k : Rat) + 1 / 2) (if k % 2 = 0 then k else k + 1) := by
  unfold NearestEven
  split <;> push_cast
  · exact ⟨by linarith, by linarith, fun _ => ‹_›, fun _ => ‹_›⟩
  · exact ⟨by linarith, by linarith, fun _ => by omega, fun _ => by omega⟩

/-- Settles O11: the tie points are the values that scale to a middle, 63 of them in the domain (R69). -/
theorem tiesGoToTheEvenCode : Obligations.TiesGoToTheEvenCode := by
  refine ⟨fun d h => ?_, fun k _ _ => ?_⟩
  · obtain ⟨h0, h63⟩ := scaled_mem h
    rw [sub_floor_eq_half_iff]
    refine exists_congr fun k => ?_
    rw [← scaled_tiePoint, scaled_strictMono.injective.eq_iff]
    refine ⟨fun hd => ⟨?_, ?_, hd⟩, fun ⟨_, _, hd⟩ => hd⟩
    all_goals
      rw [hd, scaled_tiePoint] at h0 h63
    · have hk : ((-1 : Int) : Rat) < k := by push_cast; linarith
      exact Int.lt_iff_add_one_le.1 (by exact_mod_cast hk)
    · have hk : (k : Rat) < ((63 : Int) : Rat) := by push_cast; linarith
      exact Int.lt_add_one_iff.1 (by exact_mod_cast hk)
  · rw [quantize_eq_iff, scaled_tiePoint]
    exact nearestEven_half k

/-- The integer nearest to a fraction less 1/2 is the quotient, less one when the division is exact and the quotient is
odd: then the value is a tie (R71). -/
theorem nearestEven_of_fraction {x : Rat} {n m : Int} (hm : 0 < m) (hx : x + 1 / 2 = n / m) :
    NearestEven x (if n % m = 0 ∧ (n / m) % 2 ≠ 0 then n / m - 1 else n / m) := by
  have hmq : (0 : Rat) < m := by exact_mod_cast hm
  have hr0 : (0 : Rat) ≤ ((n % m : Int) : Rat) := by exact_mod_cast Int.emod_nonneg n hm.ne'
  have hrm : ((n % m : Int) : Rat) < m := by exact_mod_cast Int.emod_lt_of_pos n hm
  have hsplit : x + 1 / 2 = ((n / m : Int) : Rat) + ((n % m : Int) : Rat) / m := by
    rw [hx, div_eq_iff hmq.ne', add_mul, div_mul_cancel₀ _ hmq.ne', mul_comm]
    exact_mod_cast (Int.mul_ediv_add_emod n m).symm
  have hrest0 : 0 ≤ ((n % m : Int) : Rat) / m := div_nonneg hr0 hmq.le
  have hrest1 : ((n % m : Int) : Rat) / m < 1 := (div_lt_one hmq).2 hrm
  unfold NearestEven
  split
  case isTrue h =>
    obtain ⟨hexact, hodd⟩ := h
    rw [hexact, Int.cast_zero, zero_div] at hsplit
    push_cast
    exact ⟨by linarith, by linarith, fun _ => by omega, fun _ => by omega⟩
  case isFalse h =>
    refine ⟨by linarith, by linarith, fun hk => absurd hk (by linarith), fun hk => ?_⟩
    have hrest : ((n % m : Int) : Rat) / m = 0 := by linarith
    have hexact : n % m = 0 := by
      rw [div_eq_zero_iff, or_iff_left hmq.ne'] at hrest
      exact_mod_cast hrest
    exact not_not.1 fun hodd => h ⟨hexact, hodd⟩

/-- Settles O12: the fraction `N / D` is the scaled value plus 1/2 (R71). -/
theorem quantizerClosedForm : Obligations.QuantizerClosedForm := by
  intro d _
  have hden : (0 : Int) < d.den := by exact_mod_cast d.den_pos
  have hdenq : (d.den : Rat) ≠ 0 := by exact_mod_cast d.den_nz
  refine quantize_eq_iff.2 (nearestEven_of_fraction (by omega) ?_)
  rw [scaled_eq]
  simp only [Config.maxPsBitVal, Config.maxPsDegVal]
  push_cast
  field_simp
  ring

end Sys2Proof.Machine

/-! ## The request `QMAP`, and requests repeated (40_psq.md R67, R68; 41_cenc.md R77; 42_tdec.md R86; settles O7, O8 and
O32) -/

namespace Sys2Proof.Machine

/-- The machine rounds the fraction as the spec rounds the rational (R62). -/
theorem quantize_eq_roundHalfEven (d : Rat) : quantize d = roundHalfEven (scaled d) :=
  quantize_eq_iff.2 (roundHalfEven_nearest _)

/-- Settles O7: the word written is the control word of the rounded scaled value (R67). -/
theorem qmapWritesTheExactControlWord : Obligations.QmapWritesTheExactControlWord := by
  intro s w d hw hd hdom
  obtain ⟨hpsq, htx, htlm, hill, herr, h7⟩ := flags_statusDone_psq s.block.status
  refine ⟨statusDone psqValidBit s.block.status, ?_, hpsq, herr, htx, htlm, hill, h7⟩
  rw [exec, execQmap_of_domain hw hd ((inDegDomain_iff d).2 hdom), ← quantize_eq_roundHalfEven,
    ← controlWord_eq_wordOfCode]
  rfl

/-- Settles O8: the machine's test is the domain (R60, R68). -/
theorem qmapRunsExactlyOnItsDomain : Obligations.QmapRunsExactlyOnItsDomain := by
  intro s
  constructor
  · rintro ⟨t, h⟩
    obtain ⟨w, d, hw, hd, hdom, -⟩ := execQmap_next h
    exact ⟨w, d, hw, hd, (inDegDomain_iff d).1 hdom⟩
  · rintro ⟨w, d, hw, hd, hdom⟩
    exact ⟨_, execQmap_of_domain hw hd ((inDegDomain_iff d).2 hdom)⟩

/-- A byte that is read is listed. -/
theorem mem_of_memRead {m : List Host.Cell} {a : Nat} {v : Byte} (h : memRead m a = some v) : (a, v) ∈ m := by
  induction m with
  | nil => cases h
  | cons c rest ih =>
    obtain ⟨x, b⟩ := c
    rw [memRead] at h
    split at h
    · rename_i hx
      cases h
      exact hx ▸ List.mem_cons_self
    · exact List.mem_cons_of_mem _ (ih h)

/-- Writing the byte that a canonical buffer holds changes nothing. -/
theorem memWrite_of_memRead {m : List Host.Cell} {a : Nat} {v : Byte} (hm : MemWf m) (h : memRead m a = some v) :
    memWrite m a v = m := by
  induction m with
  | nil => cases h
  | cons c rest ih =>
    obtain ⟨x, b⟩ := c
    obtain ⟨hx, hrest⟩ := List.pairwise_cons.1 hm
    rw [memRead] at h
    split at h
    · rename_i hxa
      cases h
      simp [memWrite, hxa]
    · have hlt : x < a := hx (a, v) (mem_of_memRead h)
      rw [memWrite, if_neg (by omega), if_neg (by omega), ih hrest h]

/-- Writing the bytes that a canonical buffer holds changes nothing. -/
theorem memWriteBytes_of_memRead {m : List Host.Cell} {a : Nat} {f : List Byte} (hm : MemWf m)
    (h : ∀ k, k < f.length → memRead m (a + k) = f[k]?) : memWriteBytes m a f = m := by
  induction f generalizing a with
  | nil => rfl
  | cons b bs ih =>
    have h0 : memRead m a = some b := by simpa using h 0 (by simp)
    rw [memWriteBytes, memWrite_of_memRead hm h0]
    refine ih fun k hk => ?_
    rw [Nat.add_assoc, Nat.add_comm 1 k, h (k + 1) (by simpa using hk), List.getElem?_cons_succ]

/-- A frame written again into a canonical buffer changes nothing (R77). -/
theorem memWriteBytes_again {m : List Host.Cell} (hm : MemWf m) (f : List Byte) :
    memWriteBytes (memWriteBytes m 0 f) 0 f = memWriteBytes m 0 f := by
  refine memWriteBytes_of_memRead (memWriteBytes_wf hm 0 f) fun k hk => ?_
  rw [Nat.zero_add, memRead_frame m f hk]

/-- Validating a result again leaves `STATUS` as it is (R22). -/
theorem statusDone_again : ∀ st : Byte,
    statusDone psqValidBit (statusDone psqValidBit st) = statusDone psqValidBit st
      ∧ statusDone txValidBit (statusDone txValidBit st) = statusDone txValidBit st
      ∧ statusDone tlmValidBit (statusDone tlmValidBit st) = statusDone tlmValidBit st := by decide

/-- Raising `MalformedFrame` again leaves `STATUS` as it is (R119). -/
theorem statusError_malformed_again : ∀ st : Byte,
    statusError .malformedFrame (statusError .malformedFrame st) = statusError .malformedFrame st := by decide

/-- `QMAP` repeated: it does not change `PSQ_DEG` (R67). -/
theorem execQmap_repeats {s t : State} (h : execQmap s = .next t) : execQmap t = .next t := by
  obtain ⟨w, d, hw, hd, hdom, rfl⟩ := execQmap_next h
  obtain ⟨hst, -, -⟩ := statusDone_again s.block.status
  rw [execQmap_of_domain (s := psqDone d s) hw hd hdom]
  simp [psqDone, hst]

/-- `ENCODE` repeated: it does not change its operands, and TXBUF already holds the frame (R77). -/
theorem execEncode_repeats {s t : State} (hwf : MemWf s.block.txbuf) (h : execEncode s = .next t) :
    execEncode t = .next t := by
  obtain ⟨op, ps1, ps2, ps3, ps4, h0, h1, h2, h3, h4, rfl⟩ := execEncode_next h
  obtain ⟨-, hst, -⟩ := statusDone_again s.block.status
  simp [execEncode, cencDone, h0, h1, h2, h3, h4, hst, memWriteBytes_again hwf]

/-- `DECODE` repeated, with either outcome: it does not change `RX_LEN` or RXBUF (R86, R87). -/
theorem execDecode_repeats {s t : State} (h : execDecode s = .next t) : execDecode t = .next t := by
  obtain ⟨n, hn, hmax, ⟨hlen, rfl⟩ | ⟨hlen, hfull, rfl⟩⟩ := execDecode_next h
  · rw [execDecode_of_length (s := raiseError .malformedFrame s) hn hmax hlen]
    simp [raiseError, statusError_malformed_again]
  · obtain ⟨-, -, hst⟩ := statusDone_again s.block.status
    have hheld (a : Nat) (ha : a < Config.tlmFrameLen) : (memRead s.block.rxbuf a).isSome :=
      firstMissing_eq_none.1 hfull a (Nat.zero_le a) (by omega)
    rw [execDecode_of_frame (s := tdecDone s) hn hlen hheld]
    simp [tdecDone, hst]

/-- Settles O32: no request changes its own operands, and what it writes is there already (R67, R77, R86). -/
theorem requestsRepeat : Obligations.RequestsRepeat := by
  rintro s t i (rfl | rfl | rfl) hwf h
  · exact execQmap_repeats h
  · exact execEncode_repeats hwf h
  · exact execDecode_repeats h

end Sys2Proof.Machine

/-! ## The command frame that `ENCODE` writes (41_cenc.md R76 to R79; settles O17 to O19) -/

namespace Sys2Proof.Machine

/-- `ENCODE` with its five operands written (R77). -/
theorem execEncode_of_written {s : State} {op ps1 ps2 ps3 ps4 : Byte} (h0 : s.block.cmdOpcode = some op)
    (h1 : s.block.cmdPs1 = some ps1) (h2 : s.block.cmdPs2 = some ps2) (h3 : s.block.cmdPs3 = some ps3)
    (h4 : s.block.cmdPs4 = some ps4) : execEncode s = .next (cencDone op ps1 ps2 ps3 ps4 s) := by
  simp only [execEncode, h0, h1, h2, h3, h4, needs_some]

/-- Two frames of one length that are read back the same are the same. -/
theorem eq_of_memRead_frame_eq {m m' : List Host.Cell} {f f' : List Byte} (hlen : f.length = f'.length)
    (h : ∀ a, a < f.length → memRead (memWriteBytes m 0 f) a = memRead (memWriteBytes m' 0 f') a) : f = f' := by
  refine List.ext_getElem hlen fun a ha ha' => Option.some.inj ?_
  rw [← List.getElem?_eq_getElem ha, ← List.getElem?_eq_getElem ha', ← memRead_frame m f ha,
    ← memRead_frame m' f' ha', h a ha]

/-- Settles O17: the five bytes are those of the frame, and the flags are those of a valid TXBUF (R76, R77). -/
theorem encodeCopiesTheFiveOperands : Obligations.EncodeCopiesTheFiveOperands := by
  intro s op ps1 ps2 ps3 ps4 h0 h1 h2 h3 h4
  have hbyte (a : Nat) (ha : a < 5) :
      memRead (memWriteBytes s.block.txbuf 0 (encodeCommand op ps1 ps2 ps3 ps4)) a
        = (encodeCommand op ps1 ps2 ps3 ps4)[a]? := memRead_frame _ _ ha
  obtain ⟨hpsq, htx, htlm, hill, herr, h7⟩ := flags_statusDone_tx s.block.status
  exact ⟨_, _, execEncode_of_written h0 h1 h2 h3 h4, hbyte 0 (by decide), hbyte 1 (by decide), hbyte 2 (by decide),
    hbyte 3 (by decide), hbyte 4 (by decide), fun a ha => memRead_above_frame _ _ ha, htx, herr, hpsq, htlm, hill, h7⟩

/-- Settles O18: the five reads are the only tests of an `ENCODE` (R77, R78). -/
theorem encodeRunsExactlyOnWrittenOperands : Obligations.EncodeRunsExactlyOnWrittenOperands := by
  intro s
  simp only [Option.isSome_iff_exists]
  constructor
  · rintro ⟨t, h⟩
    obtain ⟨op, ps1, ps2, ps3, ps4, h0, h1, h2, h3, h4, -⟩ := execEncode_next h
    exact ⟨⟨op, h0⟩, ⟨ps1, h1⟩, ⟨ps2, h2⟩, ⟨ps3, h3⟩, ⟨ps4, h4⟩⟩
  · rintro ⟨⟨op, h0⟩, ⟨ps1, h1⟩, ⟨ps2, h2⟩, ⟨ps3, h3⟩, ⟨ps4, h4⟩⟩
    exact ⟨_, execEncode_of_written h0 h1 h2 h3 h4⟩

/-- Settles O19: TXBUF holds the whole frame, and the frame lists the operands (R76, R79). -/
theorem encodeIsInjective : Obligations.EncodeIsInjective := by
  refine ⟨fun op ps1 ps2 ps3 ps4 => ⟨_, rfl, rfl, rfl, rfl, rfl, rfl, rfl⟩, ?_⟩
  intro s s' t t' h h' heq
  obtain ⟨op, ps1, ps2, ps3, ps4, h0, h1, h2, h3, h4, rfl⟩ := execEncode_next h
  obtain ⟨op', ps1', ps2', ps3', ps4', h0', h1', h2', h3', h4', rfl⟩ := execEncode_next h'
  have hframe : encodeCommand op ps1 ps2 ps3 ps4 = encodeCommand op' ps1' ps2' ps3' ps4' :=
    eq_of_memRead_frame_eq rfl heq
  cases hframe
  exact ⟨h0.trans h0'.symm, h1.trans h1'.symm, h2.trans h2'.symm, h3.trans h3'.symm, h4.trans h4'.symm⟩

end Sys2Proof.Machine

/-! ## The telemetry decoder (42_tdec.md R80 to R88; settles O21 to O25) -/

namespace Sys2Proof.Machine

/-! ### The fields of a frame -/

/-- The sum of two bytes, each at its own power of 256, is their word (R33, R35). -/
theorem ofNat_sum_two (b0 b1 : Byte) : BitVec.ofNat 16 (b0.toNat + 2 ^ 8 * b1.toNat) = half b0 b1 := by
  rw [← ofNat_littleEndian_two]
  rfl

/-- The sum of four bytes, each at its own power of 256, is their word (R33, R35). -/
theorem ofNat_sum_four (b0 b1 b2 b3 : Byte) :
    BitVec.ofNat 32 (b0.toNat + 2 ^ 8 * b1.toNat + 2 ^ 16 * b2.toNat + 2 ^ 24 * b3.toNat) = word b0 b1 b2 b3 := by
  rw [← ofNat_littleEndian_four]
  congr 1
  simp only [littleEndian]
  omega

/-- The five fields read back at their offsets from the bytes they fill (R48, R82). -/
theorem fieldsAt_tlmFields (lat lon : Word) (mx my mz : Half) :
    wordAt (tlmFields lat lon mx my mz) 0 = lat ∧ wordAt (tlmFields lat lon mx my mz) 4 = lon
      ∧ halfAt (tlmFields lat lon mx my mz) 8 = mx ∧ halfAt (tlmFields lat lon mx my mz) 10 = my
      ∧ halfAt (tlmFields lat lon mx my mz) 12 = mz :=
  ⟨word_bytes lat, word_bytes lon, half_bytes mx, half_bytes my, half_bytes mz⟩

/-- Equal bytes have equal fields (R88). -/
theorem tlmFields_inj {lat lat' lon lon' : Word} {mx mx' my my' mz mz' : Half} :
    tlmFields lat lon mx my mz = tlmFields lat' lon' mx' my' mz' ↔
      lat = lat' ∧ lon = lon' ∧ mx = mx' ∧ my = my' ∧ mz = mz' := by
  constructor
  · intro h
    obtain ⟨hlat, hlon, hmx, hmy, hmz⟩ := fieldsAt_tlmFields lat lon mx my mz
    obtain ⟨hlat', hlon', hmx', hmy', hmz'⟩ := fieldsAt_tlmFields lat' lon' mx' my' mz'
    rw [h] at hlat hlon hmx hmy hmz
    exact ⟨hlat.symm.trans hlat', hlon.symm.trans hlon', hmx.symm.trans hmx', hmy.symm.trans hmy',
      hmz.symm.trans hmz'⟩
  · rintro ⟨rfl, rfl, rfl, rfl, rfl⟩
    rfl

/-- The first 14 bytes of a telemetry frame are its five fields; the pad is what is left (R48). -/
theorem take_encodeItem_tlm (lat lon : Word) (mx my mz pad : Half) :
    (encodeItem (.tlm lat lon mx my mz pad)).take 14 = tlmFields lat lon mx my mz := rfl

/-- Every frame of 16 bytes is built from some five fields and some pad (R48). -/
theorem exists_tlm_of_length {f : List Byte} (h : f.length = 16) :
    ∃ lat lon mx my mz pad, f = encodeItem (.tlm lat lon mx my mz pad) :=
  ⟨_, _, _, _, _, _, (encodeItem_decodeTlm h).symm⟩

/-- A byte inside a frame is the byte at its offset. -/
theorem getElem?_eq_byteAt {f : List Byte} {a : Nat} (ha : a < f.length) : f[a]? = some (byteAt f a) := by
  rw [byteAt, List.getElem?_eq_getElem ha, List.getElem_eq_getD]

/-- `decode_telemetry` of a frame built from five fields gives those fields (R82, R88). -/
theorem decodeTelemetry_encodeItem (lat lon : Word) (mx my mz pad : Half) :
    decodeTelemetry (encodeItem (.tlm lat lon mx my mz pad)) = .ok ⟨lat, lon, mx, my, mz⟩ := by
  have hlen : (encodeItem (.tlm lat lon mx my mz pad)).length = 16 := Laws.EncodedLength.tlm lat lon mx my mz pad
  rw [decodeTelemetry_of_bytes hlen _ fun a ha => getElem?_eq_byteAt (by omega)]
  simp [encodeItem_tlm, byteAt, word_bytes, half_bytes]

/-! ### The request -/

/-- Settles O21: the good frame's next state, with each field's word as the sum of its bytes (R82 to R86). -/
theorem decodeExtractsTheFields : Obligations.DecodeExtractsTheFields := by
  intro s b hn hb
  obtain ⟨hpsq, htx, htlm, hill, herr, h7⟩ := flags_statusDone_tlm s.block.status
  refine ⟨statusDone tlmValidBit s.block.status, ?_, htlm, herr, hpsq, htx, hill, h7⟩
  rw [exec, execDecode_of_frame hn rfl fun a ha => Option.isSome_of_eq_some (hb a ha),
    tdecDone_of_bytes b fun a ha => hb a (by omega)]
  simp only [ofNat_sum_four, ofNat_sum_two, setBlock]

/-- Settles O22: the length alone decides, and the error writes `STATUS` only (R81, R87). -/
theorem malformedFrameWritesOnlyItsCode : Obligations.MalformedFrameWritesOnlyItsCode := by
  intro s n hn hmax hlen
  obtain ⟨hpsq, htx, htlm, hill, herr, h7⟩ := flags_statusError_malformed s.block.status
  exact ⟨_, execDecode_of_length hn hmax hlen, herr, hpsq, htx, htlm, hill, h7⟩

/-- Settles O23: the three tests of a `DECODE`, the last for a frame of 16 bytes only (R86, R124). -/
theorem decodeRunsExactlyOnAFrame : Obligations.DecodeRunsExactlyOnAFrame := by
  intro s
  constructor
  · rintro ⟨t, h⟩
    obtain ⟨n, hn, hmax, ⟨hlen, -⟩ | ⟨-, hfull, -⟩⟩ := execDecode_next h
    · exact ⟨n, hn, hmax, fun h16 => absurd h16 hlen⟩
    · exact ⟨n, hn, hmax, fun _ a ha => firstMissing_eq_none.1 hfull a (Nat.zero_le a) (by rwa [Nat.zero_add])⟩
  · rintro ⟨n, hn, hmax, hheld⟩
    by_cases hlen : n.toNat = 16
    · exact ⟨_, execDecode_of_frame hn hlen (hheld hlen)⟩
    · exact ⟨_, execDecode_of_length hn hmax hlen⟩

/-! ### A frame received and decoded -/

/-- `DECODE` after the frame of a telemetry item was received (R57, R82). -/
theorem execDecode_of_received {s s1 : State} {lat lon : Word} {mx my mz pad : Half}
    (h : hostRxFrame (encodeItem (.tlm lat lon mx my mz pad)) s = .next s1) :
    execDecode s1 = .next (setBlock { s1.block with
      tlmLat := some lat, tlmLon := some lon, tlmMx := some mx, tlmMy := some my, tlmMz := some mz
      status := statusDone tlmValidBit s1.block.status } s1) := by
  obtain ⟨-, rfl⟩ := hostRxFrame_next h
  have hlen : (encodeItem (.tlm lat lon mx my mz pad)).length = 16 := Laws.EncodedLength.tlm lat lon mx my mz pad
  refine execDecode_of_tlm rfl ?_ fun a ha => memRead_frame _ _ (by omega)
  simp [hlen]

/-- Settles O24: the packet is the first 14 bytes read as five fields, and the fields determine those bytes (R88). -/
theorem telemetryRoundTrip : Obligations.TelemetryRoundTrip := by
  refine ⟨fun s s1 lat lon mx my mz pad h => ⟨_, execDecode_of_received h, rfl, rfl, rfl, rfl, rfl⟩, ?_⟩
  intro s s1 s2 t1 t2 f g hf hg h1 h2 hd1 hd2
  obtain ⟨lat, lon, mx, my, mz, pad, rfl⟩ := exists_tlm_of_length hf
  obtain ⟨lat', lon', mx', my', mz', pad', rfl⟩ := exists_tlm_of_length hg
  cases (execDecode_of_received h1).symm.trans hd1
  cases (execDecode_of_received h2).symm.trans hd2
  simp only [setBlock_block, Option.some.injEq, take_encodeItem_tlm, tlmFields_inj]

/-- `RX_LEN` counts every frame that fits (R21, R32). -/
theorem toNat_ofNat_length {f : List Byte} (h : f.length ≤ Config.rxMax) :
    (BitVec.ofNat 8 f.length).toNat = f.length := by
  have hmax := rxMax_bounds.2
  rw [BitVec.toNat_ofNat, Nat.mod_eq_of_lt (by omega)]

/-- Settles O25: by the frame's length; 16 bytes are the frame of their own fields (R80 to R87). -/
theorem decodeRefinesDecodeTelemetry : Obligations.DecodeRefinesDecodeTelemetry := by
  intro s f hmax
  have hrx := hostRxFrame_of_fits s hmax
  by_cases hlen : f.length = 16
  · obtain ⟨lat, lon, mx, my, mz, pad, rfl⟩ := exists_tlm_of_length hlen
    obtain ⟨-, -, htlm, -, herr, -⟩ := flags_statusDone_tlm s.block.status
    refine ⟨_, _, hrx, execDecode_of_received hrx, fun p hp => ?_, fun e he => ?_⟩
    · cases (decodeTelemetry_encodeItem lat lon mx my mz pad).symm.trans hp
      exact ⟨rfl, rfl, rfl, rfl, rfl, htlm, herr⟩
    · cases (decodeTelemetry_encodeItem lat lon mx my mz pad).symm.trans he
  · obtain ⟨-, -, htlm, -, herr, -⟩ := flags_statusError_malformed s.block.status
    have hn := toNat_ofNat_length hmax
    refine ⟨_, _, hrx, execDecode_of_length rfl (hn.trans_le hmax) (hn.trans_ne hlen), fun p hp => ?_, fun e he => ?_⟩
    · cases (decodeTelemetry_of_length hlen).symm.trans hp
    · cases (decodeTelemetry_of_length hlen).symm.trans he
      exact ⟨rfl, herr, htlm⟩

end Sys2Proof.Machine

/-! ## The Command Assembler as one function, and its parsers (43_host_command_assembler.md R92 to R101; settles O52,
O54 and O55) -/

namespace Sys2Proof.Machine

/-! ### The outcomes of `assemble` -/

/-- The four effective values step 2 tests (R94, R95); none in an unrecognised mode or for an angle that does not
parse. -/
def effectiveDegrees (c : Console) : Option (Quad (Option Rat)) :=
  match c.mode with
  | .direct =>
    some ⟨parseNumber c.psStr.c1, parseNumber c.psStr.c2, parseNumber c.psStr.c3, parseNumber c.psStr.c4⟩
  | .beam => (parseInt c.angleStr).map fun a => degValues (beamDegrees a)
  | .other => none

/-- A bad opcode is an error whatever else (R93). -/
theorem assemble_of_badOpcode {c : Console} (h : opcodeOf (parseInt c.opcodeStr) = none) :
    assemble c = .error .invalidOpcode := by
  simp only [assemble, h]

/-- With a good opcode an unrecognised mode gives nothing (R96). -/
theorem assemble_of_other {c : Console} {op : Byte} (h : opcodeOf (parseInt c.opcodeStr) = some op)
    (hm : c.mode = .other) : assemble c = .nothing := by
  simp only [assemble, h, hm]

/-- The effective values of mode `DIRECT` are the numbers the four strings spell (R94). -/
theorem effectiveDegrees_direct {c : Console} (hm : c.mode = .direct) : effectiveDegrees c =
    some ⟨parseNumber c.psStr.c1, parseNumber c.psStr.c2, parseNumber c.psStr.c3, parseNumber c.psStr.c4⟩ := by
  simp only [effectiveDegrees, hm]

/-- The effective values of mode `BEAM` are those calculated from the angle, if it parses (R95). -/
theorem effectiveDegrees_beam {c : Console} (hm : c.mode = .beam) :
    effectiveDegrees c = (parseInt c.angleStr).map fun a => degValues (beamDegrees a) := by
  simp only [effectiveDegrees, hm]

/-- An unrecognised mode has no effective values (R96). -/
theorem effectiveDegrees_other {c : Console} (hm : c.mode = .other) : effectiveDegrees c = none := by
  simp only [effectiveDegrees, hm]

/-- With a good opcode and four effective values, step 2 decides (R97, R98). -/
theorem assemble_of_degrees {c : Console} {op : Byte} {d : Quad (Option Rat)}
    (h : opcodeOf (parseInt c.opcodeStr) = some op) (hd : effectiveDegrees c = some d) :
    assemble c = assembleDegrees op d := by
  cases hm : c.mode with
  | direct =>
    cases (effectiveDegrees_direct hm).symm.trans hd
    simp only [assemble, h, hm]
  | beam =>
    obtain ⟨a, ha, rfl⟩ := Option.map_eq_some_iff.1 ((effectiveDegrees_beam hm).symm.trans hd)
    exact assemble_beam hm h ha
  | other => cases (effectiveDegrees_other hm).symm.trans hd

/-- With a good opcode and no effective values there is no packet and no error (R95, R96). -/
theorem assemble_of_no_degrees {c : Console} {op : Byte} (h : opcodeOf (parseInt c.opcodeStr) = some op)
    (hd : effectiveDegrees c = none) : c.mode = .other ∧ assemble c = .nothing ∨ assemble c = .noMeaning := by
  cases hm : c.mode with
  | direct => cases (effectiveDegrees_direct hm).symm.trans hd
  | beam =>
    have ha := Option.map_eq_none_iff.1 ((effectiveDegrees_beam hm).symm.trans hd)
    exact .inr (by simp only [assemble, h, hm, ha])
  | other => exact .inl ⟨rfl, assemble_of_other h hm⟩

/-- The control words of four degrees (R98). -/
def controlWords (q : Quad Rat) : Quad Byte :=
  ⟨quantizeAndMap q.c1, quantizeAndMap q.c2, quantizeAndMap q.c3, quantizeAndMap q.c4⟩

/-- Four values that pass step 2 make a packet (R98). -/
theorem assembleDegrees_of_some {op : Byte} {d : Quad (Option Rat)} {q : Quad Rat} (h : allInRange d = some q) :
    assembleDegrees op d = .packet op (controlWords q) := by
  simp only [assembleDegrees, h, controlWords]

/-- Four values that do not pass step 2 are a range error (R97). -/
theorem assembleDegrees_of_none {op : Byte} {d : Quad (Option Rat)} (h : allInRange d = none) :
    assembleDegrees op d = .error .invalidPhaseShifterRange := by
  simp only [assembleDegrees, h]

/-- All that `assemble` can do (R92 to R98): an opcode error; a packet or a range error, by step 2; nothing in an
unrecognised mode; no meaning. -/
theorem assemble_cases (c : Console) :
    (opcodeOf (parseInt c.opcodeStr) = none ∧ assemble c = .error .invalidOpcode)
      ∨ ∃ op, opcodeOf (parseInt c.opcodeStr) = some op
        ∧ ((∃ d q, effectiveDegrees c = some d ∧ allInRange d = some q ∧ assemble c = .packet op (controlWords q))
          ∨ (∃ d, effectiveDegrees c = some d ∧ allInRange d = none
              ∧ assemble c = .error .invalidPhaseShifterRange)
          ∨ (c.mode = .other ∧ assemble c = .nothing) ∨ assemble c = .noMeaning) := by
  cases h : opcodeOf (parseInt c.opcodeStr) with
  | none => exact .inl ⟨rfl, assemble_of_badOpcode h⟩
  | some op =>
    refine .inr ⟨op, rfl, ?_⟩
    cases hd : effectiveDegrees c with
    | none => exact .inr (.inr (assemble_of_no_degrees h hd))
    | some d =>
      rw [assemble_of_degrees h hd]
      cases hq : allInRange d with
      | some q => exact .inl ⟨d, q, rfl, hq, assembleDegrees_of_some hq⟩
      | none => exact .inr (.inl ⟨d, rfl, hq, assembleDegrees_of_none hq⟩)

/-- What a packet comes from: a good opcode and four values in the range, of which it holds the control words (R98). -/
theorem assemble_eq_packet {c : Console} {op : Byte} {ps : Quad Byte} (h : assemble c = .packet op ps) :
    ∃ d q, opcodeOf (parseInt c.opcodeStr) = some op ∧ effectiveDegrees c = some d ∧ allInRange d = some q
      ∧ ps = controlWords q := by
  obtain ⟨-, ha⟩ | ⟨op', hop, ⟨d, q, hd, hq, ha⟩ | ⟨d, -, -, ha⟩ | ⟨-, ha⟩ | ha⟩ := assemble_cases c <;>
    cases ha.symm.trans h
  exact ⟨d, q, hop, hd, hq, rfl⟩

/-- What an error comes from: a bad opcode, or values that do not pass step 2 (R93, R97). -/
theorem assemble_eq_error {c : Console} {e : ErrorKind} (h : assemble c = .error e) :
    opcodeOf (parseInt c.opcodeStr) = none
      ∨ ∃ op d, opcodeOf (parseInt c.opcodeStr) = some op ∧ effectiveDegrees c = some d ∧ allInRange d = none := by
  obtain ⟨hop, ha⟩ | ⟨op, hop, ⟨d, q, -, -, ha⟩ | ⟨d, hd, hq, ha⟩ | ⟨-, ha⟩ | ha⟩ := assemble_cases c <;>
    cases ha.symm.trans h
  · exact .inl hop
  · exact .inr ⟨op, d, hop, hd, hq⟩

/-- What no outcome at all comes from: a good opcode in an unrecognised mode (R96). -/
theorem assemble_eq_nothing {c : Console} (h : assemble c = .nothing) :
    ∃ op, opcodeOf (parseInt c.opcodeStr) = some op ∧ c.mode = .other := by
  obtain ⟨-, ha⟩ | ⟨op, hop, ⟨d, q, -, -, ha⟩ | ⟨d, -, -, ha⟩ | ⟨hm, ha⟩ | ha⟩ := assemble_cases c <;>
    cases ha.symm.trans h
  exact ⟨op, hop, hm⟩

/-- Settles O52: the opcode is one step 1 accepts, and every word is a control word (R66, R93, R98). -/
theorem assembledPacketsAreValid : Obligations.AssembledPacketsAreValid := by
  intro c op ps h
  obtain ⟨-, q, hop, -, -, rfl⟩ := assemble_eq_packet h
  have hok : op.toNat ≤ 2 := opcodeOk_of_opcodeOf hop
  simp only [validCommandPacket, legalControlWords, controlWords, legal_quantizeAndMap, hok, decide_true, Bool.and_true]

/-! ### The order of the tests -/

/-- The opcode test fails when no opcode of 0 to 2 is parsed (R93). -/
theorem opcodeOf_eq_none {x : Option Int} (h : ∀ n, x = some n → n < 0 ∨ 2 < n) : opcodeOf x = none := by
  cases x with
  | none => rfl
  | some n =>
    have := h n rfl
    exact if_neg (by omega)

/-- Four values that pass step 2 are the four values tested (R97). -/
theorem get_of_allInRange {d : Quad (Option Rat)} {q : Quad Rat} (h : allInRange d = some q) (ch : Channel) :
    d.get ch = some (q.get ch) := by
  unfold allInRange at h
  split at h
  · rename_i h1 h2 h3 h4
    simp only [Option.ite_none_right_eq_some, Option.some.injEq] at h
    obtain ⟨-, rfl⟩ := h
    cases ch
    exacts [h1, h2, h3, h4]
  · cases h

/-- Each of four degrees that step 2 accepted lies in the domain. -/
theorem DegreesOk.get {q : Quad Rat} (h : DegreesOk q) (ch : Channel) : inDegDomain (q.get ch) = true := by
  obtain ⟨h1, h2, h3, h4⟩ := h
  cases ch
  exacts [h1, h2, h3, h4]

/-- One value that is missing or outside the domain fails step 2 (R97). -/
theorem allInRange_eq_none {d : Quad (Option Rat)} {ch : Channel} (h : ∀ x, d.get ch = some x → ¬ InDomain x) :
    allInRange d = none := by
  cases hq : allInRange d with
  | none => rfl
  | some q =>
    have hdom := (inDegDomain_iff _).1 ((degreesOk_of_allInRange hq).get ch)
    exact absurd hdom (h _ (get_of_allInRange hq ch))

/-- Settles O54: the opcode's test by its parse, the range test by the channel that fails it (R93, R96, R97). -/
theorem assemblerTestsInOrder : Obligations.AssemblerTestsInOrder := by
  refine ⟨fun c h => assemble_of_badOpcode (opcodeOf_eq_none h), ?mode, ?range⟩
  case mode =>
    intro c n hn h0 h2 hm
    exact assemble_of_other (hn ▸ opcodeOf_of_mem h0 h2) hm
  case range =>
    intro c n ch hn h0 h2 hm hd
    rw [assemble_of_degrees (hn ▸ opcodeOf_of_mem h0 h2) (effectiveDegrees_direct hm)]
    refine assembleDegrees_of_none (allInRange_eq_none (ch := ch) ?_)
    cases ch <;> exact hd

/-! ### The parsers -/

/-- The character of a digit has the digit's code (R101). -/
theorem toNat_ofNat_digit : ∀ d : Fin 10, (Char.ofNat (48 + d.val)).toNat = 48 + d.val := by decide

/-- The characters of digits, not none of them, are a string of decimal digits. -/
theorem isDigits_map_digit {ds : List (Fin 10)} (h : ds ≠ []) :
    isDigits (ds.map fun d => Char.ofNat (48 + d.val)) = true := by
  have hd : ∀ d : Fin 10, isDecimalDigit (Char.ofNat (48 + d.val)) = true := by decide
  simp [isDigits, h, hd]

/-- The number that the characters of digits spell. -/
theorem digitsValue_map_digit (ds : List (Fin 10)) :
    digitsValue (ds.map fun d => Char.ofNat (48 + d.val)) = ds.foldl (fun n d => 10 * n + d.val) 0 := by
  simp only [digitsValue, List.foldl_map, toNat_ofNat_digit, Nat.add_sub_cancel_left]

/-- Settles O55: the string is one of decimal digits, and its number is the digits' (R101). -/
theorem parsersOnDigitStrings : Obligations.ParsersOnDigitStrings := by
  refine ⟨fun ds h => ?_, rfl, rfl⟩
  rw [parseInt, parseNumber, if_pos (isDigits_map_digit h), if_pos (isDigits_map_digit h), digitsValue_map_digit]
  exact ⟨rfl, rfl⟩

end Sys2Proof.Machine

/-! ## One drain, uninterrupted (43_host_command_assembler.md R92 to R100; 44_host_link_worker.md R107; settles O50 and
O51) -/

namespace Sys2Proof.Machine

/-! ### Runs of scheduled moves -/

/-- A run of `m` steps that answers a state goes on from there. -/
theorem run_add {m k : Nat} {s u : State} (h : Host.Core.run core m s = .next u) :
    Host.Core.run core (m + k) s = Host.Core.run core k u := by
  induction m generalizing s with
  | zero =>
    cases h
    rw [Nat.zero_add]
  | succ m ih =>
    rw [Nat.add_right_comm]
    have hs : core.step s = step s := rfl
    cases hv : step s with
    | next v =>
      rw [run_succ hv] at h ⊢
      exact ih h
    | fault f => simp only [Host.Core.run, hs, hv, reduceCtorEq] at h
    | refused e => simp only [Host.Core.run, hs, hv, reduceCtorEq] at h

/-- `n` moves of the worker, uninterrupted and with no frame polled, lead from `s` to `t`, whatever is scheduled after
them; what the two states themselves have scheduled is not looked at. -/
def Drives (n : Nat) (s t : State) : Prop :=
  ∀ rest, Host.Core.run core n (setInputs (workerMoves n ++ rest) s) = .next (setInputs rest t)

/-- One move that gives the same answer whatever is scheduled. -/
theorem Drives.one {s t : State} (h : ∀ xs, workerMove none (setInputs xs s) = .next (setInputs xs t)) :
    Drives 1 s t := fun rest => run_workerMoves (k := 0) (rest := rest) rfl (h rest)

/-- One move that only changes the worker's place. -/
theorem Drives.goto {s : State} {w : Worker}
    (h : ∀ xs, workerMove none (setInputs xs s) = .next (goto w (setInputs xs s))) : Drives 1 s (goto w s) := .one h

/-- Moves after moves. -/
theorem Drives.trans {m n : Nat} {s t u : State} (h : Drives m s t) (h' : Drives n t u) : Drives (m + n) s u := by
  intro rest
  have hm : workerMoves (m + n) ++ rest = workerMoves m ++ (workerMoves n ++ rest) := by
    rw [workerMoves, List.replicate_add, List.append_assoc, workerMoves, workerMoves]
  rw [hm, run_add (h _), h' rest]

/-- A run over the moves that are scheduled. -/
theorem Drives.run {n : Nat} {s t : State} {rest : List Input} (h : Drives n s t)
    (hi : s.inputs = workerMoves n ++ rest) : Host.Core.run core n s = .next (setInputs rest t) := by
  rw [← h rest, ← hi]
  rfl

/-! ### The moves of the assembly -/

/-- The send check with the flag set, and the flag cleared (R107). -/
theorem drives_checkSendRequest {s : State} (hw : s.console.worker = .checkSendRequest)
    (hp : s.console.pendingSend = true) :
    Drives 2 s (setConsole { s.console with worker := .readingOpcode, pendingSend := false } s) := by
  have h1 : Drives 1 s (goto .clearingFlag s) := .goto fun xs => by
    simp only [workerMove, setInputs_console, hw, checkSendMove, hp, if_true]
  exact h1.trans (.one fun xs => rfl)

/-- Step 1 with a good opcode (R93). -/
theorem drives_readingOpcode {s : State} {op : Byte} (hw : s.console.worker = .readingOpcode)
    (hop : opcodeOf (parseInt s.console.opcodeStr) = some op) : Drives 1 s (goto (.readingMode op) s) :=
  .goto fun xs => by simp only [workerMove, setInputs_console, hw, readOpcodeMove, hop]

/-- Step 1 with a bad opcode (R93). -/
theorem drives_readingOpcode_error {s : State} (hw : s.console.worker = .readingOpcode)
    (hop : opcodeOf (parseInt s.console.opcodeStr) = none) : Drives 1 s (goto (.reporting .invalidOpcode) s) :=
  .goto fun xs => by simp only [workerMove, setInputs_console, hw, readOpcodeMove, hop, raiseValidation]

/-- Mode `DIRECT` reads the strings next (R94). -/
theorem drives_readingMode_direct {s : State} {op : Byte} (hw : s.console.worker = .readingMode op)
    (hm : s.console.mode = .direct) : Drives 1 s (goto (.readingPs op .c1 ⟨none, none, none, none⟩) s) :=
  .goto fun xs => by simp only [workerMove, setInputs_console, hw, readModeMove, hm]

/-- Mode `BEAM` reads the angle next (R95). -/
theorem drives_readingMode_beam {s : State} {op : Byte} (hw : s.console.worker = .readingMode op)
    (hm : s.console.mode = .beam) : Drives 1 s (goto (.readingAngle op) s) :=
  .goto fun xs => by simp only [workerMove, setInputs_console, hw, readModeMove, hm]

/-- An unrecognised mode ends the assembly (R96, R122). -/
theorem drives_readingMode_other {s : State} {op : Byte} (hw : s.console.worker = .readingMode op)
    (hm : s.console.mode = .other) : Drives 1 s (goto .idle s) :=
  .goto fun xs => by simp only [workerMove, setInputs_console, hw, readModeMove, hm, raiseValidation]

/-- The string of a channel before the last is read (R94). -/
theorem drives_readingPs {s : State} {op : Byte} {ch ch' : Channel} {got : Quad (Option Rat)}
    (hw : s.console.worker = .readingPs op ch got) (hn : ch.next = some ch') :
    Drives 1 s (goto (.readingPs op ch' (got.set ch (parseNumber (s.console.psStr.get ch)))) s) :=
  .goto fun xs => by simp only [workerMove, setInputs_console, hw, readPsMove, hn]

/-- The string of the last channel is read (R94). -/
theorem drives_readingPs_last {s : State} {op : Byte} {got : Quad (Option Rat)}
    (hw : s.console.worker = .readingPs op .c4 got) :
    Drives 1 s (goto (.checkingRange op (got.set .c4 (parseNumber (s.console.psStr.get .c4)))) s) :=
  .goto fun xs => by simp only [workerMove, setInputs_console, hw, readPsMove, Channel.next]

/-- Mode `DIRECT`: the four strings are read (R94). -/
theorem drives_direct {s : State} {op : Byte} (hw : s.console.worker = .readingMode op)
    (hm : s.console.mode = .direct) :
    Drives 5 s (goto (.checkingRange op ⟨parseNumber s.console.psStr.c1, parseNumber s.console.psStr.c2,
      parseNumber s.console.psStr.c3, parseNumber s.console.psStr.c4⟩) s) := by
  have h1 := drives_readingMode_direct hw hm
  exact (((h1.trans (drives_readingPs rfl rfl)).trans (drives_readingPs rfl rfl)).trans
    (drives_readingPs rfl rfl)).trans (drives_readingPs_last rfl)

/-- The angle is read, and the values are calculated from it (R95). -/
theorem drives_readingAngle {s : State} {op : Byte} {a : Int} (hw : s.console.worker = .readingAngle op)
    (ha : parseInt s.console.angleStr = some a) :
    Drives 1 s (goto (.publishingDegree op .c1 (beamDegrees a)) s) :=
  .goto fun xs => by simp only [workerMove, setInputs_console, hw, readAngleMove, ha]

/-- The four calculated values are published, and their range is tested next (R95). -/
theorem drives_publishingDegrees {s : State} {op : Byte} {degs : Quad DegWord}
    (hw : s.console.worker = .publishingDegree op .c1 degs) :
    ∃ calculated unseen, Drives 4 s (setConsole { s.console with
      worker := .checkingRange op (degValues degs)
      display := { s.console.display with calculated := calculated }
      unseen := unseen } s) :=
  ⟨⟨some degs.c1, some degs.c2, some degs.c3, some degs.c4⟩,
    s.console.unseen ++ ([.calculated .c1 degs.c1, .calculated .c2 degs.c2, .calculated .c3 degs.c3,
      .calculated .c4 degs.c4] : List ShownWrite),
    fun rest => run_publishingDegrees (s := setInputs (workerMoves 4 ++ rest) s) hw rfl⟩

/-- Mode `BEAM`: the angle is read and the four calculated values are published (R95). -/
theorem drives_beam {s : State} {op : Byte} {a : Int} (hw : s.console.worker = .readingMode op)
    (hm : s.console.mode = .beam) (ha : parseInt s.console.angleStr = some a) :
    ∃ calculated unseen, Drives 6 s (setConsole { s.console with
      worker := .checkingRange op (degValues (beamDegrees a))
      display := { s.console.display with calculated := calculated }
      unseen := unseen } s) := by
  have h2 : Drives 2 s (goto (.publishingDegree op .c1 (beamDegrees a)) s) :=
    (drives_readingMode_beam hw hm).trans (drives_readingAngle rfl ha)
  obtain ⟨calculated, unseen, h4⟩ := drives_publishingDegrees (s := goto _ s) rfl
  exact ⟨calculated, unseen, h2.trans h4⟩

/-- Step 2 with all four values in the range (R97). -/
theorem drives_checkingRange {s : State} {op : Byte} {d : Quad (Option Rat)} {q : Quad Rat}
    (hw : s.console.worker = .checkingRange op d) (hq : allInRange d = some q) :
    Drives 1 s (goto (.writingDegree op .c1 q) s) :=
  .goto fun xs => by simp only [workerMove, setInputs_console, hw, checkRangeMove, hq]

/-- Step 2 with a value that is missing or out of the range (R97). -/
theorem drives_checkingRange_error {s : State} {op : Byte} {d : Quad (Option Rat)}
    (hw : s.console.worker = .checkingRange op d) (hq : allInRange d = none) :
    Drives 1 s (goto (.reporting .invalidPhaseShifterRange) s) :=
  .goto fun xs => by simp only [workerMove, setInputs_console, hw, checkRangeMove, hq, raiseValidation]

/-- The error message is written (R100, R121). -/
theorem drives_reporting {s : State} {e : ErrorKind} (hw : s.console.worker = .reporting e) :
    Drives 1 s (reportError e s) :=
  .one fun xs => by
    simp only [workerMove, setInputs_console, hw]
    rfl

/-- The message of an error is not empty (R100). -/
theorem reportError_message_ne_nil (e : ErrorKind) (s : State) :
    (reportError e s).console.display.errorMessage ≠ [] := List.cons_ne_nil _ _

/-! ### From the send check to the range test -/

/-- With a good opcode: the flag is clear, and the mode is read next (R93, R107). -/
theorem drives_readingMode {s : State} {op : Byte} (hw : s.console.worker = .checkSendRequest)
    (hp : s.console.pendingSend = true) (hop : opcodeOf (parseInt s.console.opcodeStr) = some op) :
    Drives 3 s (setConsole { s.console with worker := .readingMode op, pendingSend := false } s) :=
  (drives_checkSendRequest hw hp).trans (drives_readingOpcode rfl hop)

/-- With a good opcode and four effective values: the range of these is tested next, the flag is clear, and but for the
calculated values the display is as it was (R93 to R95, R107). Mode `DIRECT` has one move for each of the four strings,
mode `BEAM` one for the angle and four for its values (log 5). -/
theorem drives_rangeTest {s : State} {op : Byte} {d : Quad (Option Rat)} (hw : s.console.worker = .checkSendRequest)
    (hp : s.console.pendingSend = true) (hop : opcodeOf (parseInt s.console.opcodeStr) = some op)
    (hd : effectiveDegrees s.console = some d) :
    ∃ calculated unseen, Drives (if s.console.mode = .direct then 8 else 9) s (setConsole { s.console with
      worker := .checkingRange op d
      pendingSend := false
      display := { s.console.display with calculated := calculated }
      unseen := unseen } s) := by
  have h3 := drives_readingMode hw hp hop
  cases hm : s.console.mode with
  | direct =>
    cases (effectiveDegrees_direct hm).symm.trans hd
    exact ⟨_, _, h3.trans (drives_direct rfl hm)⟩
  | beam =>
    obtain ⟨a, ha, rfl⟩ := Option.map_eq_some_iff.1 ((effectiveDegrees_beam hm).symm.trans hd)
    obtain ⟨calculated, unseen, h6⟩ := drives_beam
      (s := setConsole { s.console with worker := .readingMode op, pendingSend := false } s) rfl hm ha
    exact ⟨calculated, unseen, h3.trans h6⟩
  | other => cases (effectiveDegrees_other hm).symm.trans hd

/-! ### A drain without a packet -/

/-- Settles O51: a bad opcode, a range error or an unrecognised mode, each by the moves that lead to it (R93, R96,
R97). -/
theorem failedAssemblyTransmitsNothing : Obligations.FailedAssemblyTransmitsNothing := by
  intro s rest a hw hp ha hfail _
  obtain ⟨e, rfl⟩ | rfl := hfail
  case inl =>
    obtain hop | ⟨op, d, hop, hd, hq⟩ := assemble_eq_error ha
    · have h := (drives_checkSendRequest hw hp).trans (drives_readingOpcode_error rfl hop)
      have h := h.trans (drives_reporting rfl)
      exact ⟨_, _, h rest, rfl, rfl, rfl, rfl, rfl, fun _ _ => reportError_message_ne_nil _ _, nofun⟩
    · obtain ⟨calculated, unseen, h⟩ := drives_rangeTest hw hp hop hd
      have h := h.trans (drives_checkingRange_error rfl hq)
      have h := h.trans (drives_reporting rfl)
      exact ⟨_, _, h rest, rfl, rfl, rfl, rfl, rfl, fun _ _ => reportError_message_ne_nil _ _, nofun⟩
  case inr =>
    obtain ⟨op, hop, hm⟩ := assemble_eq_nothing ha
    have h := (drives_readingMode hw hp hop).trans (drives_readingMode_other rfl hm)
    exact ⟨_, _, h rest, rfl, rfl, rfl, rfl, rfl, nofun, fun _ => rfl⟩

/-! ### The packet's moves -/

/-- What filling a channel's register with the word of a degree does to the block (R98): the degree, its `QMAP`, and the
move of the word. -/
def fillChannel (ch : Channel) (d : Rat) (b : Block) : Block :=
  writeReg { b with
    psqDeg := some (.finite d)
    psqOut := some (quantizeAndMap d)
    status := statusDone psqValidBit b.status } (psReg ch) (.byte (quantizeAndMap d))

/-- `QMAP` of a degree in the domain (R67, R98). -/
theorem drives_quantizing {s : State} {op : Byte} {ch : Channel} {q : Quad Rat} {d : Rat}
    (hw : s.console.worker = .quantizing op ch q) (hdeg : s.block.psqDeg = some (.finite d))
    (hd : inDegDomain d = true) : Drives 1 s (goto (.movingWord op ch q) (psqDone d s)) :=
  .one fun xs => by
    have hqmap := execQmap_of_domain (s := setInputs xs s) hdeg rfl hd
    simp only [workerMove, setInputs_console, hw, quantizeMove, hqmap]
    rfl

/-- A control word that is valid is moved to a channel's register (R98). -/
theorem drives_movingWord {s : State} {op w : Byte} {ch : Channel} {q : Quad Rat}
    (hw : s.console.worker = .movingWord op ch q) (hv : psqValid s.block.status = true)
    (ho : s.block.psqOut = some w) :
    Drives 1 s (goto (afterChannel op ch q) (setBlock (writeReg s.block (psReg ch) (.byte w)) s)) :=
  .one fun xs => by
    simp only [workerMove, setInputs_console, setInputs_block, hw, moveWordMove, hv, if_true, ho, needs_some]
    cases ch <;> rfl

/-- Three moves fill the register of one channel (R98). -/
theorem drives_fillChannel {s : State} {op : Byte} {ch : Channel} {q : Quad Rat}
    (hw : s.console.worker = .writingDegree op ch q) (hd : inDegDomain (q.get ch) = true) :
    Drives 3 s (goto (afterChannel op ch q) (setBlock (fillChannel ch (q.get ch) s.block) s)) := by
  have h1 : Drives 1 s
      (goto (.quantizing op ch q) (setBlock { s.block with psqDeg := some (.finite (q.get ch)) } s)) :=
    .one fun xs => by
      simp only [workerMove, setInputs_console, hw, writeDegreeMove]
      rfl
  have h2 := h1.trans (drives_quantizing rfl rfl hd)
  obtain ⟨hv, -⟩ := flags_statusDone_psq s.block.status
  exact h2.trans (drives_movingWord rfl hv rfl)

/-- The block after the registers of all four channels are filled, in their order (R98). -/
def fillAll (q : Quad Rat) (b : Block) : Block :=
  fillChannel .c4 q.c4 (fillChannel .c3 q.c3 (fillChannel .c2 q.c2 (fillChannel .c1 q.c1 b)))

/-- Twelve moves fill the registers of all four channels (R98). -/
theorem drives_fillAll {s : State} {op : Byte} {q : Quad Rat} (hw : s.console.worker = .writingDegree op .c1 q)
    (hq : DegreesOk q) : Drives 12 s (goto (.writingOpcode op) (setBlock (fillAll q s.block) s)) :=
  (((drives_fillChannel hw (hq.get .c1)).trans (drives_fillChannel rfl (hq.get .c2))).trans
    (drives_fillChannel rfl (hq.get .c3))).trans (drives_fillChannel rfl (hq.get .c4))

/-- The message becomes empty (R98, R100). -/
theorem drives_clearingMessage {s : State} (hw : s.console.worker = .clearingMessage) :
    Drives 1 s (setConsole { showWrite (.errorMessage []) s.console with worker := .encoding } s) :=
  .one fun xs => by
    simp only [workerMove, setInputs_console, hw]
    rfl

/-- `ENCODE` with the five operands written (R77, R107). -/
theorem drives_encoding {s : State} {op ps1 ps2 ps3 ps4 : Byte} (hw : s.console.worker = .encoding)
    (h0 : s.block.cmdOpcode = some op) (h1 : s.block.cmdPs1 = some ps1) (h2 : s.block.cmdPs2 = some ps2)
    (h3 : s.block.cmdPs3 = some ps3) (h4 : s.block.cmdPs4 = some ps4) :
    Drives 1 s (goto .transmitting (cencDone op ps1 ps2 ps3 ps4 s)) :=
  .one fun xs => by
    have henc := execEncode_of_written (s := setInputs xs s) h0 h1 h2 h3 h4
    simp only [workerMove, setInputs_console, hw, encodeMove, henc]
    rfl

/-- The transmit of a valid TXBUF (R107). -/
theorem drives_transmitting {s : State} {f : List Byte} (hw : s.console.worker = .transmitting)
    (hv : txValid s.block.status = true) (hf : memReadBytes s.block.txbuf 0 Config.cmdFrameLen = some f) :
    Drives 1 s (goto .idle (recordTransmit f s)) :=
  .one fun xs => by
    simp only [workerMove, setInputs_console, hw, transmitMove, transmitFrame, setInputs_block, hv, if_true, hf]
    rfl

/-- Four moves write the opcode, clear the message, encode the packet that the registers hold, and transmit its frame
(R98, R107). -/
theorem drives_sendFrame {s : State} {op ps1 ps2 ps3 ps4 : Byte} (hw : s.console.worker = .writingOpcode op)
    (h1 : s.block.cmdPs1 = some ps1) (h2 : s.block.cmdPs2 = some ps2) (h3 : s.block.cmdPs3 = some ps3)
    (h4 : s.block.cmdPs4 = some ps4) :
    Drives 4 s (goto .idle (recordTransmit (encodeCommand op ps1 ps2 ps3 ps4) (cencDone op ps1 ps2 ps3 ps4
      (setBlock { s.block with cmdOpcode := some op } (setConsole (showWrite (.errorMessage []) s.console) s))))) := by
  have hop : Drives 1 s (goto .clearingMessage (setBlock { s.block with cmdOpcode := some op } s)) := .one fun xs => by
    simp only [workerMove, setInputs_console, hw, writeOpcodeMove]
    rfl
  have hmsg := hop.trans (drives_clearingMessage rfl)
  have henc := hmsg.trans (drives_encoding rfl rfl h1 h2 h3 h4)
  obtain ⟨-, hv, -⟩ := flags_statusDone_tx s.block.status
  exact henc.trans (drives_transmitting rfl hv
    (memReadBytes_memWriteBytes s.block.txbuf 0 (encodeCommand op ps1 ps2 ps3 ps4)))

/-- Settles O50: 8 moves in mode `DIRECT` or 9 in mode `BEAM` to the range test, 1 to pass it, 12 to fill the channels'
registers, 4 to send (R94, R95, R97, R98, R107). -/
theorem drainTransmitsTheAssembledFrame : Obligations.DrainTransmitsTheAssembledFrame := by
  intro s op ps rest n hw hp ha hn hi
  obtain ⟨d, q, hop, hd, hq, rfl⟩ := assemble_eq_packet ha
  obtain ⟨calculated, unseen, h⟩ := drives_rangeTest hw hp hop hd
  have h := ((h.trans (drives_checkingRange rfl hq)).trans (drives_fillAll rfl (degreesOk_of_allInRange hq))).trans
    (drives_sendFrame rfl rfl rfl rfl rfl)
  obtain rfl : n = (if s.console.mode = .direct then 8 else 9) + 1 + 12 + 4 := by
    rw [hn]
    split <;> rfl
  exact ⟨_, h.run hi, rfl, rfl, rfl, rfl, rfl, rfl⟩

end Sys2Proof.Machine

/-! ## The loop, the send flag and the radio, move by move (44_host_link_worker.md R104 to R110, R113; settles O45, O48,
O49 and O59) -/

namespace Sys2Proof.Machine

/-! ### What a move of the worker does to the loop, the flag and the radio -/

/-- From one place of the worker to another within one state of R104, or along one of its arrows. -/
def LoopMove (w w' : Worker) : Prop :=
  loopState w' = loopState w ∨ loopArrow (loopState w) (loopState w') = true

/-- What every move from `s` to `t`, with the worker at `w`, does to the host and the radio: its place follows the loop
(R104), only the clear touches the send flag (R107), and only a transmit touches the radio (R113). -/
structure HostMove (w : Worker) (s t : State) : Prop where
  loop : LoopMove w t.console.worker
  flag : w ≠ .clearingFlag → t.console.pendingSend = s.console.pendingSend
  radio : w ≠ .transmitting → t.radio = s.radio

/-- A line that leaves the host and the radio as they were, and then the next place. -/
theorem HostMove.goto {w w' : Worker} {s u : State} (hc : u.console = s.console) (hr : u.radio = s.radio)
    (hl : LoopMove w w') : HostMove w s (Machine.goto w' u) where
  loop := hl
  flag _ := by rw [goto_console, hc]
  radio _ := hr

/-- A validation error leads to its message or ends the iteration (R100, R121, R122). -/
theorem HostMove.raiseValidation {w : Worker} (e : ErrorKind) (s : State) (hi : LoopMove w .idle)
    (hr : LoopMove w (.reporting e)) : HostMove w s (Machine.raiseValidation e s) := by
  obtain ⟨w', he, rfl | rfl⟩ := raiseValidation_eq e s
  · exact he ▸ .goto rfl rfl hi
  · exact he ▸ .goto rfl rfl hr

/-- The worker publishes the next scalar, or goes on to the send check (R104, R106). -/
theorem loopMove_afterShown (f : TlmShown) : LoopMove (.publishing f) (afterShown f) := by
  cases f
  case count => exact .inr rfl
  all_goals exact .inl rfl

/-- The worker stays in the assembly after a calculated value (R95). -/
theorem loopMove_afterDegree (op : Byte) (ch : Channel) (degs : Quad DegWord) :
    LoopMove (.publishingDegree op ch degs) (afterDegree op ch degs) := by
  cases ch <;> exact .inl rfl

/-- The worker stays in the assembly after a channel is filled (R98). -/
theorem loopMove_afterChannel (op : Byte) (ch : Channel) (q : Quad Rat) :
    LoopMove (.movingWord op ch q) (afterChannel op ch q) := by
  cases ch <;> exact .inl rfl

/-- `WR` leaves the radio alone (R28). -/
theorem hostWrite_radio {r : Reg} {v : RegValue} {s u : State} (h : hostWrite r v s = .next u) : u.radio = s.radio := by
  rw [hostWrite_next h, setBlock_radio]

/-- Every move of the worker, one place at a time (R104 to R107). -/
theorem workerMove_hostMove {p : Option (List Byte)} {s t : State} (h : workerMove p s = .next t) :
    HostMove s.console.worker s t := by
  cases hw : s.console.worker <;> simp only [workerMove, hw] at h
  case idle | noData =>
    cases h
    exact .goto rfl rfl (.inr rfl)
  case polling => rcases pollMove_next h with rfl | ⟨f, rfl⟩ <;> exact .goto rfl rfl (.inr rfl)
  case telemetryReceived =>
    rcases copyFrameMove_next h with rfl | ⟨u, hu, rfl⟩
    · exact ⟨.inr rfl, fun _ => rfl, fun _ => rfl⟩
    · exact .goto (hostRxFrame_console hu) (hostRxFrame_radio hu) (.inl rfl)
  case decoding =>
    obtain ⟨u, hu, rfl⟩ := andThen_goto_next h
    exact .goto (execDecode_console hu) (execDecode_radio hu) (.inl rfl)
  case checkingDecode =>
    rcases checkDecodeMove_next h with ⟨-, rfl⟩ | rfl
    · exact .goto rfl rfl (.inl rfl)
    · exact ⟨.inr rfl, fun _ => rfl, fun _ => rfl⟩
  case countingFrame =>
    cases h
    exact ⟨.inl rfl, fun _ => rfl, fun _ => rfl⟩
  case publishing f =>
    obtain ⟨w, -, rfl⟩ := publishMove_next h
    exact ⟨loopMove_afterShown f, fun _ => rfl, fun _ => rfl⟩
  case checkSendRequest =>
    rcases checkSendMove_next h with rfl | rfl
    · exact .goto rfl rfl (.inl rfl)
    · exact .goto rfl rfl (.inr rfl)
  case clearingFlag =>
    cases h
    exact ⟨.inl rfl, fun hne => absurd rfl hne, fun _ => rfl⟩
  case readingOpcode =>
    rcases readOpcodeMove_next h with ⟨op, -, rfl⟩ | rfl
    · exact .goto rfl rfl (.inl rfl)
    · exact .raiseValidation _ s (.inr rfl) (.inl rfl)
  case readingMode =>
    rcases readModeMove_next h with rfl | rfl | rfl
    · exact .goto rfl rfl (.inl rfl)
    · exact .goto rfl rfl (.inl rfl)
    · exact .goto rfl rfl (.inr rfl)
  case readingPs => rcases readPsMove_next h with ⟨got, ⟨ch, rfl⟩ | rfl⟩ <;> exact .goto rfl rfl (.inl rfl)
  case readingAngle =>
    obtain ⟨degs, rfl⟩ := readAngleMove_next h
    exact .goto rfl rfl (.inl rfl)
  case publishingDegree op ch degs =>
    cases h
    exact ⟨loopMove_afterDegree op ch degs, fun _ => rfl, fun _ => rfl⟩
  case checkingRange =>
    rcases checkRangeMove_next h with ⟨q, -, rfl⟩ | rfl
    · exact .goto rfl rfl (.inl rfl)
    · exact .raiseValidation _ s (.inr rfl) (.inl rfl)
  case reporting | clearingMessage =>
    cases h
    exact ⟨.inr rfl, fun _ => rfl, fun _ => rfl⟩
  case writingDegree | writingOpcode =>
    obtain ⟨u, hu, rfl⟩ := andThen_goto_next h
    exact .goto (hostWrite_console hu) (hostWrite_radio hu) (.inl rfl)
  case quantizing =>
    obtain ⟨u, hu, rfl⟩ := andThen_goto_next h
    exact .goto (execQmap_console hu) (execQmap_radio hu) (.inl rfl)
  case movingWord op ch q =>
    obtain ⟨w, u, -, hu, rfl⟩ := moveWordMove_next h
    exact .goto (hostWrite_console hu) (hostWrite_radio hu) (loopMove_afterChannel op ch q)
  case encoding =>
    obtain ⟨u, hu, rfl⟩ := andThen_goto_next h
    exact .goto (execEncode_console hu) (execEncode_radio hu) (.inl rfl)
  case transmitting =>
    obtain ⟨u, hu, rfl⟩ := andThen_goto_next h
    exact ⟨.inr rfl, fun _ => by rw [goto_console, transmitFrame_console hu], fun hne => absurd rfl hne⟩

/-- Settles O45: the place every move leads to (R104). -/
theorem loopFollowsItsStates : Obligations.LoopFollowsItsStates := fun _ _ _ h => (workerMove_hostMove h).loop

/-! ### The send flag -/

/-- A step that is the worker's clear (R107). -/
theorem step_clearingFlag {s : State} {p : Option (List Byte)} {rest : List Input}
    (hw : s.console.worker = .clearingFlag) (hi : s.inputs = .worker p :: rest) :
    step s = clearFlagMove (setInputs rest s) := by
  simp only [step_cons hi, perform, workerMove, setInputs_console, hw]

/-- Settles O48: the set and the clear in turn; any other move by the flag's own frame; two sets write the same (R107,
R109, R110, R141). -/
theorem sendFlagRace : Obligations.SendFlagRace := by
  refine ⟨fun s p rest hw hi => ?race, fun s t p rest hw hi h => ?kept, fun _ => rfl⟩
  case race =>
    have hset : step s = .next (uiSend (setInputs (.worker p :: rest) s)) := step_cons hi
    have hclear := step_clearingFlag (s := uiSend (setInputs (.worker p :: rest) s)) hw rfl
    exact ⟨_, (run_succ hset).trans (run_succ hclear), rfl, rfl, rfl⟩
  case kept =>
    rw [step_cons hi] at h
    exact (workerMove_hostMove (s := setInputs rest s) h).flag hw

/-- Settles O49: the send check reads the flag, and only the worker's place changes (R107). -/
theorem sendCheckWithoutRequest : Obligations.SendCheckWithoutRequest := by
  intro s p hw hp
  have hcheck : workerMove p s = checkSendMove s := by simp only [workerMove, hw]
  rw [hcheck, checkSendMove, hp]
  rfl

/-! ### The transmits -/

/-- From `s` to `t` the radio took no frame, or one of five bytes for node 2 (R113). -/
def SendsAtMostOne (s t : State) : Prop :=
  t.radio.sent = s.radio.sent ∨ ∃ f : List Byte, f.length = 5 ∧ t.radio.sent = s.radio.sent ++ [⟨f, 2⟩]

/-- A line that leaves the radio alone transmits nothing. -/
theorem SendsAtMostOne.of_radio {s t : State} (h : t.radio = s.radio) : SendsAtMostOne s t := .inl (h ▸ rfl)

/-- Handing TXBUF to the radio is one transmit of its five bytes (R107, R113). -/
theorem transmitFrame_sendsAtMostOne {s t : State} (h : transmitFrame s = .next t) : SendsAtMostOne s t := by
  obtain ⟨-, f, hf, rfl⟩ := transmitFrame_next h
  exact .inr ⟨f, memReadBytes_length hf, rfl⟩

/-- The tail of `SEND` is one transmit of the packet's five bytes (R58). -/
theorem sendPacket_sendsAtMostOne {op ps1 ps2 ps3 ps4 : Byte} {s t : State}
    (h : sendPacket op ps1 ps2 ps3 ps4 s = .next t) : SendsAtMostOne s t := by
  rw [sendPacket_eq] at h
  cases h
  exact .inr ⟨[op, ps1, ps2, ps3, ps4], rfl, rfl⟩

/-- `RD` leaves the radio alone (R29). -/
theorem hostRead_radio {r : Reg} {s t : State} (h : hostRead r s = .next t) : t.radio = s.radio := by
  obtain ⟨-, v, -, rfl⟩ := hostRead_next h
  rfl

/-- Of the items only a command frame is transmitted (R58). -/
theorem exec_sendsAtMostOne {i : Instr} {s t : State} (h : exec i s = .next t) : SendsAtMostOne s t := by
  cases i with
  | qmap => exact .of_radio (execQmap_radio h)
  | encode => exact .of_radio (execEncode_radio h)
  | decode => exact .of_radio (execDecode_radio h)
  | reqReserved =>
    cases h
    exact .of_radio rfl
  | cmdNop _ _ _ _ | cmdBlink _ _ _ _ | cmdSetps _ _ _ _ =>
    simp only [exec, execCmdNop, execCmdBlink, execCmdSetps] at h
    exact sendPacket_sendsAtMostOne h
  | tlm lat lon mx my mz pad =>
    simp only [exec, execTlm] at h
    obtain ⟨u, hu, h⟩ := andThen_eq_next h
    obtain ⟨v, hv, h⟩ := andThen_eq_next h
    exact .of_radio ((hostRead_radio h).trans ((execDecode_radio hv).trans (hostRxFrame_radio hu)))
  | psw code =>
    simp only [exec, execPsw] at h
    obtain ⟨u, hu, h⟩ := andThen_eq_next h
    obtain ⟨v, hv, h⟩ := andThen_eq_next h
    exact .of_radio ((hostRead_radio h).trans ((execQmap_radio hv).trans (hostWrite_radio hu)))

/-- Of the worker's moves only the transmit is one (R107). -/
theorem workerMove_sendsAtMostOne {p : Option (List Byte)} {s t : State} (h : workerMove p s = .next t) :
    SendsAtMostOne s t := by
  by_cases hw : s.console.worker = .transmitting
  · simp only [workerMove, hw] at h
    obtain ⟨u, hu, rfl⟩ := andThen_goto_next h
    have hs := transmitFrame_sendsAtMostOne hu
    exact hs
  · exact .of_radio ((workerMove_hostMove h).radio hw)

/-- Of the inputs only a command frame and the worker's transmit hand anything to the radio (R58, R107). -/
theorem perform_sendsAtMostOne {x : Input} {s t : State} (h : perform x s = .next t) : SendsAtMostOne s t := by
  cases x with
  | item bs =>
    simp only [perform, presentItem] at h
    split at h
    · exact exec_sendsAtMostOne h
    · cases h
  | hostWrite r v => exact .of_radio (hostWrite_radio h)
  | hostWriteRx a b =>
    obtain ⟨-, rfl⟩ := hostWriteRx_next h
    exact .of_radio rfl
  | rxFrame f => exact .of_radio (hostRxFrame_radio h)
  | hostRead r => exact .of_radio (hostRead_radio h)
  | hostReadTx a =>
    obtain ⟨b, -, rfl⟩ := hostReadTx_next h
    exact .of_radio rfl
  | uiEdit e =>
    cases h
    cases e <;> exact .of_radio rfl
  | reset | uiSend | uiSees _ | radioSignal _ =>
    cases h
    exact .inl rfl
  | worker p => exact workerMove_sendsAtMostOne h

/-- Settles O59: input by input; a step without one transmits nothing. -/
theorem atMostOneTransmissionPerStep : Obligations.AtMostOneTransmissionPerStep := by
  intro s t h
  cases hx : s.inputs with
  | nil =>
    simp only [step, stepInput, hx, Host.Outcome.next.injEq] at h
    exact h ▸ .inl rfl
  | cons x rest =>
    rw [step_cons hx] at h
    exact perform_sendsAtMostOne (s := setInputs rest s) h

end Sys2Proof.Machine

/-! ## One inbound frame, uninterrupted (42_tdec.md R87; 44_host_link_worker.md R106; 60_exceptions.md R119; settles O46
and O47) -/

namespace Sys2Proof.Machine

/-! ### The moves that handle a frame -/

/-- A frame that fits is presented (R57, R106). -/
theorem drives_telemetryReceived {s : State} {f : List Byte} (hw : s.console.worker = .telemetryReceived f)
    (hf : f.length ≤ Config.rxMax) : Drives 1 s (goto .decoding (setBlock (withFrame f s.block) s)) :=
  .one fun xs => by
    simp only [workerMove, setInputs_console, hw, copyFrameMove, Nat.not_lt.2 hf, if_false, hostRxFrame_of_fits _ hf]
    rfl

/-- A frame that does not fit is logged without a request (R106). -/
theorem drives_telemetryReceived_long {s : State} {f : List Byte} (hw : s.console.worker = .telemetryReceived f)
    (hf : Config.rxMax < f.length) : Drives 1 s (logMalformed s) :=
  .one fun xs => by
    simp only [workerMove, setInputs_console, hw, copyFrameMove, hf, if_true]
    rfl

/-- `DECODE`, by what it does to the block (R106). -/
theorem drives_decoding {s : State} {b : Block} (hw : s.console.worker = .decoding)
    (h : ∀ xs, execDecode (setInputs xs s) = .next (setBlock b (setInputs xs s))) :
    Drives 1 s (goto .checkingDecode (setBlock b s)) :=
  .one fun xs => by
    simp only [workerMove, setInputs_console, hw, decodeMove, h]
    rfl

/-- The check after a `DECODE` that ended `done` (R106). -/
theorem drives_checkingDecode {s : State} (hw : s.console.worker = .checkingDecode)
    (he : lastErr s.block.status = noError) : Drives 1 s (goto .countingFrame s) :=
  .goto fun xs => by simp only [workerMove, setInputs_console, hw, checkDecodeMove, setInputs_block, he, if_true]

/-- The check after a `DECODE` that raised an error (R106). -/
theorem drives_checkingDecode_error {s : State} (hw : s.console.worker = .checkingDecode)
    (he : lastErr s.block.status ≠ noError) : Drives 1 s (logMalformed s) :=
  .one fun xs => by
    simp only [workerMove, setInputs_console, hw, checkDecodeMove, setInputs_block, he, if_false]
    rfl

/-- The receive counter goes up (R106). -/
theorem drives_countingFrame {s : State} (hw : s.console.worker = .countingFrame) :
    Drives 1 s (setConsole { s.console with worker := .publishing .lat, rxCount := s.console.rxCount + 1 } s) :=
  .one fun xs => by
    simp only [workerMove, setInputs_console, hw]
    rfl

/-! ### Publishing -/

/-- The block holds a received packet, valid (R22, R86). -/
def HoldsTlm (b : Block) (p : Telemetry) : Prop :=
  tlmValid b.status = true ∧ b.tlmLat = some p.lat ∧ b.tlmLon = some p.lon ∧ b.tlmMx = some p.mx
    ∧ b.tlmMy = some p.my ∧ b.tlmMz = some p.mz

/-- The write that publishes a scalar, of a packet, a signal strength and a receive counter (R106). -/
def tlmWrite (p : Telemetry) (v : Signal) (n : Nat) : TlmShown → ShownWrite
  | .lat => .lat p.lat
  | .lon => .lon p.lon
  | .mx => .mx p.mx
  | .my => .my p.my
  | .mz => .mz p.mz
  | .signal => .signal v
  | .count => .count n

/-- With a packet held, every scalar is published (R29, R106). -/
theorem publishMove_of_held {s : State} {p : Telemetry} (h : HoldsTlm s.block p) (f : TlmShown) :
    publishMove f s = publish f (tlmWrite p s.radio.signal s.console.rxCount f) s := by
  obtain ⟨hv, hlat, hlon, hmx, hmy, hmz⟩ := h
  cases f <;> simp [publishMove, readTlm, tlmWrite, hv, hlat, hlon, hmx, hmy, hmz]

/-- One move publishes one scalar of a packet that is held (R106). -/
theorem drives_publishing {s : State} {f : TlmShown} {p : Telemetry} (hw : s.console.worker = .publishing f)
    (h : HoldsTlm s.block p) : Drives 1 s (setConsole
      { showWrite (tlmWrite p s.radio.signal s.console.rxCount f) s.console with worker := afterShown f } s) :=
  .one fun xs => by
    have hheld : HoldsTlm (setInputs xs s).block p := h
    simp only [workerMove, setInputs_console, hw, publishMove_of_held hheld]
    rfl

/-- Seven moves publish a packet that is held, the signal strength and the receive counter, and lead to the send check,
with nothing else changed (R106). -/
theorem drives_publishings {s : State} {p : Telemetry} (hw : s.console.worker = .publishing .lat)
    (h : HoldsTlm s.block p) : Drives 7 s (setConsole { s.console with
      worker := .checkSendRequest
      display := { s.console.display with
        lat := some p.lat, lon := some p.lon, mx := some p.mx, my := some p.my, mz := some p.mz
        signal := some s.radio.signal, count := some s.console.rxCount }
      unseen := s.console.unseen ++ [.lat p.lat, .lon p.lon, .mx p.mx, .my p.my, .mz p.mz,
        .signal s.radio.signal, .count s.console.rxCount] } s) := by
  have h3 := ((drives_publishing hw h).trans (drives_publishing rfl h)).trans (drives_publishing rfl h)
  have h5 := (h3.trans (drives_publishing rfl h)).trans (drives_publishing rfl h)
  have h7 := (h5.trans (drives_publishing rfl h)).trans (drives_publishing rfl h)
  simpa [setConsole, showWrite, putShown, tlmWrite, afterShown, TlmShown.next] using h7

/-! ### A good frame -/

/-- The block after a frame of a packet was presented and decoded (R57, R82, R86). -/
def withPacket (f : List Byte) (p : Telemetry) (b : Block) : Block :=
  { withFrame f b with
    tlmLat := some p.lat, tlmLon := some p.lon, tlmMx := some p.mx, tlmMy := some p.my, tlmMz := some p.mz
    status := statusDone tlmValidBit b.status }

/-- The packet that was decoded is held. -/
theorem holdsTlm_withPacket (f : List Byte) (p : Telemetry) (b : Block) : HoldsTlm (withPacket f p b) p := by
  obtain ⟨-, -, hv, -, -, -⟩ := flags_statusDone_tlm b.status
  exact ⟨hv, rfl, rfl, rfl, rfl, rfl⟩

/-- A frame that decodes is the frame of its packet and some pad (R48, R82). -/
theorem exists_pad_of_decodeTelemetry {f : List Byte} {p : Telemetry} (h : decodeTelemetry f = .ok p) :
    ∃ pad, f = encodeItem (.tlm p.lat p.lon p.mx p.my p.mz pad) := by
  have hlen : f.length = 16 := by
    by_contra hne
    cases (decodeTelemetry_of_length hne).symm.trans h
  obtain ⟨lat, lon, mx, my, mz, pad, rfl⟩ := exists_tlm_of_length hlen
  cases (decodeTelemetry_encodeItem lat lon mx my mz pad).symm.trans h
  exact ⟨pad, rfl⟩

/-- Two moves present and decode a good frame (R57, R86, R106). -/
theorem drives_decodeFrame {s : State} {f : List Byte} {p : Telemetry}
    (hw : s.console.worker = .telemetryReceived f) (hp : decodeTelemetry f = .ok p) :
    Drives 2 s (goto .checkingDecode (setBlock (withPacket f p s.block) s)) := by
  obtain ⟨pad, rfl⟩ := exists_pad_of_decodeTelemetry hp
  have hfits : (encodeItem (.tlm p.lat p.lon p.mx p.my p.mz pad)).length ≤ Config.rxMax := tlmFrame_fits
  exact (drives_telemetryReceived hw hfits).trans (drives_decoding (b := withPacket _ p s.block) rfl
    fun xs => execDecode_of_received (hostRxFrame_of_fits (goto .decoding (setInputs xs s)) hfits))

/-- Settles O46: two moves to decode the frame, one to check, one to count, seven to publish (R106). -/
theorem goodFrameIsPublished : Obligations.GoodFrameIsPublished := by
  intro s f p rest hw hp hi
  obtain ⟨-, -, -, -, he, -⟩ := flags_statusDone_tlm s.block.status
  have hcheck := (drives_decodeFrame hw hp).trans (drives_checkingDecode rfl he)
  have hcount := hcheck.trans (drives_countingFrame rfl)
  have h := hcount.trans (drives_publishings rfl (holdsTlm_withPacket f p s.block))
  exact ⟨_, h.run hi, rfl, rfl, rfl⟩

/-! ### A malformed frame -/

/-- Three moves present a frame of a wrong length, find it malformed and log it; of the block the frame, its length and
the cause code were written (R87, R106, R119). -/
theorem drives_malformedFrame {s : State} {f : List Byte} (hw : s.console.worker = .telemetryReceived f)
    (hf : f.length ≤ Config.rxMax) (h16 : f.length ≠ 16) :
    Drives 3 s (logMalformed (setBlock { withFrame f s.block with
      status := statusError .malformedFrame s.block.status } s)) := by
  obtain ⟨-, -, -, -, he, -⟩ := flags_statusError_malformed s.block.status
  have hn := toNat_ofNat_length hf
  have hdecode := (drives_telemetryReceived hw hf).trans (drives_decoding
    (b := { withFrame f s.block with status := statusError .malformedFrame s.block.status }) rfl
    fun xs => execDecode_of_length rfl (hn.trans_le hf) (hn.trans_ne h16))
  exact hdecode.trans (drives_checkingDecode_error rfl (he.trans_ne (by decide)))

/-- Settles O47: a frame that does not fit is logged by the first move, any other by the check after its `DECODE`, which
wrote the cause code and no result (R87, R106, R119). -/
theorem malformedFrameIsLogged : Obligations.MalformedFrameIsLogged := by
  intro s f rest n hw h16 hn hi
  by_cases hf : Config.rxMax < f.length
  · obtain rfl : n = 1 := hn.trans (if_pos hf)
    exact ⟨_, (drives_telemetryReceived_long hw hf).run hi, rfl, rfl, rfl, rfl, rfl, rfl, rfl, rfl, rfl⟩
  · obtain rfl : n = 3 := hn.trans (if_neg hf)
    obtain ⟨-, -, hv, -, -, -⟩ := flags_statusError_malformed s.block.status
    exact ⟨_, (drives_malformedFrame hw (Nat.not_lt.1 hf) h16).run hi, rfl, rfl, rfl, rfl, rfl, rfl, rfl, rfl, hv⟩

end Sys2Proof.Machine

/-! ## The loop never stops (44_host_link_worker.md R111, R112; 60_exceptions.md R117, R126; settles O58) -/

namespace Sys2Proof.Machine

/-! ### Each line runs on the operands its place promises -/

/-- A line that answers a next state, followed by a move to another place, answers one. -/
theorem andThen_goto_answers {r : Result} {w : Worker} (h : ∃ u, r = .next u) :
    ∃ t, andThen r (fun u => .next (goto w u)) = .next t := by
  obtain ⟨u, rfl⟩ := h
  exact ⟨_, rfl⟩

/-- Copying a polled frame answers, whatever its length (R106). -/
theorem copyFrameMove_answers (f : List Byte) (s : State) : ∃ t, copyFrameMove f s = .next t := by
  unfold copyFrameMove
  split
  · exact ⟨_, rfl⟩
  · exact andThen_goto_answers ⟨_, hostRxFrame_of_fits s (Nat.not_lt.1 ‹_›)⟩

/-- The check after `DECODE` answers (R106). -/
theorem checkDecodeMove_answers (s : State) : ∃ t, checkDecodeMove s = .next t := by
  unfold checkDecodeMove
  split <;> exact ⟨_, rfl⟩

/-- The send check answers (R107). -/
theorem checkSendMove_answers (s : State) : ∃ t, checkSendMove s = .next t := by
  unfold checkSendMove
  split <;> exact ⟨_, rfl⟩

/-- Publishing answers when the telemetry registers are valid and hold values (R29, R106). -/
theorem publishMove_answers {s : State} (hv : tlmValid s.block.status = true) (h : TlmHeld s.block) (f : TlmShown) :
    ∃ t, publishMove f s = .next t := by
  obtain ⟨hlat, hlon, hmx, hmy, hmz⟩ := h
  obtain ⟨lat, hlat⟩ := Option.isSome_iff_exists.1 hlat
  obtain ⟨lon, hlon⟩ := Option.isSome_iff_exists.1 hlon
  obtain ⟨mx, hmx⟩ := Option.isSome_iff_exists.1 hmx
  obtain ⟨my, hmy⟩ := Option.isSome_iff_exists.1 hmy
  obtain ⟨mz, hmz⟩ := Option.isSome_iff_exists.1 hmz
  exact ⟨_, publishMove_of_held (p := ⟨lat, lon, mx, my, mz⟩) ⟨hv, hlat, hlon, hmx, hmy, hmz⟩ f⟩

/-- Step 1 of the assembler answers, whatever the string (R93, R121). -/
theorem readOpcodeMove_answers (s : State) : ∃ t, readOpcodeMove s = .next t := by
  unfold readOpcodeMove
  split <;> exact ⟨_, rfl⟩

/-- Reading the mode answers, whatever it is (R94 to R96). -/
theorem readModeMove_answers (op : Byte) (s : State) : ∃ t, readModeMove op s = .next t := by
  unfold readModeMove
  split <;> exact ⟨_, rfl⟩

/-- Reading a degree string answers, whether it parses or not (R94). -/
theorem readPsMove_answers (op : Byte) (ch : Channel) (got : Quad (Option Rat)) (s : State) :
    ∃ t, readPsMove op ch got s = .next t := by
  cases ch <;> exact ⟨_, rfl⟩

/-- Step 2 of the assembler answers, whatever the values (R97, R121). -/
theorem checkRangeMove_answers (op : Byte) (degs : Quad (Option Rat)) (s : State) :
    ∃ t, checkRangeMove op degs s = .next t := by
  unfold checkRangeMove
  split <;> exact ⟨_, rfl⟩

/-- Moving a valid `PSQ_OUT` to a channel's register answers (R28, R29, R98). -/
theorem moveWordMove_answers {s : State} (op : Byte) (ch : Channel) (q : Quad Rat)
    (hv : psqValid s.block.status = true) (hl : HoldsLegal s.block.psqOut) :
    ∃ t, moveWordMove op ch q s = .next t := by
  obtain ⟨w, hw, -⟩ := hl
  rw [moveWordMove, if_pos hv, hw, needs_some]
  cases ch <;> exact ⟨_, rfl⟩

/-- `ENCODE` answers when registers 2 to 6 hold a packet (R77). -/
theorem execEncode_answers {s : State} (h : PacketReady s.block) : ∃ t, execEncode s = .next t := by
  obtain ⟨⟨op, hop, -⟩, ⟨ps1, h1, -⟩, ⟨ps2, h2, -⟩, ⟨ps3, h3, -⟩, ⟨ps4, h4, -⟩⟩ := h
  exact ⟨_, execEncode_of_written hop h1 h2 h3 h4⟩

/-- Handing a valid TXBUF to the radio answers; whether the frame arrives cannot be told (R107, R111). -/
theorem transmitFrame_answers {s : State} {f : List Byte} (hv : txValid s.block.status = true)
    (hf : memReadBytes s.block.txbuf 0 Config.cmdFrameLen = some f) : ∃ t, transmitFrame s = .next t := by
  simp only [transmitFrame, hv, if_true, hf]
  exact ⟨_, rfl⟩

/-! ### Moves and inputs -/

/-- The worker is about to read a beam angle that does not parse, the one invocation without a meaning (R95). -/
def AngleWithoutMeaning (c : Console) : Prop :=
  (∃ op, c.worker = .readingAngle op) ∧ parseInt c.angleStr = none

/-- Every move of the worker answers when the operands of its line are there, or it is the one without a meaning, which
is refused by name (R95, R111, R112). -/
theorem workerMove_answers (p : Option (List Byte)) {s : State} (hr : WorkerReady s.block s.console.worker) :
    (∃ t, workerMove p s = .next t)
      ∨ AngleWithoutMeaning s.console ∧ workerMove p s = .refused .beamAngleNotAnInteger := by
  cases hw : s.console.worker <;> rw [hw] at hr <;> simp only [workerMove, hw]
  case readingAngle op =>
    cases ha : parseInt s.console.angleStr with
    | none => exact .inr ⟨⟨⟨op, hw⟩, ha⟩, by simp only [readAngleMove, ha]⟩
    | some a => exact .inl ⟨_, by simp only [readAngleMove, ha]; rfl⟩
  all_goals left
  case idle | countingFrame | noData | clearingFlag | publishingDegree | reporting | writingDegree | writingOpcode
      | clearingMessage =>
    exact ⟨_, rfl⟩
  case polling => cases p <;> exact ⟨_, rfl⟩
  case telemetryReceived f => exact copyFrameMove_answers f s
  case decoding => exact andThen_goto_answers ((decodeRunsExactlyOnAFrame s).2 hr)
  case checkingDecode => exact checkDecodeMove_answers s
  case publishing f =>
    obtain ⟨hv, hheld⟩ := hr
    exact publishMove_answers hv hheld f
  case checkSendRequest => exact checkSendMove_answers s
  case readingOpcode => exact readOpcodeMove_answers s
  case readingMode op => exact readModeMove_answers op s
  case readingPs op ch got => exact readPsMove_answers op ch got s
  case checkingRange op degs => exact checkRangeMove_answers op degs s
  case quantizing op ch q =>
    obtain ⟨-, hq, -, hdeg⟩ := hr
    exact andThen_goto_answers ⟨_, execQmap_of_domain hdeg rfl (hq.get ch)⟩
  case movingWord op ch q =>
    obtain ⟨-, -, -, hv, hl⟩ := hr
    exact moveWordMove_answers op ch q hv hl
  case encoding => exact andThen_goto_answers (execEncode_answers hr)
  case transmitting =>
    obtain ⟨hv, f, hf, -⟩ := hr
    exact andThen_goto_answers (transmitFrame_answers hv hf)

/-- Every input of the system answers, but for that one move: an event of the UI or the radio always does (R103,
R109, R115). -/
theorem perform_answers {x : Input} {s : State} (hx : x.ofSystem = true) (hi : SystemInv s) :
    (∃ t, perform x s = .next t)
      ∨ AngleWithoutMeaning s.console ∧ perform x s = .refused .beamAngleNotAnInteger := by
  cases x with
  | worker p =>
    obtain ⟨hr, -⟩ := hi
    exact workerMove_answers p hr
  | uiSend | uiEdit _ | uiSees _ | radioSignal _ => exact .inl ⟨_, rfl⟩
  | item _ | hostWrite _ _ | hostWriteRx _ _ | rxFrame _ | hostRead _ | hostReadTx _ | reset => cases hx

/-- Settles O58: the system invariant holds the operands of the worker's next line (R75, R103), so only the angle
without a meaning is refused; with no input the machine waits. -/
theorem theLoopNeverStops : Obligations.TheLoopNeverStops := by
  intro s hi hn
  cases hx : s.inputs with
  | nil => exact .inl ⟨s, stepWithoutInputWaits s hx⟩
  | cons x rest =>
    rw [step_cons hx]
    obtain h | ⟨⟨hw, ha⟩, h⟩ := perform_answers (s := setInputs rest s) (hn x rest hx) hi
    · exact .inl h
    · exact .inr ⟨hw, ha, h⟩

end Sys2Proof.Machine

/-! ## The reserved request and the flag it leaves (10_state.md R22; 60_exceptions.md R120; settles O26) -/

namespace Sys2Proof.Machine

/-- The reserved request writes `STATUS` and nothing else (R120). -/
theorem exec_reqReserved (s : State) :
    exec .reqReserved s
      = .next { s with block := { s.block with status := statusError .illegalRequest s.block.status } } := rfl

/-- No line at the block clears `ILL_REQ`: only the reset does (R22). -/
theorem BlockLine.keeps_illReq {b c : Block} (h : BlockLine b c) (hi : illReq b.status = true) :
    illReq c.status = true := by
  cases h with
  | write r v =>
    obtain ⟨-, -, -, -, -, -, hst, -, -⟩ := writeReg_results b r v
    rwa [hst]
  | writeRx | rxFrame => exact hi
  | qmap =>
    obtain ⟨-, -, -, h, -⟩ := flags_statusDone_psq b.status
    exact h.trans hi
  | encode =>
    obtain ⟨-, -, -, h, -⟩ := flags_statusDone_tx b.status
    exact h.trans hi
  | decode =>
    obtain ⟨-, -, -, h, -⟩ := flags_statusDone_tlm b.status
    exact h.trans hi
  | malformed =>
    obtain ⟨-, -, -, h, -⟩ := flags_statusError_malformed b.status
    exact h.trans hi
  | illegal =>
    obtain ⟨-, -, -, h, -⟩ := flags_statusError_illegal b.status
    exact h

/-- Settles O26: the request raises `IllegalRequest`; a step that is no reset is a run of block lines, and none of them
clears the flag. -/
theorem reservedRequestIsIllegalRequest : Obligations.ReservedRequestIsIllegalRequest := by
  refine ⟨fun s => ?_, fun s t h hn hi => ?_⟩
  · obtain ⟨hp, ht, hm, hill, he, h7⟩ := flags_statusError_illegal s.block.status
    exact ⟨_, exec_reqReserved s, he, hill, hp, ht, hm, h7⟩
  · rcases step_run h with ⟨rest, hreset, -⟩ | hr
    · exact absurd hreset (hn rest)
    · exact hr.keeps (P := fun b => illReq b.status = true) (fun _ _ hl => hl.keeps_illReq) hi

end Sys2Proof.Machine

/-! ## The reset, as an input and as the state a run starts from (70_reset_and_hazards.md R135, R136; settles O38 and O57) -/

namespace Sys2Proof.Machine

/-- A step that takes a reset puts the block at its reset values and leaves the rest of the machine (R135). -/
theorem step_of_reset {s : State} {rest : List Input} (h : s.inputs = .reset :: rest) :
    step s = .next { s with block := Block.reset, inputs := rest } :=
  step_cons h

/-- Settles O38: the step puts the block at its reset values, and those hold no value (R30). -/
theorem resetClearsTheBlock : Obligations.ResetClearsTheBlock :=
  fun _ _ h => ⟨Block.reset, step_of_reset h, resetStateHoldsNoValue⟩

/-- No frame was handed to the radio, so every one that was carries a valid packet (R99, R136). -/
theorem sentValid_nil : SentValid [] := fun _ hx => absurd hx List.not_mem_nil

/-- With no write waiting, the display invariant says that the UI sees what the worker wrote (R42). -/
theorem displayInv_of_unseen_nil {c : Console} (hu : c.unseen = []) (h : c.screen = c.display) : DisplayInv c := by
  rw [DisplayInv, hu]
  exact h

/-- Settles O57: the idle worker needs nothing, nothing was sent, and the screen starts as the display (R136). -/
theorem resetMeetsTheSystemInvariant : Obligations.ResetMeetsTheSystemInvariant := by
  have hidle : WorkerReady State.reset.block State.reset.console.worker := trivial
  exact ⟨⟨hidle, sentValid_nil⟩, displayInv_of_unseen_nil rfl rfl⟩

end Sys2Proof.Machine
